-- ==== Sys2Proof/Word.lean ====
section
/-! DEFINITION. The word type: a word is an unsigned integer in `[0, 2^W)` (00_scope.md R10), `W` one of four widths (R8).
Its bit operations are exact integer operations (R10), so a word is a `Nat`; that every word a run holds is below `2^W`
is the invariant `State.RegistersInRange` of Safety.lean. -/

namespace Sys2Proof

/-- The word widths an instance may be built with: `W ∈ {8, 16, 32, 64}` (R8). -/
inductive WordWidth
  | w8
  | w16
  | w32
  | w64
deriving DecidableEq, Repr

/-- `W`, the width of a word in bits (R8). -/
def WordWidth.bits : WordWidth → Nat
  | .w8 => 8
  | .w16 => 16
  | .w32 => 32
  | .w64 => 64

/-- `LW = log2(W)`, the width of a BitOffset register (R8, R21). -/
def WordWidth.logBits : WordWidth → Nat
  | .w8 => 3
  | .w16 => 4
  | .w32 => 5
  | .w64 => 6

/-- How many bytes of byte-addressed memory one word takes: `W/8` (20_memory.md R45). -/
def WordWidth.bytes : WordWidth → Nat
  | .w8 => 1
  | .w16 => 2
  | .w32 => 4
  | .w64 => 8

/-- A word: an unsigned integer, below `2^W` in every state a run reaches (R10, R12). -/
abbrev Word := Nat

/-- One byte of the memory behind the memory port. -/
abbrev Byte := BitVec 8

end Sys2Proof
end

