-- ==== Sys2Proof/Config.lean ====
section
/-! DEFINITION. What an implementation of the block fixes (00_scope.md R8) and the one free value the spec leaves
(30_encoding.md R73). -/

namespace Sys2Proof

/-- The buffer strategy of the reader context: parameter `STRATEGY` (00_scope.md R8, 41_buffer_strategy.md R130). -/
inductive Strategy
  /-- Every `curr()`/`next()` loads. -/
  | direct
  /-- The last two words fetched are kept in `RC.C0`, `RC.C1`. -/
  | cached
deriving DecidableEq, Repr

/-- Parameter `SHIFT_IMPL` (00_scope.md R8, 40_primitives.md R102); it changes no observable result. -/
inductive ShiftImpl
  | emulated
  | accelerated
deriving DecidableEq, Repr

/-- Parameter `WORD1_POLICY`: which words command XBRM loads (00_scope.md R8, 40_primitives.md R108). -/
inductive Word1Policy
  | unconditional
  | conditional
deriving DecidableEq, Repr

/-- Parameter `BYTE_ORDER`, "any" (00_scope.md R8): the order of the bytes inside a word in byte-addressed memory, which the
block cannot observe (20_memory.md R44). `places` gives, from the lowest address of the word on, the significance of the
byte that lies there, 0 for the least significant. -/
structure ByteOrder where
  places : List Nat
deriving DecidableEq, Repr

/-- `places` is an order of `n` bytes: it lists each of `0` to `n - 1` once. -/
def ByteOrder.orders (o : ByteOrder) (n : Nat) : Bool := decide (o.places.Perm (List.range n))

/-- The least significant byte at the lowest address. -/
def ByteOrder.little (w : WordWidth) : ByteOrder := { places := List.range w.bytes }

/-- The most significant byte at the lowest address. -/
def ByteOrder.big (w : WordWidth) : ByteOrder := { places := (List.range w.bytes).reverse }

/-- The parameters of a BFX instance, fixed when it is built; no command changes one (00_scope.md R8). -/
structure Params where
  /-- `W`. -/
  width : WordWidth
  /-- `AW`: the width in bits of a word index. -/
  aw : Nat
  strategy : Strategy
  shiftImpl : ShiftImpl
  word1Policy : Word1Policy
  byteOrder : ByteOrder
deriving DecidableEq, Repr

/-- `W` as a number of bits. -/
def Params.W (p : Params) : Nat := p.width.bits

/-- `PW = AW + LW`: the width of operand port `P` (00_scope.md R8). -/
def Params.PW (p : Params) : Nat := p.aw + p.width.logBits

/-- `2^AW`: how many word indices there are (20_memory.md R40). -/
def Params.indexCount (p : Params) : Nat := 2 ^ p.aw

/-- The combinations that can be built: `AW` is positive, narrow words use the emulated shift "unconditionally", and
`BYTE_ORDER` is an order of the bytes of a word (00_scope.md R8). -/
def Params.wf (p : Params) : Bool :=
  decide (1 ≤ p.aw) &&
    (p.shiftImpl == .emulated || p.width == .w32 || p.width == .w64) &&
    p.byteOrder.orders p.width.bytes

/-- The parameters of the one machine `State.reset` starts. DESIGN CHOICE (log 1); `WORD1_POLICY` is at the spec's default
(00_scope.md R8). No statement about the block's behaviour rests on them. -/
def Params.chosen : Params where
  width := .w16
  aw := 32
  strategy := .direct
  shiftImpl := .emulated
  word1Policy := .unconditional
  byteOrder := .little .w16

/-- FREE VALUE (log 8): what a result port that a command does not drive holds after it: "an unspecified value"
(30_encoding.md R73). The arguments are the port's width, the number of the completion event and the port. -/
opaque Config.freeResult (w completion port : Nat) : BitVec w

end Sys2Proof
end

