-- ==== Sys2Proof/Syntax.lean ====
section
/-! DEFINITION. The commands of the block as a data type: one constructor per row of spec/opcode_table.json, each with
the command-word fields rule R76 of 30_encoding.md gives it. The operands `A`, `B`, `P` are not part of the command word;
they stand on the operand ports (R70). -/

namespace Sys2Proof

/-- The tag of an extraction destination (00_scope.md R9). -/
inductive Signedness
  | unsigned
  | signed
deriving DecidableEq, Repr

/-- A field descriptor byte `{S, N[6:0]}` of the command word (30_encoding.md R74). -/
structure Field where
  /-- `N`, the width in bits. -/
  bits : Nat
  /-- `S`, the tag of the destination. -/
  sign : Signedness
deriving DecidableEq, Repr

/-- The seventeen commands (30_encoding.md R76). -/
inductive Instr
  /-- SHW: double-word shift (R103). -/
  | shw (bits : Nat)
  /-- XBR: extract a bit range from two word operands (R107). -/
  | xbr (bits off : Nat)
  /-- XBRM: extract a bit range from memory (R108). -/
  | xbrm (bits off : Nat)
  /-- SBR: set a bit range in memory (R112). -/
  | sbr (bits off : Nat)
  /-- SXT: sign-extension fixup (R117). -/
  | sxt (field : Field)
  /-- BINDR: bind the reader context (R131). -/
  | bindr (off : Nat)
  /-- CURR: return the current word (R137). -/
  | curr
  /-- NEXT: return the next word (R138). -/
  | next
  /-- ADVW: advance the reader by whole words (R140). -/
  | advw
  /-- SKIP: advance the reader by a number of bits (R153). -/
  | skip
  /-- EXT1: extract one field (R154). -/
  | ext1 (f0 : Field)
  /-- EXT2: fused extraction of two fields (R155). -/
  | ext2 (f0 f1 : Field)
  /-- EXT3: fused extraction of three fields (R156). -/
  | ext3 (f0 f1 f2 : Field)
  /-- EXT4: fused extraction of four fields (R157). -/
  | ext4 (f0 f1 f2 f3 : Field)
  /-- BINDW: bind the writer context (R171). -/
  | bindw (off : Nat)
  /-- WR1: write one field (R173). -/
  | wr1 (bits : Nat)
  /-- WSKIP: advance the writer by a number of bits (R174). -/
  | wskip
deriving DecidableEq, Repr

end Sys2Proof
end

