-- ==== Sys2Proof/WellFormed.lean ====
section
/-! DEFINITION. Which commands the 64-bit command word can express: `N` is a 7-bit and `OFF` a 6-bit natural
(30_encoding.md R74, R75). A width above `W` or an offset `≥ W` is well formed: it decodes, and its rule makes it a
contract violation (R75, R80). -/

namespace Sys2Proof

/-- A width fits `N[6:0]`. -/
def widthFits (bits : Nat) : Bool := decide (bits < 128)

/-- A bit offset fits `OFF[5:0]`. -/
def offsetFits (off : Nat) : Bool := decide (off < 64)

/-- A descriptor fits its byte. -/
def Field.wf (f : Field) : Bool := widthFits f.bits

/-- The command can be written as a command word. -/
def Instr.wf : Instr → Bool
  | .shw bits => widthFits bits
  | .xbr bits off => widthFits bits && offsetFits off
  | .xbrm bits off => widthFits bits && offsetFits off
  | .sbr bits off => widthFits bits && offsetFits off
  | .sxt field => field.wf
  | .bindr off => offsetFits off
  | .curr => true
  | .next => true
  | .advw => true
  | .skip => true
  | .ext1 f0 => f0.wf
  | .ext2 f0 f1 => f0.wf && f1.wf
  | .ext3 f0 f1 f2 => f0.wf && f1.wf && f2.wf
  | .ext4 f0 f1 f2 f3 => f0.wf && f1.wf && f2.wf && f3.wf
  | .bindw off => offsetFits off
  | .wr1 bits => widthFits bits
  | .wskip => true

end Sys2Proof
end

