-- ==== Sys2Proof/Decode.lean ====
section
/-! DEFINITION. The command word: decoder, encoder, the pseudo-instruction EXTL and the assembler text
(30_encoding.md R74 to R83). The decoder is total: it answers one of the seventeen commands or says why the word is
`invalid` (R79). Field positions are read with division and remainder by the powers of two of rule R74's table. -/

namespace Sys2Proof

/-- Why a command word is invalid (30_encoding.md R79). -/
inductive Reject
  /-- `OP` is not one of the seventeen values of rule R76. -/
  | unknownOpcode
  /-- A field the command does not use is non-zero. -/
  | unusedFieldSet
  /-- `RSV` is non-zero. -/
  | reservedSet
deriving DecidableEq, Repr

/-- The natural number in bits `lo + n - 1` to `lo` of the command word (30_encoding.md R75: zero-extended naturals). -/
def bitsAt (w lo n : Nat) : Nat := w / 2 ^ lo % 2 ^ n

/-- The tag a one-bit field stands for (R74: 0 = UNSIGNED, 1 = SIGNED). -/
def signOf (bit : Nat) : Signedness := if bit = 0 then .unsigned else .signed

/-- The bit of a tag. -/
def Signedness.bit : Signedness → Nat
  | .unsigned => 0
  | .signed => 1

/-- The descriptor byte number `k` (0 to 3) of the command word: `N` in its low seven bits, `S` in its top bit (R74). -/
def descriptorAt (w k : Nat) : Field where
  bits := bitsAt w (8 + 8 * k) 7
  sign := signOf (bitsAt w (15 + 8 * k) 1)

/-- The command `i` if `RSV` and every listed unused field of the word are zero (R77, R79). -/
def admitCommand (w : Nat) (unused : List Nat) (i : Instr) : Except Reject Instr :=
  if bitsAt w 46 18 ≠ 0 then .error .reservedSet
  else if unused.all (· == 0) then .ok i
  else .error .unusedFieldSet

/-- The command a 64-bit number stands for, or why it is invalid (30_encoding.md R74, R76, R77, R79). -/
def decodeNat (w : Nat) : Except Reject Instr :=
  let n0 := bitsAt w 8 7
  let s0 := bitsAt w 15 1
  let d0 := bitsAt w 8 8
  let d1 := bitsAt w 16 8
  let d2 := bitsAt w 24 8
  let d3 := bitsAt w 32 8
  let off := bitsAt w 40 6
  match bitsAt w 0 8 with
  | 0x01 => admitCommand w [s0, d1, d2, d3, off] (.shw n0)
  | 0x02 => admitCommand w [s0, d1, d2, d3] (.xbr n0 off)
  | 0x03 => admitCommand w [s0, d1, d2, d3] (.xbrm n0 off)
  | 0x04 => admitCommand w [s0, d1, d2, d3] (.sbr n0 off)
  | 0x05 => admitCommand w [d1, d2, d3, off] (.sxt (descriptorAt w 0))
  | 0x10 => admitCommand w [d0, d1, d2, d3] (.bindr off)
  | 0x11 => admitCommand w [d0, d1, d2, d3, off] .curr
  | 0x12 => admitCommand w [d0, d1, d2, d3, off] .next
  | 0x13 => admitCommand w [d0, d1, d2, d3, off] .advw
  | 0x20 => admitCommand w [d0, d1, d2, d3, off] .skip
  | 0x21 => admitCommand w [d1, d2, d3, off] (.ext1 (descriptorAt w 0))
  | 0x22 => admitCommand w [d2, d3, off] (.ext2 (descriptorAt w 0) (descriptorAt w 1))
  | 0x23 => admitCommand w [d3, off]
      (.ext3 (descriptorAt w 0) (descriptorAt w 1) (descriptorAt w 2))
  | 0x24 => admitCommand w [off]
      (.ext4 (descriptorAt w 0) (descriptorAt w 1) (descriptorAt w 2) (descriptorAt w 3))
  | 0x30 => admitCommand w [d0, d1, d2, d3] (.bindw off)
  | 0x31 => admitCommand w [s0, d1, d2, d3, off] (.wr1 n0)
  | 0x32 => admitCommand w [d0, d1, d2, d3, off] .wskip
  | _ => .error .unknownOpcode

/-- The decoder of the block: total on every command word (30_encoding.md R79). -/
def decode (cmd : BitVec 64) : Except Reject Instr := decodeNat cmd.toNat

/-- The decoder's answer on a table word; the bits above `nbits` are 0. -/
def decodeTableWord (nbits w : Nat) : Option Instr :=
  (decode (BitVec.ofNat 64 (w % 2 ^ nbits))).toOption

/-- `OP` of a command (30_encoding.md R76, R77). -/
def Instr.opcode : Instr → Nat
  | .shw _ => 0x01
  | .xbr _ _ => 0x02
  | .xbrm _ _ => 0x03
  | .sbr _ _ => 0x04
  | .sxt _ => 0x05
  | .bindr _ => 0x10
  | .curr => 0x11
  | .next => 0x12
  | .advw => 0x13
  | .skip => 0x20
  | .ext1 _ => 0x21
  | .ext2 _ _ => 0x22
  | .ext3 _ _ _ => 0x23
  | .ext4 _ _ _ _ => 0x24
  | .bindw _ => 0x30
  | .wr1 _ => 0x31
  | .wskip => 0x32

/-- The descriptor byte of a field: `{S, N[6:0]}` (R74). -/
def Field.byte (f : Field) : Nat := f.bits + f.sign.bit * 2 ^ 7

/-- The bits of the command word above `OP` (R74, R76). -/
def Instr.fieldBits : Instr → Nat
  | .shw bits => bits * 2 ^ 8
  | .xbr bits off => bits * 2 ^ 8 + off * 2 ^ 40
  | .xbrm bits off => bits * 2 ^ 8 + off * 2 ^ 40
  | .sbr bits off => bits * 2 ^ 8 + off * 2 ^ 40
  | .sxt field => field.byte * 2 ^ 8
  | .bindr off => off * 2 ^ 40
  | .curr => 0
  | .next => 0
  | .advw => 0
  | .skip => 0
  | .ext1 f0 => f0.byte * 2 ^ 8
  | .ext2 f0 f1 => f0.byte * 2 ^ 8 + f1.byte * 2 ^ 16
  | .ext3 f0 f1 f2 => f0.byte * 2 ^ 8 + f1.byte * 2 ^ 16 + f2.byte * 2 ^ 24
  | .ext4 f0 f1 f2 f3 =>
      f0.byte * 2 ^ 8 + f1.byte * 2 ^ 16 + f2.byte * 2 ^ 24 + f3.byte * 2 ^ 32
  | .bindw off => off * 2 ^ 40
  | .wr1 bits => bits * 2 ^ 8
  | .wskip => 0

/-- The encoder: the command word of a well-formed command (30_encoding.md R74, R76). -/
def encode (i : Instr) : BitVec 64 := BitVec.ofNat 64 (i.opcode + i.fieldBits)

/-- The match and mask of a command's row of spec/opcode_table.json (30_encoding.md R77: `CMD & mask = match`). The mask
covers `OP`, every field the command does not use and `RSV`. -/
def Instr.tableMask : Instr → BitVec 64
  | .shw _ => 0xFFFFFFFFFFFF80FF#64
  | .xbr _ _ => 0xFFFFC0FFFFFF80FF#64
  | .xbrm _ _ => 0xFFFFC0FFFFFF80FF#64
  | .sbr _ _ => 0xFFFFC0FFFFFF80FF#64
  | .sxt _ => 0xFFFFFFFFFFFF00FF#64
  | .bindr _ => 0xFFFFC0FFFFFFFFFF#64
  | .curr => 0xFFFFFFFFFFFFFFFF#64
  | .next => 0xFFFFFFFFFFFFFFFF#64
  | .advw => 0xFFFFFFFFFFFFFFFF#64
  | .skip => 0xFFFFFFFFFFFFFFFF#64
  | .ext1 _ => 0xFFFFFFFFFFFF00FF#64
  | .ext2 _ _ => 0xFFFFFFFFFF0000FF#64
  | .ext3 _ _ _ => 0xFFFFFFFF000000FF#64
  | .ext4 _ _ _ _ => 0xFFFFFF00000000FF#64
  | .bindw _ => 0xFFFFC0FFFFFFFFFF#64
  | .wr1 _ => 0xFFFFFFFFFFFF80FF#64
  | .wskip => 0xFFFFFFFFFFFFFFFF#64

/-- The expansion of the pseudo-instruction `EXTL d0, …, d(k-1)`: EXT4 commands for the descriptors four at a time, then
one EXT1, EXT2 or EXT3 for the rest (30_encoding.md R83). -/
def expandExtl : List Field → List Instr
  | [] => []
  | [d0] => [.ext1 d0]
  | [d0, d1] => [.ext2 d0 d1]
  | [d0, d1, d2] => [.ext3 d0 d1 d2]
  | d0 :: d1 :: d2 :: d3 :: rest => .ext4 d0 d1 d2 d3 :: expandExtl rest

/-- A field descriptor in assembler text: `u<n>` or `s<n>` (30_encoding.md R82). -/
def Field.text (f : Field) : String :=
  (match f.sign with
    | .unsigned => "u"
    | .signed => "s") ++ toString f.bits

/-- The assembler line of a command with its operands (30_encoding.md R82), operand values in decimal. -/
def Instr.text (i : Instr) (a b p : Nat) : String :=
  let withA := " A=" ++ toString a
  let withP := " P=" ++ toString p
  let at' (off : Nat) := " @" ++ toString off
  match i with
  | .shw n => "SHW " ++ toString n ++ withA ++ " B=" ++ toString b
  | .xbr n o => "XBR " ++ toString n ++ at' o ++ withA ++ " B=" ++ toString b
  | .xbrm n o => "XBRM " ++ toString n ++ at' o ++ withP
  | .sbr n o => "SBR " ++ toString n ++ at' o ++ withP ++ withA
  | .sxt f => "SXT " ++ f.text ++ withA
  | .bindr o => "BINDR" ++ at' o ++ withP
  | .curr => "CURR"
  | .next => "NEXT"
  | .advw => "ADVW" ++ withP
  | .skip => "SKIP" ++ withP
  | .ext1 f0 => "EXT1 " ++ f0.text
  | .ext2 f0 f1 => "EXT2 " ++ f0.text ++ ", " ++ f1.text
  | .ext3 f0 f1 f2 => "EXT3 " ++ f0.text ++ ", " ++ f1.text ++ ", " ++ f2.text
  | .ext4 f0 f1 f2 f3 =>
      "EXT4 " ++ f0.text ++ ", " ++ f1.text ++ ", " ++ f2.text ++ ", " ++ f3.text
  | .bindw o => "BINDW" ++ at' o ++ withP
  | .wr1 n => "WR1 " ++ toString n ++ withA
  | .wskip => "WSKIP" ++ withP

end Sys2Proof
end

