-- ==== Sys2Proof/Machine/State.lean ====
section
/-! DEFINITION. The state of the machine, the reasons a step can stop, and the state after reset. The block's own state is
the two cursor contexts (10_state.md R20, R21) and the ports (30_encoding.md R70 to R73); the backing store, the queue of
host events and the record of memory requests stand beside them so that one step function runs the block. -/

namespace Sys2Proof.Machine

open Sys2Proof

/-- The backing store as byte cells, addresses strictly rising, an unlisted byte having no value (log 6, log 7). Word `i`
is the `W/8` bytes at byte address `i * (W/8)` (20_memory.md R40, R45). -/
abbrev Memory := List Host.Cell

/-- The reader context `RC` (10_state.md R20, R21). -/
structure ReaderCtx where
  /-- The model's own mark that BINDR has bound the context (10_state.md R36, 60_exceptions.md R203; log 5). -/
  bound : Bool
  /-- `RC.IDX`, the word index of the current word. -/
  idx : Nat
  /-- `RC.OFS`, the BitOffset. -/
  ofs : Nat
  /-- `RC.C0`, the cached "curr" word (only CACHED reads or writes it; log 14). -/
  c0 : Word
  /-- `RC.C1`, the cached "next" word (only CACHED reads or writes it; log 14). -/
  c1 : Word
deriving DecidableEq, Repr

/-- The writer context `WC` (10_state.md R20, R21, R25). -/
structure WriterCtx where
  /-- The model's own mark that BINDW has bound the context (10_state.md R36, 60_exceptions.md R203; log 5). -/
  bound : Bool
  /-- `WC.IDX`. -/
  idx : Nat
  /-- `WC.OFS`. -/
  ofs : Nat
deriving DecidableEq, Repr

/-- The operand ports of the command in progress (30_encoding.md R70). -/
structure Ports where
  a : Word
  b : Word
  p : Nat
deriving DecidableEq, Repr

/-- The result ports (30_encoding.md R71, R73). -/
structure Results where
  r0 : Word
  r1 : Word
  r2 : Word
  r3 : Word
deriving DecidableEq, Repr

/-- One request on the memory channel (30_encoding.md R72). -/
inductive MemReq
  | load (index : Nat)
  | store (index : Nat) (value : Word)
deriving DecidableEq, Repr

/-- Whether an access loads or stores. -/
inductive AccessKind
  | load
  | store
deriving DecidableEq, Repr

/-- A word access that another agent (a second instance, a host thread) makes while a command is in progress
(20_memory.md R58; log 11). -/
structure Rival where
  index : Nat
  kind : AccessKind
deriving DecidableEq, Repr

/-- One command as the host presents it: the tuple `(CMD, A, B, P)` of 30_encoding.md R70, and what other agents access
while it is in progress. -/
structure Command where
  cmd : BitVec 64
  a : Nat
  b : Nat
  p : Nat
  rivals : List Rival
deriving DecidableEq, Repr

/-- What the host can do to the block, one at a time (log 9, log 10). -/
inductive HostEvent
  /-- Issue a command (30_encoding.md R70). -/
  | command (c : Command)
  /-- Store a word to the backing store between two commands, which also provides it (20_memory.md R56,
  70_reset_and_hazards.md R233). -/
  | store (index : Nat) (value : Nat)
  /-- Reset the block (70_reset_and_hazards.md R230, R231). -/
  | reset
deriving DecidableEq, Repr

/-- The state of the machine. Plain data. -/
structure State where
  /-- The build-time parameters (00_scope.md R8); no step changes them (log 1). -/
  params : Params
  /-- `RC` (10_state.md R20). -/
  rc : ReaderCtx
  /-- `WC` (10_state.md R20). -/
  wc : WriterCtx
  /-- `A`, `B`, `P` (30_encoding.md R70). -/
  ports : Ports
  /-- `r0` to `r3` (30_encoding.md R71). -/
  results : Results
  /-- The backing store, the host's (10_state.md R32). -/
  mem : Memory
  /-- The host's events not yet taken, the next one first (log 9). -/
  inputs : List HostEvent
  /-- The accesses of other agents during the command in progress (log 11). -/
  rivals : List Rival
  /-- The memory requests made so far, oldest first (30_encoding.md R72; log 12). -/
  trace : List MemReq
  /-- How many completion events there have been (30_encoding.md R71); it numbers the free values (log 8, log 12). -/
  completions : Nat
deriving DecidableEq, Repr

/-- The contract violations a command can commit (60_exceptions.md R201), before the command's name is added. -/
inductive Violation
  /-- V1. -/
  | shiftCount
  /-- V2. -/
  | fieldWidth
  /-- V3. -/
  | bitOffset
  /-- V4. -/
  | untrimmedValue
  /-- V5. -/
  | unprovidedWord
  /-- V6. -/
  | indexRange
  /-- V7. -/
  | unboundCursor
  /-- V8. -/
  | race
deriving DecidableEq, Repr

/-- Why the machine stops with a fault: a contract violation, with the command that commits it (60_exceptions.md R201,
R203). The hardware detects nothing and may do anything (R202), so every one of these is safe: the model stops where the
hardware goes on with no defined meaning. -/
inductive Fault
  /-- V1: shift count `≥ W`; raised by SHW. Safe. -/
  | shiftCount (command : Instr)
  /-- V2: a width of `W` at a non-zero offset, or above `W`; raised by XBR, XBRM, SBR, SXT, EXT1 to EXT4, WR1. Safe. -/
  | fieldWidth (command : Instr)
  /-- V3: a bit offset `≥ W`; raised by XBR, XBRM, SBR, BINDR, BINDW. Safe. -/
  | bitOffset (command : Instr)
  /-- V4: a value with a bit set at or above its width; raised by SBR, WR1, SXT. Safe. -/
  | untrimmedValue (command : Instr)
  /-- V5: load or store of a word the host has not provided; raised by every command that touches memory. Safe. -/
  | unprovidedWord (command : Instr)
  /-- V6: a word index or an advance out of range; raised by every command with an index or an advance. Safe. -/
  | indexRange (command : Instr)
  /-- V7: use of an unbound cursor context; raised by CURR, NEXT, ADVW, SKIP, EXT1 to EXT4, WR1, WSKIP. Safe. -/
  | unboundCursor (command : Instr)
  /-- A host store to a word index outside the address space `[0, 2^AW)` (20_memory.md R40; log 18); raised by a step that
  takes such a host event, by no command. Safe. -/
  | hostIndexRange (index : Nat)
deriving DecidableEq, Repr

/-- Why the model refuses a step. -/
inductive Refusal
  /-- An instruction that has no meaning yet; raised by an arm of exec. Safe. -/
  | notModelled (mnemonic : String)
  /-- V9: an invalid command word (30_encoding.md R79, 93_implementation_defined.md U12); raised by step. Safe. -/
  | invalidCommand (word : BitVec 64) (why : Reject)
  /-- V8: another agent accesses a word of the command, and one of the two stores (20_memory.md R58, R59,
  93_implementation_defined.md U9); raised by every command that touches memory. Safe. -/
  | race (command : Instr)
deriving DecidableEq, Repr

/-- A reader context right after reset: unbound. DESIGN CHOICE (log 3): its registers, "unspecified" in 10_state.md R35,
hold 0. -/
def ReaderCtx.reset : ReaderCtx := { bound := false, idx := 0, ofs := 0, c0 := 0, c1 := 0 }

/-- A writer context right after reset: unbound. DESIGN CHOICE (log 3): its registers hold 0. -/
def WriterCtx.reset : WriterCtx := { bound := false, idx := 0, ofs := 0 }

/-- The result ports right after reset. DESIGN CHOICE (log 4): 0 ("unspecified until a command drives them", R37). -/
def Results.reset : Results := { r0 := 0, r1 := 0, r2 := 0, r3 := 0 }

/-- The operand ports right after reset. DESIGN CHOICE (log 4): 0; every command drives them anew. -/
def Ports.reset : Ports := { a := 0, b := 0, p := 0 }

/-- An instance with parameters `p` right after reset, over a backing store in which the host has provided nothing yet
(10_state.md R35, 70_reset_and_hazards.md R230). -/
def State.resetOf (p : Params) : State where
  params := p
  rc := .reset
  wc := .reset
  ports := .reset
  results := .reset
  mem := []
  inputs := []
  rivals := []
  trace := []
  completions := 0

/-- The machine right after reset, for the chosen parameters (log 1). -/
def State.reset : State := State.resetOf Params.chosen

end Sys2Proof.Machine
end

