-- ==== Sys2Proof/Machine/Flags.lean ====
section
/-! DEFINITION. The block has no flag, condition code or status bit (10_state.md R29), so no flag computation stands here.
What stands in their place are the conditions a command checks before it acts: the contract of 60_exceptions.md R201, and
how a violation ends a step (R203). It is also the whole of "taking an exception": the block raises none (R200, R207). -/

namespace Sys2Proof.Machine

open Sys2Proof

/-- The check of one contract condition: the violation if it does not hold. -/
def require (condition : Bool) (v : Violation) : Except Violation Unit :=
  if condition then .ok () else .error v

/-- How a violation ends a step: V1 to V7 as a fault, the race V8 as a refusal, each naming the command
(60_exceptions.md R203, 93_implementation_defined.md U1 to U7, U9). -/
def Violation.stop (v : Violation) (command : Instr) : Host.Outcome State Fault Refusal :=
  match v with
  | .shiftCount => .fault (.shiftCount command)
  | .fieldWidth => .fault (.fieldWidth command)
  | .bitOffset => .fault (.bitOffset command)
  | .untrimmedValue => .fault (.untrimmedValue command)
  | .unprovidedWord => .fault (.unprovidedWord command)
  | .indexRange => .fault (.indexRange command)
  | .unboundCursor => .fault (.unboundCursor command)
  | .race => .refused (.race command)

/-- The outcome of a command: the state it leaves, or its violation. A violation leaves no state at all
(60_exceptions.md R202, R203). -/
def conclude (command : Instr) (r : Except Violation State) : Host.Outcome State Fault Refusal :=
  match r with
  | .ok s => .next s
  | .error v => v.stop command

/-- V2 for a field at BitOffset `off`: its width is below `W`, or exactly `W` at offset 0 (40_primitives.md R105, R110,
R111; 42_cursor_extractor.md R152). The two sentences of the rule are two checks. -/
def requireFieldWidth (w off bits : Nat) : Except Violation Unit := do
  require (decide (bits ≤ w)) .fieldWidth
  require (decide (bits = w → off = 0)) .fieldWidth

end Sys2Proof.Machine
end

