-- ==== Sys2Proof/Machine/Operands.lean ====
section
/-! DEFINITION. The operand and result ports (30_encoding.md R70 to R73): how a command comes onto the operand ports, and
how its results and its completion event leave the block. The other operands of a command are the fields of the command
word, which Decode.lean reads (R75). -/

namespace Sys2Proof.Machine

open Sys2Proof

/-- `W` of the instance. -/
abbrev State.W (s : State) : Nat := s.params.W

/-- The block accepts a command: its operands stand on the ports, each as wide as its port (30_encoding.md R70; log 2), and
the queue moves on. -/
def acceptCommand (c : Command) (rest : List HostEvent) (s : State) : State :=
  { s with
    ports :=
      { a := c.a % 2 ^ s.params.W
        b := c.b % 2 ^ s.params.W
        p := c.p % 2 ^ s.params.PW }
    rivals := c.rivals
    inputs := rest }

/-- The value of result port `port` after a command that drives the values `vs` on `r0`, `r1`, … in order: the driven
value, or, on a port it does not drive, a free value (30_encoding.md R73; log 8). -/
def portAfter (w completion port : Nat) (vs : List Word) : Word :=
  (vs[port]?).getD (Config.freeResult w completion port).toNat

/-- The completion of a command that returns `vs` (30_encoding.md R71, R73). -/
def respond (vs : List Word) (s : State) : State :=
  { s with
    results :=
      { r0 := portAfter s.params.W s.completions 0 vs
        r1 := portAfter s.params.W s.completions 1 vs
        r2 := portAfter s.params.W s.completions 2 vs
        r3 := portAfter s.params.W s.completions 3 vs }
    completions := s.completions + 1 }

end Sys2Proof.Machine
end

