-- ==== Sys2Proof/Machine/Ops.lean ====
section
/-! DEFINITION. The shared operations: the backing store and its words, the memory channel, the stateless primitives
(40_primitives.md), the reader's buffer and bit cursor (41_buffer_strategy.md, 42_cursor_extractor.md), the writer's cursor
(43_writer.md) and the host's own events. Every procedure is written from the pseudocode of its rule, check by check and
access by access; a violation ends it at once. -/

namespace Sys2Proof.Machine

open Sys2Proof

/-! ### The backing store as bytes -/

/-- The canonical form of a memory: addresses strictly rising. An unlisted byte has no value, so no entry can equal what an
unlisted address reads as. -/
abbrev Memory.wf (m : Memory) : Prop := m.Pairwise (fun x y => x.1 < y.1)

/-- One byte of memory; none where the host has provided nothing (20_memory.md R51; log 7). -/
def Memory.byteAt (m : Memory) (a : Nat) : Option Byte :=
  match m with
  | [] => none
  | (x, b) :: rest => if x = a then some b else Memory.byteAt rest a

/-- One byte written, its address kept in order. -/
def Memory.setByte (m : Memory) (a : Nat) (b : Byte) : Memory :=
  match m with
  | [] => [(a, b)]
  | (x, c) :: rest =>
    if a < x then (a, b) :: (x, c) :: rest
    else if a = x then (a, b) :: rest
    else (x, c) :: Memory.setByte rest a b

/-- The `n` bytes from address `a` on, if all have a value. -/
def Memory.bytesAt (m : Memory) (a : Nat) : Nat → Option (List Byte)
  | 0 => some []
  | n + 1 =>
    match m.byteAt a, Memory.bytesAt m (a + 1) n with
    | some b, some bs => some (b :: bs)
    | _, _ => none

/-- Bytes written from address `a` on. -/
def Memory.setBytes (m : Memory) (a : Nat) : List Byte → Memory
  | [] => m
  | b :: bs => Memory.setBytes (m.setByte a b) (a + 1) bs

/-! ### Words of the backing store -/

/-- The value of a list of bytes, the least significant first. -/
def joinBytes : List Byte → Nat
  | [] => 0
  | b :: bs => b.toNat + 256 * joinBytes bs

/-- The low `n` bytes of a value, the least significant first. -/
def splitBytes (v : Nat) : Nat → List Byte
  | 0 => []
  | n + 1 => BitVec.ofNat 8 v :: splitBytes (v / 256) n

/-- The bytes of a word from the order of significance into the order of addresses (20_memory.md R44). With `restoreBytes` it
is the one place byte order is decided. A `BYTE_ORDER` that is no order of these bytes, with which no instance can be built
(`Params.wf`), leaves them as they are (log 6). -/
def arrangeBytes (o : ByteOrder) (bs : List Byte) : List Byte :=
  if o.orders bs.length then o.places.map (fun k => bs.getD k 0) else bs

/-- The way back: the bytes of a word from the order of addresses into the order of significance. -/
def restoreBytes (o : ByteOrder) (bs : List Byte) : List Byte :=
  if o.orders bs.length then (List.range bs.length).map (fun k => bs.getD (o.places.idxOf k) 0)
  else bs

/-- The byte address of word `i`: `i * (W/8)`, the backing store starting at byte address 0 (20_memory.md R40, R45;
log 6). -/
def byteAddress (p : Params) (i : Nat) : Nat := i * p.width.bytes

/-- `Mem[i]`, if the host has provided all of it (20_memory.md R40, R51). -/
def Memory.loadWord (p : Params) (m : Memory) (i : Nat) : Option Word :=
  (m.bytesAt (byteAddress p i) p.width.bytes).map
    (fun bs => joinBytes (restoreBytes p.byteOrder bs))

/-- `Mem[i] <- v`. -/
def Memory.storeWord (p : Params) (m : Memory) (i : Nat) (v : Word) : Memory :=
  m.setBytes (byteAddress p i) (arrangeBytes p.byteOrder (splitBytes v p.width.bytes))

/-- `Mem[i]` in a state. -/
def wordAt (s : State) (i : Nat) : Option Word := s.mem.loadWord s.params i

/-! ### The memory channel -/

/-- Another agent stores to word `i` during this command. -/
def rivalStores (s : State) (i : Nat) : Bool :=
  s.rivals.any (fun r => r.index == i && r.kind == .store)

/-- Another agent loads or stores word `i` during this command. -/
def rivalTouches (s : State) (i : Nat) : Bool := s.rivals.any (fun r => r.index == i)

/-- `MemRead(i, W)` (00_scope.md R13): one load on the memory channel. Out of the index space it is V6 (10_state.md R28), of
a word not provided V5 (20_memory.md R51), of a word another agent stores to V8 (20_memory.md R58, R59). -/
def memRead (i : Nat) (s : State) : Except Violation (Word × State) := do
  require (decide (i < s.params.indexCount)) .indexRange
  match wordAt s i with
  | none => .error .unprovidedWord
  | some v =>
    require (!rivalStores s i) .race
    .ok (v, { s with trace := s.trace ++ [.load i] })

/-- `MemWrite(i, W, v)` (00_scope.md R13): one store on the memory channel, with the same violations; the race is with any
access of another agent. -/
def memWrite (i : Nat) (v : Word) (s : State) : Except Violation State := do
  require (decide (i < s.params.indexCount)) .indexRange
  require (wordAt s i).isSome .unprovidedWord
  require (!rivalTouches s i) .race
  .ok { s with
    mem := s.mem.storeWord s.params i v
    trace := s.trace ++ [.store i v] }

/-! ### Stateless primitives -/

/-- The mask `2^n - 1` over the integers (40_primitives.md R104). -/
def lowMask (n : Nat) : Nat := 2 ^ n - 1

/-- `not_W(x) = (2^W - 1) - x` (00_scope.md R10). -/
def notW (w : Nat) (x : Word) : Word := 2 ^ w - 1 - x

/-- `{high : low}`, the two-word value `high * 2^W + low` (00_scope.md R11). -/
def doubleWord (w : Nat) (low high : Word) : Nat := high * 2 ^ w + low

/-- `shift_window(low, high, n)` (40_primitives.md R101), the one definition for both values of `SHIFT_IMPL` (R102):
`({high : low} >> n) mod 2^W`. -/
def shiftWindow (w : Nat) (low high : Word) (n : Nat) : Word :=
  (doubleWord w low high >>> n) % 2 ^ w

/-- The portable emulation of the shift: "the shift/shift/or formula" of 40_primitives.md R101, R102, over the integers
(90_conflicts.md C1). It is the oracle of R102; no command calls it. -/
def shiftWindowEmulated (w : Nat) (low high : Word) (n : Nat) : Word :=
  ((low >>> n) ||| ((high <<< (w - n)) % 2 ^ w)) % 2 ^ w

/-- `extract_bit_range(w0, w1, off, n)` (40_primitives.md R105, R106, R110). -/
def extractBitRange (w : Nat) (w0 w1 : Word) (off n : Nat) : Except Violation Word :=
  if n = 0 then .ok 0
  else do
    require (decide (off < w)) .bitOffset
    requireFieldWidth w off n
    if off + n ≤ w then
      .ok ((w0 >>> off) &&& lowMask n)
    else
      .ok (shiftWindow w w0 w1 off &&& lowMask n)

/-- A word with the bits of `mask` replaced by those of `v`: `(old & not_W(mask)) | (v & mask)` (40_primitives.md R111). -/
def mergeBits (w : Nat) (old mask v : Word) : Word := (old &&& notW w mask) ||| (v &&& mask)

/-- `set_bit_range(p, val, off, n)` (40_primitives.md R111, R114, R115). -/
def setBitRange (p : Nat) (val : Word) (off n : Nat) (s : State) : Except Violation State :=
  if n = 0 then .ok s
  else do
    require (decide (off < s.params.W)) .bitOffset
    requireFieldWidth s.params.W off n
    require (decide (val < 2 ^ n)) .untrimmedValue
    if off + n ≤ s.params.W then do
      let mask := (lowMask n <<< off) % 2 ^ s.params.W
      let (old, s1) ← memRead p s
      memWrite p (mergeBits s.params.W old mask (val <<< off)) s1
    else do
      let bits0 := s.params.W - off
      let bits1 := n - bits0
      let mask0 := (lowMask bits0 <<< off) % 2 ^ s.params.W
      let (old0, s1) ← memRead p s
      let s2 ← memWrite p (mergeBits s.params.W old0 mask0 (val <<< off)) s1
      let mask1 := lowMask bits1
      let (old1, s3) ← memRead (p + 1) s2
      memWrite (p + 1) (mergeBits s.params.W old1 mask1 (val >>> bits0)) s3

/-- `fixup(v, n, s)`, the sign extension (40_primitives.md R116, R118). -/
def fixup (w : Nat) (v : Word) (n : Nat) (sign : Signedness) : Word :=
  match sign with
  | .unsigned => v
  | .signed =>
    if n = 0 then v
    else if n ≥ w then v
    else if v.testBit (n - 1) then v ||| ((lowMask w <<< n) % 2 ^ w)
    else v

/-! ### The reader: buffer strategy and bit cursor -/

/-- The check every command of the reader makes first (10_state.md R36). -/
def requireReader (s : State) : Except Violation Unit := require s.rc.bound .unboundCursor

/-- The check every command of the writer makes first (10_state.md R36). -/
def requireWriter (s : State) : Except Violation Unit := require s.wc.bound .unboundCursor

/-- `buf_bind(p)` (41_buffer_strategy.md R132). -/
def bufBind (p : Nat) (s : State) : Except Violation State :=
  match s.params.strategy with
  | .direct => .ok { s with rc := { s.rc with idx := p } }
  | .cached => do
    let (w0, s1) ← memRead p { s with rc := { s.rc with idx := p } }
    let (w1, s2) ← memRead (p + 1) s1
    .ok { s2 with rc := { s2.rc with c0 := w0, c1 := w1 } }

/-- `curr()` (41_buffer_strategy.md R133). -/
def bufCurr (s : State) : Except Violation (Word × State) :=
  match s.params.strategy with
  | .direct => memRead s.rc.idx s
  | .cached => .ok (s.rc.c0, s)

/-- `next()` (41_buffer_strategy.md R134). -/
def bufNext (s : State) : Except Violation (Word × State) :=
  match s.params.strategy with
  | .direct => memRead (s.rc.idx + 1) s
  | .cached => .ok (s.rc.c1, s)

/-- `buf_advance(k)` (41_buffer_strategy.md R135). -/
def bufAdvance (k : Nat) (s : State) : Except Violation State := do
  require (decide (s.rc.idx + k < s.params.indexCount)) .indexRange
  match s.params.strategy with
  | .direct => .ok { s with rc := { s.rc with idx := s.rc.idx + k } }
  | .cached =>
    if k = 0 then .ok s
    else if k = 1 then do
      let (w1, s1) ← memRead (s.rc.idx + 1 + 1) s
      .ok { s1 with rc := { s1.rc with idx := s.rc.idx + 1, c0 := s.rc.c1, c1 := w1 } }
    else do
      let (w0, s1) ← memRead (s.rc.idx + k) s
      let (w1, s2) ← memRead (s.rc.idx + k + 1) s1
      .ok { s2 with rc := { s2.rc with idx := s.rc.idx + k, c0 := w0, c1 := w1 } }

/-- `cursor_advance(n)` (42_cursor_extractor.md R151). -/
def cursorAdvance (n : Nat) (s : State) : Except Violation State := do
  let t := s.rc.ofs + n
  let s1 ← bufAdvance (t / s.params.W) s
  .ok { s1 with rc := { s1.rc with ofs := t % s.params.W } }

/-- `cursor_extract(n)` (42_cursor_extractor.md R152): both words are taken, then the field, then the advance. -/
def cursorExtract (n : Nat) (s : State) : Except Violation (Word × State) := do
  requireFieldWidth s.params.W s.rc.ofs n
  let (w0, s1) ← bufCurr s
  let (w1, s2) ← bufNext s1
  let v ← extractBitRange s.params.W w0 w1 s2.rc.ofs n
  let s3 ← cursorAdvance n s2
  .ok (v, s3)

/-- One destination of an extract: `cursor_extract` and then the fixup its tag asks for (42_cursor_extractor.md R154). -/
def extractField (f : Field) (s : State) : Except Violation (Word × State) := do
  let (v, s1) ← cursorExtract f.bits s
  .ok (fixup s.params.W v f.bits f.sign, s1)

/-- Several destinations "strictly left to right, each advancing the cursor in turn" (42_cursor_extractor.md R155 to
R158): their values in order and the state after the last. -/
def extractFields (fs : List Field) (s : State) : Except Violation (List Word × State) :=
  match fs with
  | [] => .ok ([], s)
  | f :: rest => do
    let (v, s1) ← extractField f s
    let (vs, s2) ← extractFields rest s1
    .ok (v :: vs, s2)

/-! ### The writer -/

/-- `wcursor_advance(n)` (43_writer.md R172). -/
def wcursorAdvance (n : Nat) (s : State) : Except Violation State := do
  let t := s.wc.ofs + n
  require (decide (s.wc.idx + t / s.params.W < s.params.indexCount)) .indexRange
  .ok { s with wc := { s.wc with idx := s.wc.idx + t / s.params.W, ofs := t % s.params.W } }

/-! ### The host's own events -/

/-- A store of the host between two commands, which also provides the word (20_memory.md R56, 70_reset_and_hazards.md R233);
the value is as wide as a word (log 10). -/
def hostStore (i v : Nat) (s : State) : Host.Outcome State Fault Refusal :=
  if i < s.params.indexCount then
    .next { s with mem := s.mem.storeWord s.params i (v % 2 ^ s.params.W) }
  else .fault (.hostIndexRange i)

/-- A reset of the block: the contexts are unbound and every register and port is at the value the log names for reset; the
memory is untouched (10_state.md R35, 70_reset_and_hazards.md R230, R231; log 3, log 4, log 10). -/
def resetBlock (s : State) : State :=
  { s with
    rc := .reset
    wc := .reset
    ports := .reset
    results := .reset
    rivals := [] }

end Sys2Proof.Machine
end

