-- ==== Sys2Proof/Machine/Buffer.lean ====
section
/-! DEFINITION. The meanings of the buffer strategy's commands BINDR, CURR, NEXT and ADVW (41_buffer_strategy.md). -/

namespace Sys2Proof.Machine

open Sys2Proof

/-- BINDR (41_buffer_strategy.md R131). -/
def execBindr (off : Nat) (s : State) : Host.Outcome State Fault Refusal :=
  conclude (.bindr off) do
    require (decide (s.ports.p < s.params.indexCount)) .indexRange
    require (decide (off < s.params.W)) .bitOffset
    require (decide (s.params.strategy = .cached → s.ports.p + 1 < s.params.indexCount)) .indexRange
    let s1 ← bufBind s.ports.p s
    .ok (respond [] { s1 with rc := { s1.rc with bound := true, ofs := off } })

/-- CURR (41_buffer_strategy.md R137). -/
def execCurr (s : State) : Host.Outcome State Fault Refusal :=
  conclude .curr do
    requireReader s
    let (v, s1) ← bufCurr s
    .ok (respond [v] s1)

/-- NEXT (41_buffer_strategy.md R138). -/
def execNext (s : State) : Host.Outcome State Fault Refusal :=
  conclude .next do
    requireReader s
    require (decide (s.params.strategy = .direct → s.rc.idx + 1 < s.params.indexCount)) .indexRange
    let (v, s1) ← bufNext s
    .ok (respond [v] s1)

/-- ADVW (41_buffer_strategy.md R140). -/
def execAdvw (s : State) : Host.Outcome State Fault Refusal :=
  conclude .advw do
    requireReader s
    require (decide (s.ports.p < s.params.indexCount)) .indexRange
    let s1 ← bufAdvance s.ports.p s
    .ok (respond [] s1)

end Sys2Proof.Machine
end

