-- ==== Sys2Proof/Machine/Extractor.lean ====
section
/-! DEFINITION. The meanings of the sequential extractor's commands SKIP and EXT1 to EXT4 (42_cursor_extractor.md). -/

namespace Sys2Proof.Machine

open Sys2Proof

/-- SKIP (42_cursor_extractor.md R153). -/
def execSkip (s : State) : Host.Outcome State Fault Refusal :=
  conclude .skip do
    requireReader s
    let s1 ← cursorAdvance s.ports.p s
    .ok (respond [] s1)

/-- EXT1 (42_cursor_extractor.md R154). -/
def execExt1 (f0 : Field) (s : State) : Host.Outcome State Fault Refusal :=
  conclude (.ext1 f0) do
    requireReader s
    let (v0, s1) ← extractField f0 s
    .ok (respond [v0] s1)

/-- EXT2 (42_cursor_extractor.md R155). -/
def execExt2 (f0 f1 : Field) (s : State) : Host.Outcome State Fault Refusal :=
  conclude (.ext2 f0 f1) do
    requireReader s
    let (vs, s1) ← extractFields [f0, f1] s
    .ok (respond vs s1)

/-- EXT3 (42_cursor_extractor.md R156). -/
def execExt3 (f0 f1 f2 : Field) (s : State) : Host.Outcome State Fault Refusal :=
  conclude (.ext3 f0 f1 f2) do
    requireReader s
    let (vs, s1) ← extractFields [f0, f1, f2] s
    .ok (respond vs s1)

/-- EXT4 (42_cursor_extractor.md R157). -/
def execExt4 (f0 f1 f2 f3 : Field) (s : State) : Host.Outcome State Fault Refusal :=
  conclude (.ext4 f0 f1 f2 f3) do
    requireReader s
    let (vs, s1) ← extractFields [f0, f1, f2, f3] s
    .ok (respond vs s1)

end Sys2Proof.Machine
end

