-- ==== Sys2Proof/Machine/Primitive.lean ====
section
/-! DEFINITION. The meanings of the stateless primitives SHW, XBR, XBRM, SBR and SXT (40_primitives.md). -/

namespace Sys2Proof.Machine

open Sys2Proof

/-- SHW (40_primitives.md R103). -/
def execShw (bits : Nat) (s : State) : Host.Outcome State Fault Refusal :=
  conclude (.shw bits) do
    require (decide (bits < s.params.W)) .shiftCount
    .ok (respond [shiftWindow s.params.W s.ports.a s.ports.b bits] s)

/-- XBR (40_primitives.md R107). -/
def execXbr (bits off : Nat) (s : State) : Host.Outcome State Fault Refusal :=
  conclude (.xbr bits off) do
    let v ← extractBitRange s.params.W s.ports.a s.ports.b off bits
    .ok (respond [v] s)

/-- XBRM (40_primitives.md R108), under either `WORD1_POLICY`. -/
def execXbrm (bits off : Nat) (s : State) : Host.Outcome State Fault Refusal :=
  conclude (.xbrm bits off) do
    require (decide (s.ports.p < s.params.indexCount)) .indexRange
    match s.params.word1Policy with
    | .unconditional =>
      let (w0, s1) ← memRead s.ports.p s
      let (w1, s2) ← memRead (s.ports.p + 1) s1
      let v ← extractBitRange s.params.W w0 w1 off bits
      .ok (respond [v] s2)
    | .conditional =>
      if bits = 0 then .ok (respond [0] s)
      else
        let (w0, s1) ← memRead s.ports.p s
        let (w1, s2) ← if off + bits > s.params.W then memRead (s.ports.p + 1) s1 else .ok (0, s1)
        let v ← extractBitRange s.params.W w0 w1 off bits
        .ok (respond [v] s2)

/-- SBR (40_primitives.md R112). -/
def execSbr (bits off : Nat) (s : State) : Host.Outcome State Fault Refusal :=
  conclude (.sbr bits off) do
    require (decide (bits > 0 → s.ports.p < s.params.indexCount)) .indexRange
    let s1 ← setBitRange s.ports.p s.ports.a off bits s
    .ok (respond [] s1)

/-- SXT (40_primitives.md R117). -/
def execSxt (field : Field) (s : State) : Host.Outcome State Fault Refusal :=
  conclude (.sxt field) do
    require (decide (field.bits ≤ s.params.W)) .fieldWidth
    require (decide (s.ports.a < 2 ^ field.bits)) .untrimmedValue
    .ok (respond [fixup s.params.W s.ports.a field.bits field.sign] s)

end Sys2Proof.Machine
end

