-- ==== Sys2Proof/Machine/Writer.lean ====
section
/-! DEFINITION. The meanings of the sequential writer's commands BINDW, WR1 and WSKIP (43_writer.md). -/

namespace Sys2Proof.Machine

open Sys2Proof

/-- BINDW (43_writer.md R171). -/
def execBindw (off : Nat) (s : State) : Host.Outcome State Fault Refusal :=
  conclude (.bindw off) do
    require (decide (s.ports.p < s.params.indexCount)) .indexRange
    require (decide (off < s.params.W)) .bitOffset
    .ok (respond [] { s with wc := { bound := true, idx := s.ports.p, ofs := off } })

/-- WR1 (43_writer.md R173): the memory accesses precede the register update. -/
def execWr1 (bits : Nat) (s : State) : Host.Outcome State Fault Refusal :=
  conclude (.wr1 bits) do
    requireWriter s
    let s1 ← setBitRange s.wc.idx s.ports.a s.wc.ofs bits s
    let s2 ← wcursorAdvance bits s1
    .ok (respond [] s2)

/-- WSKIP (43_writer.md R174). -/
def execWskip (s : State) : Host.Outcome State Fault Refusal :=
  conclude .wskip do
    requireWriter s
    let s1 ← wcursorAdvance s.ports.p s
    .ok (respond [] s1)

end Sys2Proof.Machine
end

