-- ==== Sys2Proof/Machine/Dispatch.lean ====
section
/-! DEFINITION. One arm per command of the block (30_encoding.md R76), each one call of its meaning. -/

namespace Sys2Proof.Machine

open Sys2Proof

/-- The meaning of a command in a state whose operand ports hold its operands. -/
def exec (i : Instr) (s : State) : Host.Outcome State Fault Refusal :=
  match i with
  | .shw bits => Sys2Proof.Machine.execShw bits s
  | .xbr bits off => Sys2Proof.Machine.execXbr bits off s
  | .xbrm bits off => Sys2Proof.Machine.execXbrm bits off s
  | .sbr bits off => Sys2Proof.Machine.execSbr bits off s
  | .sxt field => Sys2Proof.Machine.execSxt field s
  | .bindr off => Sys2Proof.Machine.execBindr off s
  | .curr => Sys2Proof.Machine.execCurr s
  | .next => Sys2Proof.Machine.execNext s
  | .advw => Sys2Proof.Machine.execAdvw s
  | .skip => Sys2Proof.Machine.execSkip s
  | .ext1 f0 => Sys2Proof.Machine.execExt1 f0 s
  | .ext2 f0 f1 => Sys2Proof.Machine.execExt2 f0 f1 s
  | .ext3 f0 f1 f2 => Sys2Proof.Machine.execExt3 f0 f1 f2 s
  | .ext4 f0 f1 f2 f3 => Sys2Proof.Machine.execExt4 f0 f1 f2 f3 s
  | .bindw off => Sys2Proof.Machine.execBindw off s
  | .wr1 bits => Sys2Proof.Machine.execWr1 bits s
  | .wskip => Sys2Proof.Machine.execWskip s

end Sys2Proof.Machine
end

