-- ==== Sys2Proof/Machine/Step.lean ====
section
/-! DEFINITION. One step of the machine: the next event of the host is taken, and a command among them is performed as one
indivisible step (00_scope.md R2, 20_memory.md R55). -/

namespace Sys2Proof.Machine

open Sys2Proof

/-- One step. A command is decoded and performed with its operands on the ports (30_encoding.md R70); an invalid command
word is refused (R79); a store and a reset of the host are its own events (20_memory.md R56, 70_reset_and_hazards.md R231);
with nothing presented the block is idle (log 9). -/
def step (s : State) : Host.Outcome State Fault Refusal :=
  match s.inputs with
  | [] => .next s
  | .command c :: rest =>
    match decode c.cmd with
    | .ok i => exec i (acceptCommand c rest s)
    | .error why => .refused (.invalidCommand c.cmd why)
  | .store i v :: rest => hostStore i v { s with inputs := rest }
  | .reset :: rest => .next (resetBlock { s with inputs := rest })

/-- `s` with the command word `w` presented as the next command of the host (log 9): it replaces the word of the command
that is next, whose operands stay, or, where no command is next, it is put in front with operands 0 and no other agent. -/
def State.withFetchWord (s : State) (nbits w : Nat) : State :=
  let word := BitVec.ofNat 64 (w % 2 ^ nbits)
  match s.inputs with
  | .command c :: rest => { s with inputs := .command { c with cmd := word } :: rest }
  | rest =>
    { s with inputs := .command { cmd := word, a := 0, b := 0, p := 0, rivals := [] } :: rest }

end Sys2Proof.Machine
end

