-- ==== Sys2Proof/Safety.lean ====
section
/-! DEFINITION. What counts as a safe command and a legal state, in the terms the statements use: the contract of every
command, written from the list V1 to V8 of 60_exceptions.md R201 and not from the meanings; the invariants of the state;
the logical bit stream (20_memory.md R42); runs of several single-field commands. -/

namespace Sys2Proof.Machine

open Sys2Proof

/-! ### The contract of a command (60_exceptions.md R201) -/

/-- The block may load word `i`: it is in the index space, provided, and stored to by no other agent. -/
def readable (s : State) (i : Nat) : Bool :=
  decide (i < s.params.indexCount) && (wordAt s i).isSome && !rivalStores s i

/-- The block may load and store word `i`: as `readable`, and no other agent accesses it at all. -/
def writable (s : State) (i : Nat) : Bool :=
  decide (i < s.params.indexCount) && (wordAt s i).isSome && !rivalTouches s i

/-- V2: a width below `W`, or `W` at offset 0 (40_primitives.md R110). -/
def fieldFits (w off n : Nat) : Bool := decide (n < w) || (decide (n = w) && decide (off = 0))

/-- The words XBRM loads may be loaded (40_primitives.md R108). -/
def xbrmWordsReady (s : State) (off n : Nat) : Bool :=
  match s.params.word1Policy with
  | .unconditional => readable s s.ports.p && readable s (s.ports.p + 1)
  | .conditional =>
    decide (n = 0) ||
      (readable s s.ports.p && (decide (off + n ≤ s.params.W) || readable s (s.ports.p + 1)))

/-- A field write of width `n` at word `p`, offset `off` is inside the contract (40_primitives.md R111, R114, R115). -/
def writeInContract (s : State) (p : Nat) (val : Word) (off n : Nat) : Bool :=
  decide (n = 0) ||
    (decide (off < s.params.W) && fieldFits s.params.W off n && decide (val < 2 ^ n) &&
      writable s p && (decide (off + n ≤ s.params.W) || writable s (p + 1)))

/-- The words a bind of the reader at `p` loads may be loaded (41_buffer_strategy.md R132, R136). -/
def bindReady (s : State) (p : Nat) : Bool :=
  match s.params.strategy with
  | .direct => true
  | .cached => readable s p && readable s (p + 1)

/-- The word `curr()` or `next()` loads, if it loads one, may be loaded (41_buffer_strategy.md R133, R134, R136). -/
def viewReady (s : State) (i : Nat) : Bool :=
  match s.params.strategy with
  | .direct => readable s i
  | .cached => true

/-- An advance of the reader by `k` words is inside the contract (41_buffer_strategy.md R135, R136). -/
def advanceInContract (s : State) (k : Nat) : Bool :=
  decide (s.rc.idx + k < s.params.indexCount) &&
    match s.params.strategy with
    | .direct => true
    | .cached =>
      if k = 0 then true
      else if k = 1 then readable s (s.rc.idx + 2)
      else readable s (s.rc.idx + k) && readable s (s.rc.idx + k + 1)

/-- Extracting the fields one after the other from stream bit `pos` on is inside the contract: each width fits its offset,
and each word the strategy loads may be loaded (42_cursor_extractor.md R152, R160; 20_memory.md R51). -/
def extractInContract (s : State) (pos : Nat) : List Field → Bool
  | [] => true
  | f :: rest =>
    fieldFits s.params.W (pos % s.params.W) f.bits &&
      (match s.params.strategy with
        | .direct => readable s (pos / s.params.W) && readable s (pos / s.params.W + 1)
        | .cached =>
          decide ((pos + f.bits) / s.params.W < s.params.indexCount) &&
            (decide ((pos + f.bits) / s.params.W = pos / s.params.W) ||
              readable s ((pos + f.bits) / s.params.W + 1))) &&
      extractInContract s (pos + f.bits) rest

/-- The reader's bit address `IDX * W + OFS` (10_state.md R23). -/
def readerPos (s : State) : Nat := s.rc.idx * s.params.W + s.rc.ofs

/-- The writer's bit address. -/
def writerPos (s : State) : Nat := s.wc.idx * s.params.W + s.wc.ofs

/-- The writer's bit address may be moved on by `n` bits (43_writer.md R172). -/
def writerAdvanceInContract (s : State) (n : Nat) : Bool :=
  decide (s.wc.idx + (s.wc.ofs + n) / s.params.W < s.params.indexCount)

/-- The command commits none of the violations V1 to V8 (60_exceptions.md R201). -/
def inContract (i : Instr) (s : State) : Bool :=
  match i with
  | .shw n => decide (n < s.params.W)
  | .xbr n off => decide (n = 0) || (decide (off < s.params.W) && fieldFits s.params.W off n)
  | .xbrm n off =>
    decide (s.ports.p < s.params.indexCount) &&
      (decide (n = 0) || (decide (off < s.params.W) && fieldFits s.params.W off n)) &&
      xbrmWordsReady s off n
  | .sbr n off => writeInContract s s.ports.p s.ports.a off n
  | .sxt f => decide (f.bits ≤ s.params.W) && decide (s.ports.a < 2 ^ f.bits)
  | .bindr off =>
    decide (s.ports.p < s.params.indexCount) && decide (off < s.params.W) && bindReady s s.ports.p
  | .curr => s.rc.bound && viewReady s s.rc.idx
  | .next => s.rc.bound && viewReady s (s.rc.idx + 1)
  | .advw =>
    s.rc.bound && decide (s.ports.p < s.params.indexCount) && advanceInContract s s.ports.p
  | .skip => s.rc.bound && advanceInContract s ((s.rc.ofs + s.ports.p) / s.params.W)
  | .ext1 f0 => s.rc.bound && extractInContract s (readerPos s) [f0]
  | .ext2 f0 f1 => s.rc.bound && extractInContract s (readerPos s) [f0, f1]
  | .ext3 f0 f1 f2 => s.rc.bound && extractInContract s (readerPos s) [f0, f1, f2]
  | .ext4 f0 f1 f2 f3 => s.rc.bound && extractInContract s (readerPos s) [f0, f1, f2, f3]
  | .bindw off => decide (s.ports.p < s.params.indexCount) && decide (off < s.params.W)
  | .wr1 n =>
    s.wc.bound && writeInContract s s.wc.idx s.ports.a s.wc.ofs n && writerAdvanceInContract s n
  | .wskip => s.wc.bound && writerAdvanceInContract s s.ports.p

/-- The command a fault names (60_exceptions.md R203). -/
def Fault.command : Fault → Option Instr
  | .shiftCount c => some c
  | .fieldWidth c => some c
  | .bitOffset c => some c
  | .untrimmedValue c => some c
  | .unprovidedWord c => some c
  | .indexRange c => some c
  | .unboundCursor c => some c
  | .hostIndexRange _ => none

/-- The step stops: it answers no next state. -/
def Stops (o : Host.Outcome State Fault Refusal) : Prop := ∀ t, o ≠ .next t

/-! ### Invariants of the state -/

/-- Every register and port holds a value its width can hold; in particular both BitOffsets are in `[0, W)` (10_state.md
R21, R22, R28; 30_encoding.md R70, R71). -/
def registersInRange (s : State) : Bool :=
  s.params.wf &&
    decide (s.rc.idx < s.params.indexCount) && decide (s.rc.ofs < s.params.W) &&
    decide (s.rc.c0 < 2 ^ s.params.W) && decide (s.rc.c1 < 2 ^ s.params.W) &&
    decide (s.wc.idx < s.params.indexCount) && decide (s.wc.ofs < s.params.W) &&
    decide (s.ports.a < 2 ^ s.params.W) && decide (s.ports.b < 2 ^ s.params.W) &&
    decide (s.ports.p < 2 ^ s.params.PW) &&
    decide (s.results.r0 < 2 ^ s.params.W) && decide (s.results.r1 < 2 ^ s.params.W) &&
    decide (s.results.r2 < 2 ^ s.params.W) && decide (s.results.r3 < 2 ^ s.params.W)

/-- The memory is in its canonical form and lists only bytes of words with an index below `2^AW`. -/
def memoryLegal (s : State) : Bool :=
  decide s.mem.wf && s.mem.all (fun c => decide (c.1 < byteAddress s.params s.params.indexCount))

/-- The cached words are the memory's words at `IDX` and `IDX + 1` (10_state.md R24); the Direct strategy keeps none. -/
def cacheCoherent (s : State) : Bool :=
  match s.params.strategy with
  | .direct => true
  | .cached => wordAt s s.rc.idx == some s.rc.c0 && wordAt s (s.rc.idx + 1) == some s.rc.c1

/-! ### The logical bit stream (20_memory.md R42) -/

/-- Stream bit `k`: bit `k mod W` of `Mem[k div W]`, if that word is provided. -/
def streamBit (s : State) (k : Nat) : Option Bool :=
  (wordAt s (k / s.params.W)).map (fun v => v.testBit (k % s.params.W))

/-- Word `i` as the reader sees it: of the memory, but its two cached words under CACHED (10_state.md R33). -/
def readerWord (s : State) (i : Nat) : Option Word :=
  match s.params.strategy with
  | .direct => wordAt s i
  | .cached =>
    if i = s.rc.idx then some s.rc.c0
    else if i = s.rc.idx + 1 then some s.rc.c1
    else wordAt s i

/-- The `n`-bit field at stream bit `pos` as the reader sees it: `({w1 : w0} >> o) mod 2^n` (20_memory.md R42,
40_primitives.md R109). -/
def readerField (s : State) (pos n : Nat) : Word :=
  (doubleWord s.params.W ((readerWord s (pos / s.params.W)).getD 0)
    ((readerWord s (pos / s.params.W + 1)).getD 0) >>> (pos % s.params.W)) % 2 ^ n

/-- What an extract returns for a field at stream bit `pos`: the field, its sign extended if the tag says so
(42_cursor_extractor.md R154). -/
def readerResult (s : State) (pos : Nat) (f : Field) : Word :=
  fixup s.params.W (readerField s pos f.bits) f.bits f.sign

/-- A word read as an `n`-bit two's complement number (00_scope.md R12). -/
def signedValue (n : Nat) (v : Word) : Int :=
  if v < 2 ^ (n - 1) then (v : Int) else (v : Int) - 2 ^ n

/-! ### Memory requests and runs of single-field commands -/

/-- The index of a request. -/
def MemReq.index : MemReq → Nat
  | .load i => i
  | .store i _ => i

/-- The request is a load. -/
def MemReq.isLoad : MemReq → Bool
  | .load _ => true
  | .store _ _ => false

/-- The word index at which a command stores first, if it stores (40_primitives.md R112, 43_writer.md R173). -/
def storeIndex (i : Instr) (s : State) : Option Nat :=
  match i with
  | .sbr n _ => if n = 0 then none else some s.ports.p
  | .wr1 n => if n = 0 then none else some s.wc.idx
  | _ => none

/-- How many words from its `storeIndex` on a command stores: two where the field straddles, else one (20_memory.md R49,
R52). -/
def storedWords (i : Instr) (s : State) : Nat :=
  match i with
  | .sbr n off => if n = 0 then 0 else if off + n ≤ s.params.W then 1 else 2
  | .wr1 n => if n = 0 then 0 else if s.wc.ofs + n ≤ s.params.W then 1 else 2
  | _ => 0

/-- How many loads an advance of the reader by `k` words issues (41_buffer_strategy.md R136). -/
def advanceLoadCount (s : State) (k : Nat) : Nat :=
  match s.params.strategy with
  | .direct => 0
  | .cached => if k = 0 then 0 else if k = 1 then 1 else 2

/-- How many loads `k` extracts of `n` bits in all issue: two each under DIRECT, one per word boundary crossed under CACHED
(70_reset_and_hazards.md R245). -/
def extractLoadCount (s : State) (k n : Nat) : Nat :=
  match s.params.strategy with
  | .direct => 2 * k
  | .cached => (readerPos s + n) / s.params.W - readerPos s / s.params.W

/-- How many loads a command issues: the table of 70_reset_and_hazards.md R245. -/
def loadCount (i : Instr) (s : State) : Nat :=
  match i with
  | .shw _ => 0
  | .xbr _ _ => 0
  | .xbrm n off =>
    match s.params.word1Policy with
    | .unconditional => 2
    | .conditional => if n = 0 then 0 else if off + n ≤ s.params.W then 1 else 2
  | .sbr n off => storedWords (.sbr n off) s
  | .sxt _ => 0
  | .bindr _ =>
    match s.params.strategy with
    | .direct => 0
    | .cached => 2
  | .curr =>
    match s.params.strategy with
    | .direct => 1
    | .cached => 0
  | .next =>
    match s.params.strategy with
    | .direct => 1
    | .cached => 0
  | .advw => advanceLoadCount s s.ports.p
  | .skip => advanceLoadCount s ((s.rc.ofs + s.ports.p) / s.params.W)
  | .ext1 f0 => extractLoadCount s 1 f0.bits
  | .ext2 f0 f1 => extractLoadCount s 2 (f0.bits + f1.bits)
  | .ext3 f0 f1 f2 => extractLoadCount s 3 (f0.bits + f1.bits + f2.bits)
  | .ext4 f0 f1 f2 f3 => extractLoadCount s 4 (f0.bits + f1.bits + f2.bits + f3.bits)
  | .bindw _ => 0
  | .wr1 n => storedWords (.wr1 n) s
  | .wskip => 0

/-- The memory after a list of requests (20_memory.md R54). -/
def applyRequests (p : Params) (m : Memory) : List MemReq → Memory
  | [] => m
  | .load _ :: rest => applyRequests p m rest
  | .store i v :: rest => applyRequests p (m.storeWord p i v) rest

/-- `s` with `v` on operand port `A`. -/
def withA (v : Word) (s : State) : State := { s with ports := { s.ports with a := v } }

/-- `s` with `n` on operand port `P`. -/
def withP (n : Nat) (s : State) : State := { s with ports := { s.ports with p := n } }

/-- `EXT1 d0; …; EXT1 d(k-1)`: the values on `r0` one after the other and the state after the last. -/
def runExt1 : List Field → State → Option (List Word × State)
  | [], s => some ([], s)
  | f :: fs, s =>
    match exec (.ext1 f) s with
    | .next t =>
      match runExt1 fs t with
      | some (vs, u) => some (t.results.r0 :: vs, u)
      | none => none
    | .fault _ => none
    | .refused _ => none

/-- `WR1 n0 A=v0; …`: one write for each pair of a field and its value. -/
def runWr1 : List (Field × Word) → State → Option State
  | [], s => some s
  | (f, v) :: rest, s =>
    match exec (.wr1 f.bits) (withA v s) with
    | .next t => runWr1 rest t
    | .fault _ => none
    | .refused _ => none

/-- How many result ports, from `r0` on, a command drives (30_encoding.md R76). -/
def drivenCount : Instr → Nat
  | .sbr _ _ | .bindr _ | .advw | .skip | .bindw _ | .wr1 _ | .wskip => 0
  | .shw _ | .xbr _ _ | .xbrm _ _ | .sxt _ | .curr | .next | .ext1 _ => 1
  | .ext2 _ _ => 2
  | .ext3 _ _ _ => 3
  | .ext4 _ _ _ _ => 4

/-- The values on the result ports, in order. -/
def Results.list (r : Results) : List Word := [r.r0, r.r1, r.r2, r.r3]

/-- What a command returns: the values on the result ports it drives (30_encoding.md R73, R76). -/
def Results.driven (i : Instr) (r : Results) : List Word := r.list.take (drivenCount i)

/-- A sequence of extract commands: the values they return and the state after the last. -/
def runExtracts : List Instr → State → Option (List Word × State)
  | [], s => some ([], s)
  | i :: is, s =>
    match exec i s with
    | .next t =>
      match runExtracts is t with
      | some (vs, u) => some (t.results.driven i ++ vs, u)
      | none => none
    | .fault _ => none
    | .refused _ => none

/-- The total width of a list of fields. -/
def totalBits (fs : List Field) : Nat := (fs.map Field.bits).sum

/-! ### States that the block cannot tell apart -/

/-- Two instances that differ only in what the block cannot observe or must not read: `BYTE_ORDER` with the bytes of the
words (20_memory.md R44), `SHIFT_IMPL` (40_primitives.md R102), what stands on the result ports (30_encoding.md R73) and how
many commands have completed (60_exceptions.md R211). -/
def Indistinguishable (s t : State) : Prop :=
  t.params.width = s.params.width ∧ t.params.aw = s.params.aw ∧
    t.params.strategy = s.params.strategy ∧ t.params.word1Policy = s.params.word1Policy ∧
    t.rc = s.rc ∧ t.wc = s.wc ∧ t.ports = s.ports ∧ t.inputs = s.inputs ∧ t.rivals = s.rivals ∧
    t.trace = s.trace ∧ ∀ i, wordAt t i = wordAt s i

/-- A Direct and a Cached instance at the same place over the same memory, the Cached one coherent
(41_buffer_strategy.md R139). -/
def StrategyTwins (d c : State) : Prop :=
  d.params.strategy = .direct ∧ c.params = { d.params with strategy := .cached } ∧
    c.mem = d.mem ∧ c.rc.bound = d.rc.bound ∧ c.rc.idx = d.rc.idx ∧ c.rc.ofs = d.rc.ofs ∧
    c.ports = d.ports ∧ cacheCoherent c = true

/-! ### What a command leaves alone -/

/-- The commands that write the reader context (10_state.md R21). -/
def writesReader : Instr → Bool
  | .bindr _ | .advw | .skip | .ext1 _ | .ext2 _ _ | .ext3 _ _ _ | .ext4 _ _ _ _ => true
  | .shw _ | .xbr _ _ | .xbrm _ _ | .sbr _ _ | .sxt _ | .curr | .next | .bindw _ | .wr1 _ | .wskip => false

/-- The commands that write or read the reader context (10_state.md R21). -/
def usesReader (i : Instr) : Bool := writesReader i || i == .curr || i == .next

/-- The commands that write or read the writer context (10_state.md R21). -/
def usesWriter : Instr → Bool
  | .bindw _ | .wr1 _ | .wskip => true
  | .shw _ | .xbr _ _ | .xbrm _ _ | .sbr _ _ | .sxt _ | .bindr _ | .curr | .next | .advw | .skip | .ext1 _
  | .ext2 _ _ | .ext3 _ _ _ | .ext4 _ _ _ _ => false

/-- The commands that store to memory (20_memory.md R41). -/
def storesToMemory : Instr → Bool
  | .sbr _ _ | .wr1 _ => true
  | .shw _ | .xbr _ _ | .xbrm _ _ | .sxt _ | .bindr _ | .curr | .next | .advw | .skip | .ext1 _
  | .ext2 _ _ | .ext3 _ _ _ | .ext4 _ _ _ _ | .bindw _ | .wskip => false

/-- Everything a command never writes: the parameters, the operand ports, the queue and the other agents; and its one
completion event (30_encoding.md R71). -/
def KeepsHostSide (s t : State) : Prop :=
  t.params = s.params ∧ t.ports = s.ports ∧ t.inputs = s.inputs ∧ t.rivals = s.rivals ∧
    t.completions = s.completions + 1

/-- A command that touches no register and no memory (10_state.md R21, 20_memory.md R41): what it leaves beside its results. -/
def KeepsAllButResults (s t : State) : Prop :=
  t.rc = s.rc ∧ t.wc = s.wc ∧ t.mem = s.mem ∧ t.trace = s.trace ∧ KeepsHostSide s t

/-- The reader has moved on by `k` words as `buf_advance(k)` says (41_buffer_strategy.md R135): the index, the cached words
and the loads. -/
def AdvancedBy (k : Nat) (s t : State) : Prop :=
  t.rc.bound = s.rc.bound ∧ t.rc.idx = s.rc.idx + k ∧
    (s.params.strategy = .direct →
      t.rc.c0 = s.rc.c0 ∧ t.rc.c1 = s.rc.c1 ∧ t.trace = s.trace) ∧
    (s.params.strategy = .cached → k = 0 →
      t.rc.c0 = s.rc.c0 ∧ t.rc.c1 = s.rc.c1 ∧ t.trace = s.trace) ∧
    (s.params.strategy = .cached → k = 1 →
      t.rc.c0 = s.rc.c1 ∧ wordAt s (s.rc.idx + 2) = some t.rc.c1 ∧
        t.trace = s.trace ++ [.load (s.rc.idx + 2)]) ∧
    (s.params.strategy = .cached → 1 < k →
      wordAt s (s.rc.idx + k) = some t.rc.c0 ∧ wordAt s (s.rc.idx + k + 1) = some t.rc.c1 ∧
        t.trace = s.trace ++ [.load (s.rc.idx + k), .load (s.rc.idx + k + 1)])

/-- The stream after a field write of the low `n` bits of `val` at stream bit `pos`: those bits are the value's, every other
bit is as before (40_primitives.md R111, 20_memory.md R42, R49). -/
def FieldWritten (s t : State) (pos n : Nat) (val : Word) : Prop :=
  ∀ k, streamBit t k =
    if pos ≤ k ∧ k < pos + n then some (val.testBit (k - pos)) else streamBit s k

/-- The requests of a field write at word `p`, offset `off`: none for width 0; load and store of the word; and of the next
word where the field straddles (40_primitives.md R112, 20_memory.md R54). -/
def WriteRequests (s t : State) (p off n : Nat) : Prop :=
  (n = 0 → t.trace = s.trace) ∧
    (0 < n → off + n ≤ s.params.W → ∃ v, t.trace = s.trace ++ [.load p, .store p v]) ∧
    (0 < n → s.params.W < off + n → ∃ v0 v1, t.trace =
      s.trace ++ [.load p, .store p v0, .load (p + 1), .store (p + 1) v1])

/-- Two states in which the reader, the memory and the requests so far are the same. -/
def SameReader (t u : State) : Prop :=
  t.params = u.params ∧ t.rc = u.rc ∧ t.wc = u.wc ∧ t.mem = u.mem ∧ t.trace = u.trace

end Sys2Proof.Machine
end

