-- ==== Sys2Proof/Certificates/Slice0/Obligations.lean ====
section
/-! DEFINITION. The statements for the provers. Each docstring names the rules of spec/ the statement formalises. Premises
of the form `s.rc.ofs < s.params.W` are the invariant of 10_state.md R22, which StepKeepsRegistersInRange states. No statement
says what stands, after a command, on a result port that the command does not drive (a free value, log 8), but that it fits
the port. -/

open Sys2Proof Sys2Proof.Machine

/-! ### The command word -/

/-- The five words that 30_encoding.md R78 writes out, and one more of every family (R77) from
95_test_vectors.md, decode to the commands they stand for (R74, R76). -/
def Obligations.CommandWordsOfTheSpecDecode : Prop :=
  decode 0x00000D0000000602#64 = .ok (.xbr 6 13) ∧
    decode 0x0000000000008521#64 = .ok (.ext1 ⟨5, .signed⟩) ∧
    decode 0x000000000C840323#64 =
      .ok (.ext3 ⟨3, .unsigned⟩ ⟨4, .signed⟩ ⟨12, .unsigned⟩) ∧
    decode 0x0000000000000010#64 = .ok (.bindr 0) ∧
    decode 0x0000000000000B31#64 = .ok (.wr1 11) ∧
    decode 0x00000D0000000603#64 = .ok (.xbrm 6 13) ∧
    decode 0x0000000000000011#64 = .ok .curr ∧
    decode 0x0000008F0B808524#64 =
      .ok (.ext4 ⟨5, .signed⟩ ⟨0, .signed⟩ ⟨11, .unsigned⟩ ⟨15, .signed⟩) ∧
    decode 0x0000000000000032#64 = .ok .wskip

/-- 30_encoding.md R74, R76: decoding the command word of a well-formed command gives it back, every field at every value
the word can hold. -/
def Obligations.DecodeGivesBackEveryEncodedCommand : Prop :=
  ∀ i : Instr, i.wf = true → decode (encode i) = .ok i

/-- 30_encoding.md R74, R76, R79: a word that decodes is the command word of the well-formed command it decodes to, so no bit
of it is dropped. -/
def Obligations.EveryDecodedWordIsItsEncoding : Prop :=
  ∀ (c : BitVec 64) (i : Instr), decode c = .ok i → i.wf = true ∧ encode i = c

/-- 30_encoding.md R77: a word decodes to a command of a row of the opcode table exactly when `CMD & mask = match` for that
row. -/
def Obligations.DecodingIsTheMatchAndMaskOfTheTable : Prop :=
  ∀ (c : BitVec 64) (row : Instr),
    c &&& row.tableMask = BitVec.ofNat 64 row.opcode ↔
      ∃ i, decode c = .ok i ∧ i.opcode = row.opcode

/-- 30_encoding.md R79: a command word that no well-formed command has is refused as invalid, and the refusal names it. -/
def Obligations.InvalidCommandWordsAreRefused : Prop :=
  ∀ (s : State) (c : Command) (rest : List HostEvent), s.inputs = .command c :: rest →
    (∀ i : Instr, i.wf = true → encode i ≠ c.cmd) →
      ∃ why, step s = .refused (.invalidCommand c.cmd why)

/-! ### The step and the host's events -/

/-- 30_encoding.md R70: a step whose next event is a command that decodes runs that command, with its operands on ports as
wide as R70 says and all else as it was. The model's choices in it: a number too wide for its port leaves its low bits there
(log 2), the commands wait in a queue, which moves on (log 9), and the accesses of other agents come with the command
(log 11). -/
def Obligations.StepRunsTheDecodedCommand : Prop :=
  ∀ (s : State) (c : Command) (rest : List HostEvent) (i : Instr),
    s.inputs = .command c :: rest → decode c.cmd = .ok i →
      step s = exec i { s with
        ports := { a := c.a % 2 ^ s.params.W, b := c.b % 2 ^ s.params.W, p := c.p % 2 ^ s.params.PW }
        rivals := c.rivals
        inputs := rest }

/-- 20_memory.md R56: a store of the host between two commands sets one word and leaves every other word, the registers,
parameters, ports, other agents and requests alone, and makes no completion event (30_encoding.md R71). The model's choice
(log 10): the value is reduced mod `2^W`, and the store provides a word that was not provided. -/
def Obligations.HostStoreSetsOneWord : Prop :=
  ∀ (s : State) (j v : Nat) (rest : List HostEvent), s.inputs = .store j v :: rest →
    j < s.params.indexCount →
      ∃ t, step s = .next t ∧ wordAt t j = some (v % 2 ^ s.params.W) ∧
        (∀ k, k ≠ j → wordAt t k = wordAt s k) ∧
        t.rc = s.rc ∧ t.wc = s.wc ∧ t.params = s.params ∧ t.ports = s.ports ∧
        t.results = s.results ∧ t.trace = s.trace ∧ t.completions = s.completions ∧
        t.rivals = s.rivals ∧ t.inputs = rest

/-- 70_reset_and_hazards.md R230, R231: a reset leaves memory untouched and both contexts unbound; the parameters are not
state. (What the registers hold after it is the model's choice, log 3 and log 4, and is not stated.) -/
def Obligations.ResetUnbindsAndLeavesMemory : Prop :=
  ∀ (s : State) (rest : List HostEvent), s.inputs = .reset :: rest →
    ∃ t, step s = .next t ∧ t.mem = s.mem ∧ t.rc.bound = false ∧ t.wc.bound = false ∧
      t.params = s.params ∧ t.inputs = rest

/-! ### Stateless primitives -/

/-- 40_primitives.md R103, R101: SHW returns the `W`-bit window that begins `N0` positions into `{B : A}`, bit by bit as R101
says, and touches nothing else; with a count of `W` or more it faults. -/
def Obligations.ShwReturnsTheShiftWindow : Prop :=
  ∀ (n : Nat) (s : State),
    (n < s.params.W →
      ∃ t, exec (.shw n) s = .next t ∧
        t.results.r0 = (s.ports.b * 2 ^ s.params.W + s.ports.a) / 2 ^ n % 2 ^ s.params.W ∧
        (s.ports.a < 2 ^ s.params.W →
          ∀ j, j < s.params.W → t.results.r0.testBit j =
            if j + n < s.params.W then s.ports.a.testBit (j + n)
            else s.ports.b.testBit (j + n - s.params.W)) ∧
        KeepsAllButResults s t) ∧
    (s.params.W ≤ n → ∃ f, exec (.shw n) s = .fault f)

/-- 40_primitives.md R101, R102: the portable emulation "using exactly the shift/shift/or formula" gives the window for every
valid count. -/
def Obligations.EmulatedShiftEqualsTheWindow : Prop :=
  ∀ (w low high n : Nat), low < 2 ^ w → n < w →
    shiftWindowEmulated w low high n = shiftWindow w low high n

/-- 40_primitives.md R105 to R107, R109, R110: XBR returns `({B : A} >> OFF) mod 2^N0` inside the contract, 0 for width 0
whatever the offset, does not look at `B` where the field does not straddle, touches nothing else, and faults outside the
contract. -/
def Obligations.XbrReturnsTheField : Prop :=
  ∀ (n off : Nat) (s : State),
    (n = 0 → ∃ t, exec (.xbr n off) s = .next t ∧ t.results.r0 = 0 ∧ KeepsAllButResults s t) ∧
    (off < s.params.W → (n < s.params.W ∨ (n = s.params.W ∧ off = 0)) →
      ∃ t, exec (.xbr n off) s = .next t ∧
        t.results.r0 = (s.ports.b * 2 ^ s.params.W + s.ports.a) / 2 ^ off % 2 ^ n ∧
        (off + n ≤ s.params.W → t.results.r0 = s.ports.a / 2 ^ off % 2 ^ n) ∧
        t.results.r0 < 2 ^ n ∧ KeepsAllButResults s t) ∧
    (0 < n → (s.params.W ≤ off ∨ s.params.W < n ∨ (n = s.params.W ∧ 0 < off)) →
      ∃ f, exec (.xbr n off) s = .fault f)

/-- 40_primitives.md R108: XBRM inside its contract returns the field of the two words at `P`, with the loads its
`WORD1_POLICY` issues, and changes no register and no memory; it faults with `P` out of range and stops with an undefined
extract. -/
def Obligations.XbrmReturnsTheFieldOfMemory : Prop :=
  ∀ (n off : Nat) (s : State),
    (inContract (.xbrm n off) s = true →
      ∃ t, exec (.xbrm n off) s = .next t ∧
        (n = 0 → t.results.r0 = 0) ∧
        (0 < n → ∃ w0, wordAt s s.ports.p = some w0 ∧
          (off + n ≤ s.params.W → t.results.r0 = w0 / 2 ^ off % 2 ^ n) ∧
          (s.params.W < off + n → ∃ w1, wordAt s (s.ports.p + 1) = some w1 ∧
            t.results.r0 = (w1 * 2 ^ s.params.W + w0) / 2 ^ off % 2 ^ n)) ∧
        (s.params.word1Policy = .unconditional →
          t.trace = s.trace ++ [.load s.ports.p, .load (s.ports.p + 1)]) ∧
        (s.params.word1Policy = .conditional → n = 0 → t.trace = s.trace) ∧
        (s.params.word1Policy = .conditional → 0 < n → off + n ≤ s.params.W →
          t.trace = s.trace ++ [.load s.ports.p]) ∧
        (s.params.word1Policy = .conditional → 0 < n → s.params.W < off + n →
          t.trace = s.trace ++ [.load s.ports.p, .load (s.ports.p + 1)]) ∧
        t.rc = s.rc ∧ t.wc = s.wc ∧ t.mem = s.mem ∧ KeepsHostSide s t) ∧
    (s.params.indexCount ≤ s.ports.p → ∃ f, exec (.xbrm n off) s = .fault f) ∧
    (0 < n → (s.params.W ≤ off ∨ s.params.W < n ∨ (n = s.params.W ∧ 0 < off)) →
      Stops (exec (.xbrm n off) s)) ∧
    (inContract (.xbrm n off) s = false → Stops (exec (.xbrm n off) s))

/-- 40_primitives.md R111, R112, R115; 20_memory.md R49: SBR inside its contract sets exactly the `N0` stream bits at word
`P`, offset `OFF` to the bits of `A`, with the requests of R112, and changes no register; with a width above 0 it faults for
an index, an offset, a width or a value out of range. -/
def Obligations.SbrSetsExactlyTheField : Prop :=
  ∀ (n off : Nat) (s : State),
    (inContract (.sbr n off) s = true →
      ∃ t, exec (.sbr n off) s = .next t ∧
        FieldWritten s t (s.ports.p * s.params.W + off) n s.ports.a ∧
        WriteRequests s t s.ports.p off n ∧
        t.rc = s.rc ∧ t.wc = s.wc ∧ KeepsHostSide s t) ∧
    (0 < n → (s.params.indexCount ≤ s.ports.p ∨ s.params.W ≤ off ∨ s.params.W < n ∨
        (n = s.params.W ∧ 0 < off) ∨ 2 ^ n ≤ s.ports.a) →
      ∃ f, exec (.sbr n off) s = .fault f) ∧
    (inContract (.sbr n off) s = false → Stops (exec (.sbr n off) s))

/-- 40_primitives.md R112: "`N0 = 0` touches no memory for any `OFF`, any `A` and any `P`"; and a zero-width WR1 leaves
memory and the cursor where they were (43_writer.md R173). -/
def Obligations.ZeroWidthWritesTouchNothing : Prop :=
  (∀ (off : Nat) (s : State),
    ∃ t, exec (.sbr 0 off) s = .next t ∧ KeepsAllButResults s t) ∧
  (∀ s : State, s.wc.bound = true → s.wc.idx < s.params.indexCount → s.wc.ofs < s.params.W →
    ∃ t, exec (.wr1 0) s = .next t ∧ KeepsAllButResults s t)

/-- 40_primitives.md R116 to R118, 00_scope.md R12: SXT inside its contract keeps the low bits, returns `A` itself for an
unsigned tag and for width 0, and for a signed tag copies the sign bit upward, so that the result read as a `W`-bit two's
complement number is `A` read as an `N0`-bit one; outside its contract it faults. -/
def Obligations.SxtExtendsTheSign : Prop :=
  ∀ (f : Field) (s : State),
    (f.bits ≤ s.params.W → s.ports.a < 2 ^ f.bits →
      ∃ t, exec (.sxt f) s = .next t ∧
        (f.sign = .unsigned → t.results.r0 = s.ports.a) ∧
        (f.bits = 0 → t.results.r0 = s.ports.a) ∧
        (∀ j, j < f.bits → t.results.r0.testBit j = s.ports.a.testBit j) ∧
        (f.sign = .signed → 0 < f.bits →
          (∀ j, f.bits ≤ j → j < s.params.W →
            t.results.r0.testBit j = s.ports.a.testBit (f.bits - 1)) ∧
          signedValue s.params.W t.results.r0 = signedValue f.bits s.ports.a) ∧
        t.results.r0 < 2 ^ s.params.W ∧ KeepsAllButResults s t) ∧
    ((s.params.W < f.bits ∨ 2 ^ f.bits ≤ s.ports.a) → ∃ g, exec (.sxt f) s = .fault g)

/-- 10_state.md R21, 70_reset_and_hazards.md R230: SHW, XBR and SXT read no register and no memory: between two states with
the same parameters and operands they return the same on `r0`, the port they drive. -/
def Obligations.PureCommandsReadNoRegisterAndNoMemory : Prop :=
  ∀ (i : Instr) (s s' t : State),
    ((∃ n, i = .shw n) ∨ (∃ n off, i = .xbr n off) ∨ (∃ f, i = .sxt f)) →
    s'.params = s.params → s'.ports = s.ports →
    exec i s = .next t → ∃ t', exec i s' = .next t' ∧ t'.results.r0 = t.results.r0

/-! ### The buffer strategies -/

/-- 41_buffer_strategy.md R131, R132: BINDR inside its contract binds the reader at `(P, OFF)`; under CACHED it loads `Mem[P]`
then `Mem[P+1]` into `C0`, `C1`, under DIRECT it loads nothing; it does not affect `WC` or memory; it faults out of range. -/
def Obligations.BindrBindsTheReader : Prop :=
  ∀ (off : Nat) (s : State),
    (inContract (.bindr off) s = true →
      ∃ t, exec (.bindr off) s = .next t ∧
        t.rc.bound = true ∧ t.rc.idx = s.ports.p ∧ t.rc.ofs = off ∧
        (s.params.strategy = .direct →
          t.rc.c0 = s.rc.c0 ∧ t.rc.c1 = s.rc.c1 ∧ t.trace = s.trace) ∧
        (s.params.strategy = .cached →
          wordAt s s.ports.p = some t.rc.c0 ∧ wordAt s (s.ports.p + 1) = some t.rc.c1 ∧
            t.trace = s.trace ++ [.load s.ports.p, .load (s.ports.p + 1)]) ∧
        t.wc = s.wc ∧ t.mem = s.mem ∧ KeepsHostSide s t) ∧
    ((s.params.indexCount ≤ s.ports.p ∨ s.params.W ≤ off ∨
        (s.params.strategy = .cached ∧ s.params.indexCount ≤ s.ports.p + 1)) →
      ∃ f, exec (.bindr off) s = .fault f) ∧
    (inContract (.bindr off) s = false → Stops (exec (.bindr off) s))

/-- 41_buffer_strategy.md R133, R134, R137, R138: CURR and NEXT return the word at `IDX` and at `IDX + 1`, loaded under
DIRECT, the cached word under CACHED, and change no register; unbound they fault, and so does NEXT under DIRECT at the last
index. -/
def Obligations.CurrAndNextReturnTheReadersWords : Prop :=
  ∀ s : State,
    (inContract .curr s = true →
      ∃ t, exec .curr s = .next t ∧
        (s.params.strategy = .direct →
          wordAt s s.rc.idx = some t.results.r0 ∧ t.trace = s.trace ++ [.load s.rc.idx]) ∧
        (s.params.strategy = .cached → t.results.r0 = s.rc.c0 ∧ t.trace = s.trace) ∧
        t.rc = s.rc ∧ t.wc = s.wc ∧ t.mem = s.mem ∧ KeepsHostSide s t) ∧
    (inContract .next s = true →
      ∃ t, exec .next s = .next t ∧
        (s.params.strategy = .direct →
          wordAt s (s.rc.idx + 1) = some t.results.r0 ∧
            t.trace = s.trace ++ [.load (s.rc.idx + 1)]) ∧
        (s.params.strategy = .cached → t.results.r0 = s.rc.c1 ∧ t.trace = s.trace) ∧
        t.rc = s.rc ∧ t.wc = s.wc ∧ t.mem = s.mem ∧ KeepsHostSide s t) ∧
    (s.rc.bound = false → (∃ f, exec .curr s = .fault f) ∧ ∃ f, exec .next s = .fault f) ∧
    (s.params.strategy = .direct → s.params.indexCount ≤ s.rc.idx + 1 → ∃ f, exec .next s = .fault f) ∧
    (inContract .curr s = false → Stops (exec .curr s)) ∧
    (inContract .next s = false → Stops (exec .next s))

/-- 41_buffer_strategy.md R140, R135: ADVW inside its contract moves the reader on by `P` words, the cached words and the
loads as `buf_advance` says; `OFS`, `WC` and memory are unchanged; it faults unbound and out of range. -/
def Obligations.AdvwAdvancesByWholeWords : Prop :=
  ∀ s : State,
    (inContract .advw s = true →
      ∃ t, exec .advw s = .next t ∧
        AdvancedBy s.ports.p s t ∧ t.rc.ofs = s.rc.ofs ∧
        t.wc = s.wc ∧ t.mem = s.mem ∧ KeepsHostSide s t) ∧
    ((s.rc.bound = false ∨ s.params.indexCount ≤ s.ports.p ∨
        s.params.indexCount ≤ s.rc.idx + s.ports.p) →
      ∃ f, exec .advw s = .fault f) ∧
    (inContract .advw s = false → Stops (exec .advw s))

/-! ### The bit cursor and the extractor -/

/-- 42_cursor_extractor.md R153, R151: SKIP inside its contract moves the reader's bit address on by exactly `P` bits, with
`OFS` again in `[0, W)`; words and loads as `buf_advance` of the word delta; `WC` and memory are unchanged; it faults unbound
and where the index would overflow. -/
def Obligations.SkipMovesTheBitAddress : Prop :=
  ∀ s : State,
    (inContract .skip s = true →
      ∃ t, exec .skip s = .next t ∧
        readerPos t = readerPos s + s.ports.p ∧
        t.rc.ofs = (s.rc.ofs + s.ports.p) % s.params.W ∧ t.rc.ofs < s.params.W ∧
        AdvancedBy ((s.rc.ofs + s.ports.p) / s.params.W) s t ∧
        t.wc = s.wc ∧ t.mem = s.mem ∧ KeepsHostSide s t) ∧
    ((s.rc.bound = false ∨
        s.params.indexCount ≤ s.rc.idx + (s.rc.ofs + s.ports.p) / s.params.W) →
      ∃ f, exec .skip s = .fault f) ∧
    (inContract .skip s = false → Stops (exec .skip s))

/-- 42_cursor_extractor.md R154, R152: EXT1 inside its contract returns the field at the cursor, sign-extended if its tag says
so, and moves the bit address on by its width; under DIRECT it loads `IDX`, `IDX + 1`, under CACHED one word when it reaches
or crosses the end of the current word and else none; `WC` and memory are unchanged; it faults unbound and for a width out
of range. -/
def Obligations.Ext1ReturnsTheFieldAtTheCursor : Prop :=
  ∀ (f : Field) (s : State),
    (s.rc.ofs < s.params.W → inContract (.ext1 f) s = true →
      ∃ t, exec (.ext1 f) s = .next t ∧
        t.results.r0 = readerResult s (readerPos s) f ∧
        readerPos t = readerPos s + f.bits ∧ t.rc.ofs < s.params.W ∧ t.rc.bound = true ∧
        (s.params.strategy = .direct →
          t.rc.c0 = s.rc.c0 ∧ t.rc.c1 = s.rc.c1 ∧
            t.trace = s.trace ++ [.load s.rc.idx, .load (s.rc.idx + 1)]) ∧
        (s.params.strategy = .cached → s.rc.ofs + f.bits < s.params.W →
          t.rc.c0 = s.rc.c0 ∧ t.rc.c1 = s.rc.c1 ∧ t.trace = s.trace) ∧
        (s.params.strategy = .cached → s.params.W ≤ s.rc.ofs + f.bits →
          t.rc.c0 = s.rc.c1 ∧ wordAt s (s.rc.idx + 2) = some t.rc.c1 ∧
            t.trace = s.trace ++ [.load (s.rc.idx + 2)]) ∧
        t.wc = s.wc ∧ t.mem = s.mem ∧ KeepsHostSide s t) ∧
    ((s.rc.bound = false ∨ s.params.W < f.bits ∨ (f.bits = s.params.W ∧ 0 < s.rc.ofs)) →
      ∃ g, exec (.ext1 f) s = .fault g) ∧
    (s.rc.ofs < s.params.W → inContract (.ext1 f) s = false → Stops (exec (.ext1 f) s))

/-- 42_cursor_extractor.md R155 to R157: EXT2, EXT3 and EXT4 inside their contract return their fields "strictly left to
right", field `j` at the bit address the fields before it have reached, and leave the cursor behind the last; `WC` and memory
are unchanged. -/
def Obligations.FusedExtractsReturnTheirFieldsInOrder : Prop :=
  ∀ (f0 f1 f2 f3 : Field) (s : State), s.rc.ofs < s.params.W →
    (inContract (.ext2 f0 f1) s = true →
      ∃ t, exec (.ext2 f0 f1) s = .next t ∧
        t.results.r0 = readerResult s (readerPos s) f0 ∧
        t.results.r1 = readerResult s (readerPos s + f0.bits) f1 ∧
        readerPos t = readerPos s + f0.bits + f1.bits ∧ t.rc.ofs < s.params.W ∧
        t.rc.bound = true ∧ t.wc = s.wc ∧ t.mem = s.mem ∧ KeepsHostSide s t) ∧
    (inContract (.ext3 f0 f1 f2) s = true →
      ∃ t, exec (.ext3 f0 f1 f2) s = .next t ∧
        t.results.r0 = readerResult s (readerPos s) f0 ∧
        t.results.r1 = readerResult s (readerPos s + f0.bits) f1 ∧
        t.results.r2 = readerResult s (readerPos s + f0.bits + f1.bits) f2 ∧
        readerPos t = readerPos s + f0.bits + f1.bits + f2.bits ∧ t.rc.ofs < s.params.W ∧
        t.rc.bound = true ∧ t.wc = s.wc ∧ t.mem = s.mem ∧ KeepsHostSide s t) ∧
    (inContract (.ext4 f0 f1 f2 f3) s = true →
      ∃ t, exec (.ext4 f0 f1 f2 f3) s = .next t ∧
        t.results.r0 = readerResult s (readerPos s) f0 ∧
        t.results.r1 = readerResult s (readerPos s + f0.bits) f1 ∧
        t.results.r2 = readerResult s (readerPos s + f0.bits + f1.bits) f2 ∧
        t.results.r3 = readerResult s (readerPos s + f0.bits + f1.bits + f2.bits) f3 ∧
        readerPos t = readerPos s + f0.bits + f1.bits + f2.bits + f3.bits ∧
        t.rc.ofs < s.params.W ∧
        t.rc.bound = true ∧ t.wc = s.wc ∧ t.mem = s.mem ∧ KeepsHostSide s t)

/-- 20_memory.md R42, 42_cursor_extractor.md R154, 40_primitives.md R116: where the reader's view is the memory (always under
DIRECT, with coherent words under CACHED), bit `j` of what EXT1 returns is stream bit `IDX * W + OFS + j`; above the field an
unsigned result is zero and a signed one repeats the sign bit. -/
def Obligations.ExtractedBitsAreStreamBits : Prop :=
  ∀ (f : Field) (s t : State), s.rc.ofs < s.params.W → cacheCoherent s = true →
    exec (.ext1 f) s = .next t →
      (∀ j, j < f.bits → streamBit s (readerPos s + j) = some (t.results.r0.testBit j)) ∧
      (f.sign = .unsigned → t.results.r0 < 2 ^ f.bits) ∧
      (f.bits = 0 → t.results.r0 = 0) ∧
      (f.sign = .signed → 0 < f.bits → ∀ j, f.bits ≤ j → j < s.params.W →
        t.results.r0.testBit j = t.results.r0.testBit (f.bits - 1))

/-- 42_cursor_extractor.md R158: for every start state a fused extract completes exactly when the same fields one after the
other do, and then returns the same values, leaves the same registers and issues the same loads in the same order. -/
def Obligations.FusedReadsEqualSingleReads : Prop :=
  ∀ (i : Instr) (fs : List Field) (s : State),
    ((∃ f0, i = .ext1 f0 ∧ fs = [f0]) ∨ (∃ f0 f1, i = .ext2 f0 f1 ∧ fs = [f0, f1]) ∨
      (∃ f0 f1 f2, i = .ext3 f0 f1 f2 ∧ fs = [f0, f1, f2]) ∨
      (∃ f0 f1 f2 f3, i = .ext4 f0 f1 f2 f3 ∧ fs = [f0, f1, f2, f3])) →
    (∀ t, exec i s = .next t →
      ∃ u, runExt1 fs s = some (t.results.list.take fs.length, u) ∧ SameReader t u) ∧
    (∀ vs u, runExt1 fs s = some (vs, u) →
      ∃ t, exec i s = .next t ∧ t.results.list.take fs.length = vs ∧ SameReader t u)

/-- 30_encoding.md R83: the expansion of `EXTL d0, …` returns the same values and leaves the same reader as the single
extracts one after the other. -/
def Obligations.ExtlExpansionEqualsSingleReads : Prop :=
  ∀ (fs : List Field) (s u : State) (vs : List Word),
    (runExt1 fs s = some (vs, u) →
      ∃ t, runExtracts (expandExtl fs) s = some (vs, t) ∧ SameReader t u) ∧
    (runExtracts (expandExtl fs) s = some (vs, u) →
      ∃ t, runExt1 fs s = some (vs, t) ∧ SameReader t u)

/-- 42_cursor_extractor.md R159: extracting `N` fields with the streaming cursor equals extracting them one by one with
`extract_bit_range` at the accumulated offsets, and the cursor ends at the accumulated position. -/
def Obligations.SequentialReadsFollowTheStream : Prop :=
  ∀ (fs : List Field) (s t : State) (vs : List Word),
    s.rc.ofs < s.params.W → cacheCoherent s = true → runExt1 fs s = some (vs, t) →
      vs.length = fs.length ∧
      t.rc.idx = (readerPos s + totalBits fs) / s.params.W ∧
      t.rc.ofs = (readerPos s + totalBits fs) % s.params.W ∧
      ∀ (j : Nat) (f : Field) (v : Word), fs[j]? = some f → vs[j]? = some v →
        ∃ x, extractBitRange s.params.W
            ((wordAt s ((readerPos s + totalBits (fs.take j)) / s.params.W)).getD 0)
            ((wordAt s ((readerPos s + totalBits (fs.take j)) / s.params.W + 1)).getD 0)
            ((readerPos s + totalBits (fs.take j)) % s.params.W) f.bits = .ok x ∧
          v = fixup s.params.W x f.bits f.sign

/-- 42_cursor_extractor.md R162: the tag changes neither which bits are consumed nor how the cursor moves nor the low bits of
the result. -/
def Obligations.SignTagChangesOnlyUpperBits : Prop :=
  ∀ (n : Nat) (a b : Signedness) (s t : State), exec (.ext1 ⟨n, a⟩) s = .next t →
    ∃ u, exec (.ext1 ⟨n, b⟩) s = .next u ∧ SameReader t u ∧
      ∀ j, j < n → t.results.r0.testBit j = u.results.r0.testBit j

/-- 41_buffer_strategy.md R139: a Direct and a Cached reader at the same place over the same memory return the same, on the
result ports the command drives, under every command that does not store, and stay so. -/
def Obligations.StrategiesAreObservablyEquivalent : Prop :=
  ∀ (i : Instr) (d c d' c' : State), StrategyTwins d c → d.rc.ofs < d.params.W →
    storesToMemory i = false → exec i d = .next d' → exec i c = .next c' →
      d'.results.driven i = c'.results.driven i ∧ StrategyTwins d' c'

/-- 41_buffer_strategy.md R141, 42_cursor_extractor.md R153: a SKIP of `k * W` bits is an ADVW of `k` words. -/
def Obligations.SkipOfWholeWordsEqualsAdvw : Prop :=
  ∀ (k : Nat) (s : State), s.rc.ofs < s.params.W →
    (∀ t, exec .skip (withP (k * s.params.W) s) = .next t →
      ∃ u, exec .advw (withP k s) = .next u ∧ SameReader t u) ∧
    (∀ u, exec .advw (withP k s) = .next u →
      ∃ t, exec .skip (withP (k * s.params.W) s) = .next t ∧ SameReader t u)

/-! ### The writer -/

/-- 43_writer.md R171: BINDW binds the writer at `(P, OFF)` and touches nothing else; out of range it faults. -/
def Obligations.BindwBindsTheWriter : Prop :=
  ∀ (off : Nat) (s : State),
    (s.ports.p < s.params.indexCount → off < s.params.W →
      ∃ t, exec (.bindw off) s = .next t ∧
        t.wc = { bound := true, idx := s.ports.p, ofs := off } ∧
        t.rc = s.rc ∧ t.mem = s.mem ∧ t.trace = s.trace ∧ KeepsHostSide s t) ∧
    ((s.params.indexCount ≤ s.ports.p ∨ s.params.W ≤ off) → ∃ f, exec (.bindw off) s = .fault f)

/-- 43_writer.md R173, R172: WR1 inside its contract sets exactly the `N0` stream bits at the cursor to the bits of `A`, with
the requests of SBR, and moves the bit address on by the width; it does not affect `RC`; it faults unbound and for a width
or a value out of range, and stops where the index would overflow. -/
def Obligations.Wr1WritesTheFieldAndAdvances : Prop :=
  ∀ (n : Nat) (s : State),
    (inContract (.wr1 n) s = true →
      ∃ t, exec (.wr1 n) s = .next t ∧
        FieldWritten s t (writerPos s) n s.ports.a ∧
        WriteRequests s t s.wc.idx s.wc.ofs n ∧
        writerPos t = writerPos s + n ∧ t.wc.ofs < s.params.W ∧ t.wc.bound = true ∧
        t.rc = s.rc ∧ KeepsHostSide s t) ∧
    (s.wc.bound = false → ∃ f, exec (.wr1 n) s = .fault f) ∧
    (0 < n → (s.params.W < n ∨ (n = s.params.W ∧ 0 < s.wc.ofs) ∨ 2 ^ n ≤ s.ports.a) →
      ∃ f, exec (.wr1 n) s = .fault f) ∧
    (s.params.indexCount ≤ s.wc.idx + (s.wc.ofs + n) / s.params.W → Stops (exec (.wr1 n) s)) ∧
    (inContract (.wr1 n) s = false → Stops (exec (.wr1 n) s))

/-- 43_writer.md R173: WR1 is SBR at `P = WC.IDX`, `OFF = WC.OFS` followed by the cursor's advance: it completes exactly when
those two do, with the same memory, requests and registers. -/
def Obligations.Wr1IsSbrAtTheCursorThenWskip : Prop :=
  ∀ (n : Nat) (s : State),
    (∀ t, exec (.wr1 n) s = .next t →
      ∃ u v, exec (.sbr n s.wc.ofs) (withP s.wc.idx s) = .next u ∧
        exec .wskip (withP n u) = .next v ∧ SameReader t v) ∧
    (∀ u v, exec (.sbr n s.wc.ofs) (withP s.wc.idx s) = .next u →
      exec .wskip (withP n u) = .next v →
        ∃ t, exec (.wr1 n) s = .next t ∧ SameReader t v)

/-- 43_writer.md R174, R172: WSKIP inside its contract moves the writer's bit address on by exactly `P` bits, with `OFS` again
in `[0, W)`, and touches neither memory nor `RC`; it faults unbound and where the index would overflow. -/
def Obligations.WskipMovesTheWriter : Prop :=
  ∀ s : State,
    (inContract .wskip s = true →
      ∃ t, exec .wskip s = .next t ∧
        writerPos t = writerPos s + s.ports.p ∧
        t.wc.idx = s.wc.idx + (s.wc.ofs + s.ports.p) / s.params.W ∧
        t.wc.ofs = (s.wc.ofs + s.ports.p) % s.params.W ∧ t.wc.ofs < s.params.W ∧
        t.wc.bound = true ∧
        t.rc = s.rc ∧ t.mem = s.mem ∧ t.trace = s.trace ∧ KeepsHostSide s t) ∧
    ((s.wc.bound = false ∨
        s.params.indexCount ≤ s.wc.idx + (s.wc.ofs + s.ports.p) / s.params.W) →
      ∃ f, exec .wskip s = .fault f)

/-! ### Reading back what was written -/

/-- 40_primitives.md R113: after `SBR n @o P=i A=val`, `XBRM n @o P=i` returns `val`, and every stream bit outside the field is
unchanged; full width at offset 0 included. The premise on XBRM says that the words it loads are there to be loaded. -/
def Obligations.SetThenExtractReturnsTheValue : Prop :=
  ∀ (n off : Nat) (s t : State), s.ports.a < 2 ^ n → inContract (.xbrm n off) s = true →
    exec (.sbr n off) s = .next t →
      ∃ u, exec (.xbrm n off) t = .next u ∧ u.results.r0 = s.ports.a ∧
        ∀ k, (k < s.ports.p * s.params.W + off ∨ s.ports.p * s.params.W + off + n ≤ k) →
          streamBit u k = streamBit s k

/-- 43_writer.md R175: values written one after the other and then read from the same place with the same widths come back
(with a signed tag, their sign extension), both cursors end at the same place, and no stream bit outside the written range
has changed. -/
def Obligations.WriterAndReaderAgree : Prop :=
  ∀ (fs : List (Field × Word)) (s t u v : State) (vs : List Word),
    (∀ p ∈ fs, p.2 < 2 ^ p.1.bits) → s.wc.ofs < s.params.W →
    runWr1 fs s = some t →
    exec (.bindr s.wc.ofs) (withP s.wc.idx t) = .next u →
    runExt1 (fs.map Prod.fst) u = some (vs, v) →
      vs = fs.map (fun p => fixup s.params.W p.2 p.1.bits p.1.sign) ∧
      v.rc.idx = t.wc.idx ∧ v.rc.ofs = t.wc.ofs ∧
      ∀ k, (k < writerPos s ∨ writerPos t ≤ k) → streamBit v k = streamBit s k

/-! ### The contract -/

/-- 60_exceptions.md R201, R203: a command completes exactly when it commits none of the violations V1 to V8. -/
def Obligations.CommandsCompleteExactlyInContract : Prop :=
  ∀ (i : Instr) (s : State), s.rc.ofs < s.params.W →
    ((∃ t, exec i s = .next t) ↔ inContract i s = true)

/-- 60_exceptions.md R203, 93_implementation_defined.md U1 to U7, U9: a command that does not complete ends in a fault that
names it, or, only with another agent at work, in the race refusal that names it. -/
def Obligations.StopsNameTheCommand : Prop :=
  ∀ (i : Instr) (s : State),
    (∃ t, exec i s = .next t) ∨ (∃ f, exec i s = .fault f ∧ f.command = some i) ∨
      (s.rivals ≠ [] ∧ exec i s = .refused (.race i))

/-- 10_state.md R36: a command that reads a register of an unbound context is a contract violation: it faults, and the fault
names it (which violation is reported is no claim, 60_exceptions.md R205). BINDR binds only `RC`, BINDW only `WC`. -/
def Obligations.UnboundContextsFault : Prop :=
  ∀ (i : Instr) (s t : State),
    (s.rc.bound = false → usesReader i = true → (∀ off, i ≠ .bindr off) →
      ∃ f, exec i s = .fault f ∧ f.command = some i) ∧
    (s.wc.bound = false → usesWriter i = true → (∀ off, i ≠ .bindw off) →
      ∃ f, exec i s = .fault f ∧ f.command = some i) ∧
    (∀ off, exec (.bindr off) s = .next t → t.rc.bound = true ∧ t.wc = s.wc) ∧
    (∀ off, exec (.bindw off) s = .next t → t.wc.bound = true ∧ t.rc = s.rc)

/-! ### Frames and rules of the whole machine -/

/-- 10_state.md R21: `RC` is written by BINDR, ADVW, SKIP and EXT1 to EXT4 only, its `OFS` not by ADVW, and `WC` by BINDW, WR1
and WSKIP only. -/
def Obligations.RegistersAreWrittenOnlyByTheirCommands : Prop :=
  ∀ (i : Instr) (s t : State), exec i s = .next t →
    (writesReader i = false → t.rc = s.rc) ∧
    (i = .advw → t.rc.ofs = s.rc.ofs) ∧
    (usesWriter i = false → t.wc = s.wc)

/-- 20_memory.md R41, R49: a command leaves every byte of memory alone but those of the words it stores to; one that stores
to no word, and a write of width 0, all of them. At which byte addresses the bytes of a word lie, word `i` from `i * (W/8)`
on, is the model's choice (log 6); the rules speak of words. -/
def Obligations.StoresTouchOnlyTheirWords : Prop :=
  ∀ (i : Instr) (s t : State), exec i s = .next t →
    (storeIndex i s = none → ∀ a, t.mem.byteAt a = s.mem.byteAt a) ∧
    (∀ p, storeIndex i s = some p →
      ∀ a, (a < byteAddress s.params p ∨ byteAddress s.params (p + storedWords i s) ≤ a) →
        t.mem.byteAt a = s.mem.byteAt a)

/-- 30_encoding.md R71: every command produces exactly one completion event; and none writes the parameters, the operand ports
or the queue. -/
def Obligations.EveryCommandCompletesOnce : Prop :=
  ∀ (i : Instr) (s t : State), exec i s = .next t → KeepsHostSide s t

/-- 20_memory.md R51, R54, R58; 10_state.md R28: the requests of a command only add to the record, and each is for a word in
the index space that the host has provided and that no other agent makes a race of. -/
def Obligations.RequestsTouchOnlyAdmissibleWords : Prop :=
  ∀ (i : Instr) (s t : State), s.rc.ofs < s.params.W → exec i s = .next t →
    ∃ rs, t.trace = s.trace ++ rs ∧
      ∀ r ∈ rs, r.index < s.params.indexCount ∧ (wordAt s r.index).isSome = true ∧
        (r.isLoad = true → rivalStores s r.index = false) ∧
        (r.isLoad = false → rivalTouches s r.index = false)

/-- 70_reset_and_hazards.md R244, R245: how many loads and stores each command issues, under either strategy and policy; at
most eight loads and two stores. -/
def Obligations.MemoryRequestsPerCommand : Prop :=
  ∀ (i : Instr) (s t : State), s.rc.ofs < s.params.W → exec i s = .next t →
    ∃ rs, t.trace = s.trace ++ rs ∧
      rs.countP (fun r => r.isLoad) = loadCount i s ∧
      rs.countP (fun r => !r.isLoad) = storedWords i s ∧
      loadCount i s ≤ 8 ∧ storedWords i s ≤ 2

/-- 20_memory.md R54, R55; 30_encoding.md R72: the memory after a command is the memory before it with the stores of its
requests made in order: nothing else changes memory. -/
def Obligations.MemoryIsWhatTheRequestsMadeIt : Prop :=
  ∀ (i : Instr) (s t : State), exec i s = .next t →
    ∃ rs, t.trace = s.trace ++ rs ∧ t.mem = applyRequests s.params s.mem rs

/-- 10_state.md R23: the word index and the bit address never decrease under a command that does not bind the context, stay
equal under zero-width extracts and writes and advances by 0, and a bind sets any value in range. -/
def Obligations.CursorsNeverMoveBackwards : Prop :=
  ∀ (i : Instr) (s t : State), s.rc.ofs < s.params.W → s.wc.ofs < s.params.W →
    exec i s = .next t →
      ((∀ off, i ≠ .bindr off) → s.rc.idx ≤ t.rc.idx ∧ readerPos s ≤ readerPos t) ∧
      ((∀ off, i ≠ .bindw off) → s.wc.idx ≤ t.wc.idx ∧ writerPos s ≤ writerPos t) ∧
      ((∃ sign, i = .ext1 ⟨0, sign⟩) ∨ ((i = .advw ∨ i = .skip) ∧ s.ports.p = 0) →
        readerPos t = readerPos s) ∧
      (i = .wr1 0 ∨ (i = .wskip ∧ s.ports.p = 0) → writerPos t = writerPos s) ∧
      (∀ off, i = .bindr off → t.rc.idx = s.ports.p ∧ t.rc.ofs = off) ∧
      (∀ off, i = .bindw off → t.wc.idx = s.ports.p ∧ t.wc.ofs = off)

/-- 10_state.md R24: the cached words are coherent after BINDR, and a command that leaves the two words in memory as they were
keeps them coherent. -/
def Obligations.CachedWordsStayCoherent : Prop :=
  ∀ (i : Instr) (s t : State), s.rc.ofs < s.params.W → exec i s = .next t →
    ((∃ off, i = .bindr off) → cacheCoherent t = true) ∧
    (cacheCoherent s = true →
      wordAt t s.rc.idx = wordAt s s.rc.idx → wordAt t (s.rc.idx + 1) = wordAt s (s.rc.idx + 1) →
        cacheCoherent t = true)

/-- 70_reset_and_hazards.md R238, 10_state.md R33: under CACHED a store, by SBR, by WR1 or by the host, is not seen by CURR and
NEXT, which return the words as they were when loaded. -/
def Obligations.StoresDoNotReachTheCachedWords : Prop :=
  ∀ (s t : State), s.params.strategy = .cached → s.rc.bound = true →
    ((∃ n off, exec (.sbr n off) s = .next t) ∨ (∃ n, exec (.wr1 n) s = .next t) ∨
      (∃ j v, hostStore j v s = .next t)) →
    (∃ u, exec .curr t = .next u ∧ u.results.r0 = s.rc.c0) ∧
    (∃ u, exec .next t = .next u ∧ u.results.r0 = s.rc.c1)

/-- 60_exceptions.md R214: the reader and the writer context are independent except through memory: a command of neither or of
the other does not look at a context and does not change it. It ends in the same state whatever the context holds, but for
the result ports it does not drive. -/
def Obligations.ReaderAndWriterAreIndependent : Prop :=
  ∀ (i : Instr) (s t : State), exec i s = .next t →
    (usesWriter i = false → ∀ c, ∃ r : Results, r.driven i = t.results.driven i ∧
      exec i { s with wc := c } = .next { t with wc := c, results := r }) ∧
    (usesReader i = false → ∀ c, ∃ r : Results, r.driven i = t.results.driven i ∧
      exec i { s with rc := c } = .next { t with rc := c, results := r })

/-- 20_memory.md R44, 40_primitives.md R102, 30_encoding.md R73: the order of bytes in memory, the shift implementation and
what stands on the result ports cannot be observed: instances that differ only there end every command alike, with the same
values on the result ports it drives. -/
def Obligations.UnobservableDifferencesStayUnobservable : Prop :=
  ∀ (i : Instr) (s s' : State), Indistinguishable s s' →
    (∀ t, exec i s = .next t →
      ∃ t', exec i s' = .next t' ∧ Indistinguishable t t' ∧ t'.results.driven i = t.results.driven i) ∧
    (∀ f, exec i s = .fault f → exec i s' = .fault f) ∧
    (∀ r, exec i s = .refused r → exec i s' = .refused r)

/-! ### Invariants of every step -/

/-- 00_scope.md R8, 10_state.md R30: no step changes a parameter of the instance. -/
def Obligations.StepKeepsTheParameters : Prop :=
  ∀ s t : State, step s = .next t → t.params = s.params

/-- 10_state.md R21, R22: every register and port keeps a value of its width through every step; in particular both BitOffsets
stay in `[0, W)`. -/
def Obligations.StepKeepsRegistersInRange : Prop :=
  ∀ s t : State, registersInRange s = true → step s = .next t → registersInRange t = true

/-- The memory keeps its canonical form (the model's own, log 6 and log 7) and lists only words of the index space
(20_memory.md R40) through every step. -/
def Obligations.StepKeepsTheMemoryLegal : Prop :=
  ∀ s t : State, memoryLegal s = true → step s = .next t → memoryLegal t = true

/-- Both invariants hold after reset, for every combination of parameters that can be built (the reset values are the model's
choice, log 3 and log 4). -/
def Obligations.ResetMeetsTheInvariants : Prop :=
  ∀ p : Params, p.wf = true →
    registersInRange (State.resetOf p) = true ∧ memoryLegal (State.resetOf p) = true
end

