-- ==== Sys2Proof/Laws/Memory.lean ====
section
/-! SUPPORT. The laws of the backing store: a read after a write, the canonical form, words over bytes. -/

namespace Sys2Proof

theorem WordWidth.bytes_pos (w : WordWidth) : 0 < w.bytes := by cases w <;> decide

theorem WordWidth.bits_pos (w : WordWidth) : 0 < w.bits := by cases w <;> decide

theorem WordWidth.pow_bytes (w : WordWidth) : 256 ^ w.bytes = 2 ^ w.bits := by cases w <;> rfl

theorem Params.W_pos (p : Params) : 0 < p.W := p.width.bits_pos

end Sys2Proof

namespace Sys2Proof.Machine

open Sys2Proof

/-! ### Bytes -/

theorem Memory.byteAt_setByte (m : Memory) (a x : Nat) (b : Byte) :
    (m.setByte a b).byteAt x = if x = a then some b else m.byteAt x := by
  induction m with
  | nil => by_cases h : a = x <;> simp [setByte, byteAt, h, eq_comm]
  | cons c rest ih =>
    obtain ⟨y, d⟩ := c
    rw [setByte]
    by_cases h1 : a < y
    · rw [if_pos h1]
      by_cases h : a = x <;> simp [byteAt, h, eq_comm]
    · rw [if_neg h1]
      by_cases h2 : a = y
      · rw [if_pos h2, ← h2]
        by_cases h : a = x <;> simp [byteAt, h, eq_comm]
      · rw [if_neg h2]
        by_cases h : y = x
        · have h3 : x ≠ a := fun e => h2 (e.symm.trans h.symm)
          simp [byteAt, h, h3]
        · simp [byteAt, h, ih]

theorem Memory.mem_setByte {m : Memory} {a : Nat} {b : Byte} {c : Host.Cell}
    (h : c ∈ m.setByte a b) : c = (a, b) ∨ c ∈ m := by
  induction m with
  | nil => simpa [setByte] using h
  | cons d rest ih =>
    obtain ⟨y, e⟩ := d
    unfold setByte at h
    split_ifs at h with h1 h2
    · simpa using h
    · simp only [List.mem_cons] at h ⊢
      tauto
    · simp only [List.mem_cons] at h ⊢
      rcases h with h | h
      · exact .inr (.inl h)
      · rcases ih h with h | h
        · exact .inl h
        · exact .inr (.inr h)

/-- Writing a byte keeps the canonical form. -/
theorem Memory.wf_setByte {m : Memory} (h : m.wf) (a : Nat) (b : Byte) : (m.setByte a b).wf := by
  induction m with
  | nil => simp [setByte, wf]
  | cons d rest ih =>
    obtain ⟨y, e⟩ := d
    have hd := List.pairwise_cons.mp h
    unfold setByte
    split_ifs with h1 h2
    · refine List.pairwise_cons.mpr ⟨?_, h⟩
      intro c hc
      rcases List.mem_cons.mp hc with rfl | hc
      · exact h1
      · exact lt_trans h1 (hd.1 c hc)
    · subst h2
      exact List.pairwise_cons.mpr hd
    · refine List.pairwise_cons.mpr ⟨?_, ih hd.2⟩
      intro c hc
      rcases mem_setByte hc with rfl | hc
      · change y < a
        omega
      · exact hd.1 c hc

theorem Memory.byteAt_setBytes (m : Memory) (a x : Nat) (bs : List Byte) :
    (m.setBytes a bs).byteAt x =
      if a ≤ x ∧ x < a + bs.length then bs[x - a]? else m.byteAt x := by
  induction bs generalizing m a with
  | nil =>
    simp [setBytes]
  | cons b bs ih =>
    rw [setBytes, ih, byteAt_setByte]
    by_cases h : x = a
    · subst h
      simp
    · by_cases h2 : a + 1 ≤ x ∧ x < a + 1 + bs.length
      · have h3 : a ≤ x ∧ x < a + (b :: bs).length := by simp; omega
        have h4 : x - a = (x - (a + 1)) + 1 := by omega
        rw [if_pos h2, if_pos h3, h4, List.getElem?_cons_succ]
      · have h3 : ¬(a ≤ x ∧ x < a + (b :: bs).length) := by simp; omega
        rw [if_neg h2, if_neg h3, if_neg h]

theorem Memory.wf_setBytes {m : Memory} (h : m.wf) (a : Nat) (bs : List Byte) :
    (m.setBytes a bs).wf := by
  induction bs generalizing m a with
  | nil => exact h
  | cons b bs ih => exact ih (wf_setByte h a b) (a + 1)

theorem Memory.mem_setBytes {m : Memory} {a : Nat} {bs : List Byte} {c : Host.Cell}
    (h : c ∈ m.setBytes a bs) : (a ≤ c.1 ∧ c.1 < a + bs.length) ∨ c ∈ m := by
  induction bs generalizing m a with
  | nil => exact .inr h
  | cons b bs ih =>
    rcases ih h with ⟨h1, h2⟩ | h
    · exact .inl ⟨by omega, by simp; omega⟩
    · rcases mem_setByte h with rfl | h
      · exact .inl ⟨le_refl _, by simp⟩
      · exact .inr h

theorem Memory.bytesAt_length {m : Memory} {a n : Nat} {bs : List Byte}
    (h : m.bytesAt a n = some bs) : bs.length = n := by
  induction n generalizing a bs with
  | zero => simp_all [bytesAt]
  | succ n ih =>
    unfold bytesAt at h
    split at h
    · rename_i hbs
      cases h
      simp [ih hbs]
    · cases h

/-- Reading bytes depends only on those bytes. -/
theorem Memory.bytesAt_congr {m m' : Memory} {a n : Nat}
    (h : ∀ x, a ≤ x → x < a + n → m'.byteAt x = m.byteAt x) : m'.bytesAt a n = m.bytesAt a n := by
  induction n generalizing a with
  | zero => rfl
  | succ n ih =>
    have h0 := h a (le_refl _) (by omega)
    have h1 := ih (a := a + 1) (fun x hx hy => h x (by omega) (by omega))
    simp [bytesAt, h0, h1]

/-- Reading the bytes just written gives them back. -/
theorem Memory.bytesAt_setBytes_same (m : Memory) (a : Nat) (bs : List Byte) :
    (m.setBytes a bs).bytesAt a bs.length = some bs := by
  suffices h : ∀ (m : Memory) (a n : Nat) (bs : List Byte), n = bs.length →
      (∀ x, a ≤ x → x < a + n → m.byteAt x = bs[x - a]?) → m.bytesAt a n = some bs by
    refine h _ a _ bs rfl (fun x h1 h2 => ?_)
    rw [byteAt_setBytes, if_pos ⟨h1, h2⟩]
  clear m a bs
  intro m a n bs hn h
  induction n generalizing a bs with
  | zero => rw [List.length_eq_zero_iff.mp hn.symm]; rfl
  | succ n ih =>
    cases bs with
    | nil => simp at hn
    | cons b bs =>
      have h0 := h a (le_refl _) (by omega)
      have h1 := ih (a + 1) bs (by simpa using hn) (fun x hx hy => by
        rw [h x (by omega) (by omega)]
        have : x - a = (x - (a + 1)) + 1 := by omega
        rw [this, List.getElem?_cons_succ])
      simp [bytesAt, h0, h1]

/-! ### Words over bytes -/

@[simp] theorem splitBytes_length (v n : Nat) : (splitBytes v n).length = n := by
  induction n generalizing v with
  | zero => rfl
  | succ n ih => simp [splitBytes, ih]

@[simp] theorem arrangeBytes_length (o : ByteOrder) (bs : List Byte) :
    (arrangeBytes o bs).length = bs.length := by
  unfold arrangeBytes
  split_ifs with h
  · simpa using (of_decide_eq_true h).length_eq
  · rfl

@[simp] theorem restoreBytes_length (o : ByteOrder) (bs : List Byte) :
    (restoreBytes o bs).length = bs.length := by
  unfold restoreBytes
  split_ifs <;> simp

/-- Whatever the order of the bytes, what it arranges it also restores. -/
@[simp] theorem restoreBytes_arrangeBytes (o : ByteOrder) (bs : List Byte) :
    restoreBytes o (arrangeBytes o bs) = bs := by
  unfold restoreBytes
  rw [arrangeBytes_length]
  by_cases h : o.orders bs.length = true
  · have hp := of_decide_eq_true h
    rw [if_pos h, arrangeBytes, if_pos h]
    refine List.ext_getElem (by simp) (fun k hk hk' => ?_)
    have hi : o.places.idxOf k < o.places.length :=
      List.idxOf_lt_length_iff.mpr (hp.mem_iff.mpr (List.mem_range.mpr hk'))
    simp [List.getD_eq_getElem?_getD, hi, hk']
  · rw [if_neg h, arrangeBytes, if_neg h]

theorem joinBytes_splitBytes (v n : Nat) : joinBytes (splitBytes v n) = v % 256 ^ n := by
  induction n generalizing v with
  | zero => simp [splitBytes, joinBytes, Nat.mod_one]
  | succ n ih =>
    rw [splitBytes, joinBytes, ih, BitVec.toNat_ofNat, pow_succ' 256 n, Nat.mod_mul]

theorem joinBytes_lt (bs : List Byte) : joinBytes bs < 256 ^ bs.length := by
  induction bs with
  | nil => simp [joinBytes]
  | cons b bs ih =>
    have := b.isLt
    simp only [joinBytes, List.length_cons, pow_succ']
    omega

/-- A word read is below `2^W`, whatever the memory holds (00_scope.md R10). -/
theorem Memory.loadWord_lt {p : Params} {m : Memory} {i : Nat} {v : Word}
    (h : m.loadWord p i = some v) : v < 2 ^ p.W := by
  obtain ⟨bs, hbs, rfl⟩ := Option.map_eq_some_iff.mp h
  have h1 := joinBytes_lt (restoreBytes p.byteOrder bs)
  rw [restoreBytes_length, bytesAt_length hbs, WordWidth.pow_bytes] at h1
  exact h1

/-- A word stored is read back, reduced to `W` bits. -/
theorem Memory.loadWord_storeWord_same (p : Params) (m : Memory) (i v : Nat) :
    (m.storeWord p i v).loadWord p i = some (v % 2 ^ p.W) := by
  have h := bytesAt_setBytes_same m (byteAddress p i)
    (arrangeBytes p.byteOrder (splitBytes v p.width.bytes))
  rw [arrangeBytes_length, splitBytes_length] at h
  rw [loadWord, storeWord, h]
  simp [joinBytes_splitBytes, WordWidth.pow_bytes, Params.W]

/-- The bytes of different words are different. -/
theorem byteAddress_disjoint {p : Params} {i j x : Nat} (h : j ≠ i)
    (hx : byteAddress p j ≤ x) (hy : x < byteAddress p j + p.width.bytes) :
    ¬(byteAddress p i ≤ x ∧ x < byteAddress p i + p.width.bytes) := by
  unfold byteAddress at *
  rintro ⟨h1, h2⟩
  rcases Nat.lt_or_gt_of_ne h with h3 | h3
  · have := Nat.mul_le_mul_right p.width.bytes (Nat.succ_le_of_lt h3)
    rw [Nat.succ_mul] at this
    omega
  · have := Nat.mul_le_mul_right p.width.bytes (Nat.succ_le_of_lt h3)
    rw [Nat.succ_mul] at this
    omega

/-- A store leaves every other byte alone. -/
theorem Memory.byteAt_storeWord_other {p : Params} {m : Memory} {i x : Nat} (v : Nat)
    (h : ¬(byteAddress p i ≤ x ∧ x < byteAddress p i + p.width.bytes)) :
    (m.storeWord p i v).byteAt x = m.byteAt x := by
  rw [storeWord, byteAt_setBytes, arrangeBytes_length, splitBytes_length, if_neg h]

/-- A store leaves every other word alone. -/
theorem Memory.loadWord_storeWord_other {p : Params} {m : Memory} {i j : Nat} (v : Nat) (h : j ≠ i) :
    (m.storeWord p i v).loadWord p j = m.loadWord p j := by
  unfold loadWord
  rw [bytesAt_congr (fun x hx hy => byteAt_storeWord_other v (byteAddress_disjoint h hx hy))]

theorem Memory.loadWord_storeWord (p : Params) (m : Memory) (i j v : Nat) :
    (m.storeWord p i v).loadWord p j = if j = i then some (v % 2 ^ p.W) else m.loadWord p j := by
  split_ifs with h
  · rw [h, loadWord_storeWord_same]
  · exact loadWord_storeWord_other v h

/-- A store keeps the canonical form. -/
theorem Memory.wf_storeWord {m : Memory} (h : m.wf) (p : Params) (i v : Nat) :
    (m.storeWord p i v).wf := wf_setBytes h _ _

theorem Memory.mem_storeWord {p : Params} {m : Memory} {i v : Nat} {c : Host.Cell}
    (h : c ∈ m.storeWord p i v) : c.1 < byteAddress p (i + 1) ∨ c ∈ m := by
  rcases mem_setBytes h with ⟨-, h2⟩ | h
  · left
    rw [arrangeBytes_length, splitBytes_length] at h2
    unfold byteAddress at *
    rw [Nat.succ_mul]
    exact h2
  · exact .inr h

/-- The memory after reset is canonical. -/
theorem reset_mem_wf (p : Params) : (State.resetOf p).mem.wf := List.Pairwise.nil

end Sys2Proof.Machine
end

