-- ==== Sys2Proof/Laws/State.lean ====
section
/-! SUPPORT. One lemma per field for each named update of State, true by rfl, so that no proof unfolds a record update. -/

namespace Sys2Proof.Machine

open Sys2Proof

/-! ### acceptCommand -/

@[simp] theorem acceptCommand_params (c : Command) (rest : List HostEvent) (s : State) :
    (acceptCommand c rest s).params = s.params := rfl

@[simp] theorem acceptCommand_rc (c : Command) (rest : List HostEvent) (s : State) :
    (acceptCommand c rest s).rc = s.rc := rfl

@[simp] theorem acceptCommand_wc (c : Command) (rest : List HostEvent) (s : State) :
    (acceptCommand c rest s).wc = s.wc := rfl

@[simp] theorem acceptCommand_ports (c : Command) (rest : List HostEvent) (s : State) :
    (acceptCommand c rest s).ports = { a := c.a % 2 ^ s.params.W, b := c.b % 2 ^ s.params.W, p := c.p % 2 ^ s.params.PW } := rfl

@[simp] theorem acceptCommand_results (c : Command) (rest : List HostEvent) (s : State) :
    (acceptCommand c rest s).results = s.results := rfl

@[simp] theorem acceptCommand_mem (c : Command) (rest : List HostEvent) (s : State) :
    (acceptCommand c rest s).mem = s.mem := rfl

@[simp] theorem acceptCommand_inputs (c : Command) (rest : List HostEvent) (s : State) :
    (acceptCommand c rest s).inputs = rest := rfl

@[simp] theorem acceptCommand_rivals (c : Command) (rest : List HostEvent) (s : State) :
    (acceptCommand c rest s).rivals = c.rivals := rfl

@[simp] theorem acceptCommand_trace (c : Command) (rest : List HostEvent) (s : State) :
    (acceptCommand c rest s).trace = s.trace := rfl

@[simp] theorem acceptCommand_completions (c : Command) (rest : List HostEvent) (s : State) :
    (acceptCommand c rest s).completions = s.completions := rfl

/-! ### respond -/

@[simp] theorem respond_params (vs : List Word) (s : State) :
    (respond vs s).params = s.params := rfl

@[simp] theorem respond_rc (vs : List Word) (s : State) :
    (respond vs s).rc = s.rc := rfl

@[simp] theorem respond_wc (vs : List Word) (s : State) :
    (respond vs s).wc = s.wc := rfl

@[simp] theorem respond_ports (vs : List Word) (s : State) :
    (respond vs s).ports = s.ports := rfl

@[simp] theorem respond_mem (vs : List Word) (s : State) :
    (respond vs s).mem = s.mem := rfl

@[simp] theorem respond_inputs (vs : List Word) (s : State) :
    (respond vs s).inputs = s.inputs := rfl

@[simp] theorem respond_rivals (vs : List Word) (s : State) :
    (respond vs s).rivals = s.rivals := rfl

@[simp] theorem respond_trace (vs : List Word) (s : State) :
    (respond vs s).trace = s.trace := rfl

@[simp] theorem respond_completions (vs : List Word) (s : State) :
    (respond vs s).completions = s.completions + 1 := rfl

@[simp] theorem respond_r0 (vs : List Word) (s : State) :
    (respond vs s).results.r0 = portAfter s.params.W s.completions 0 vs := rfl

@[simp] theorem respond_r1 (vs : List Word) (s : State) :
    (respond vs s).results.r1 = portAfter s.params.W s.completions 1 vs := rfl

@[simp] theorem respond_r2 (vs : List Word) (s : State) :
    (respond vs s).results.r2 = portAfter s.params.W s.completions 2 vs := rfl

@[simp] theorem respond_r3 (vs : List Word) (s : State) :
    (respond vs s).results.r3 = portAfter s.params.W s.completions 3 vs := rfl

/-- A driven port holds the driven value; no lemma speaks of a port a command does not drive (30_encoding.md R73). -/
@[simp] theorem portAfter_zero (w n : Nat) (v : Word) (vs : List Word) :
    portAfter w n 0 (v :: vs) = v := rfl

@[simp] theorem portAfter_succ (w n k : Nat) (v : Word) (vs : List Word) (h : k < vs.length) :
    portAfter w n (k + 1) (v :: vs) = portAfter w n k vs := by
  simp [portAfter, h]

/-- A completion that carries one value for each port the command drives returns those values (30_encoding.md R73). -/
@[simp] theorem driven_respond {i : Instr} {vs : List Word} (h : vs.length = drivenCount i) (s : State) :
    (respond vs s).results.driven i = vs := by
  unfold Results.driven
  rw [← h]
  have h4 : vs.length ≤ 4 := by rw [h]; cases i <;> simp [drivenCount]
  match vs, h4 with
  | [], _ => rfl
  | [_], _ => rfl
  | [_, _], _ => rfl
  | [_, _, _], _ => rfl
  | [_, _, _, _], _ => rfl

/-- A port never holds more than its width, if the driven values do not (30_encoding.md R71). -/
theorem portAfter_lt (w n k : Nat) (vs : List Word) (h : ∀ v ∈ vs, v < 2 ^ w) :
    portAfter w n k vs < 2 ^ w := by
  unfold portAfter
  cases hk : vs[k]? with
  | none => exact (Config.freeResult w n k).isLt
  | some v => exact h v (List.mem_of_getElem? hk)

/-! ### resetBlock -/

@[simp] theorem resetBlock_params (s : State) :
    (resetBlock s).params = s.params := rfl

@[simp] theorem resetBlock_rc (s : State) :
    (resetBlock s).rc = .reset := rfl

@[simp] theorem resetBlock_wc (s : State) :
    (resetBlock s).wc = .reset := rfl

@[simp] theorem resetBlock_ports (s : State) :
    (resetBlock s).ports = .reset := rfl

@[simp] theorem resetBlock_results (s : State) :
    (resetBlock s).results = .reset := rfl

@[simp] theorem resetBlock_mem (s : State) :
    (resetBlock s).mem = s.mem := rfl

@[simp] theorem resetBlock_inputs (s : State) :
    (resetBlock s).inputs = s.inputs := rfl

@[simp] theorem resetBlock_rivals (s : State) :
    (resetBlock s).rivals = [] := rfl

@[simp] theorem resetBlock_trace (s : State) :
    (resetBlock s).trace = s.trace := rfl

@[simp] theorem resetBlock_completions (s : State) :
    (resetBlock s).completions = s.completions := rfl

/-! ### withA -/

@[simp] theorem withA_params (v : Word) (s : State) :
    (withA v s).params = s.params := rfl

@[simp] theorem withA_rc (v : Word) (s : State) :
    (withA v s).rc = s.rc := rfl

@[simp] theorem withA_wc (v : Word) (s : State) :
    (withA v s).wc = s.wc := rfl

@[simp] theorem withA_ports (v : Word) (s : State) :
    (withA v s).ports = { s.ports with a := v } := rfl

@[simp] theorem withA_results (v : Word) (s : State) :
    (withA v s).results = s.results := rfl

@[simp] theorem withA_mem (v : Word) (s : State) :
    (withA v s).mem = s.mem := rfl

@[simp] theorem withA_inputs (v : Word) (s : State) :
    (withA v s).inputs = s.inputs := rfl

@[simp] theorem withA_rivals (v : Word) (s : State) :
    (withA v s).rivals = s.rivals := rfl

@[simp] theorem withA_trace (v : Word) (s : State) :
    (withA v s).trace = s.trace := rfl

@[simp] theorem withA_completions (v : Word) (s : State) :
    (withA v s).completions = s.completions := rfl

/-! ### withP -/

@[simp] theorem withP_params (n : Nat) (s : State) :
    (withP n s).params = s.params := rfl

@[simp] theorem withP_rc (n : Nat) (s : State) :
    (withP n s).rc = s.rc := rfl

@[simp] theorem withP_wc (n : Nat) (s : State) :
    (withP n s).wc = s.wc := rfl

@[simp] theorem withP_ports (n : Nat) (s : State) :
    (withP n s).ports = { s.ports with p := n } := rfl

@[simp] theorem withP_results (n : Nat) (s : State) :
    (withP n s).results = s.results := rfl

@[simp] theorem withP_mem (n : Nat) (s : State) :
    (withP n s).mem = s.mem := rfl

@[simp] theorem withP_inputs (n : Nat) (s : State) :
    (withP n s).inputs = s.inputs := rfl

@[simp] theorem withP_rivals (n : Nat) (s : State) :
    (withP n s).rivals = s.rivals := rfl

@[simp] theorem withP_trace (n : Nat) (s : State) :
    (withP n s).trace = s.trace := rfl

@[simp] theorem withP_completions (n : Nat) (s : State) :
    (withP n s).completions = s.completions := rfl

end Sys2Proof.Machine
end

