-- ==== Sys2Proof/Laws/Ops.lean ====
section
/-! SUPPORT. One lemma per shared operation that says everything it can do: it answers exactly under its contract, and then
exactly this. Later proofs cite these and do not unfold the operations. -/

namespace Sys2Proof.Machine

open Sys2Proof

/-! ### Outcomes -/

theorem bind_eq_ok {α β : Type} {x : Except Violation α} {f : α → Except Violation β} {r : β} :
    (x >>= f) = .ok r ↔ ∃ a, x = .ok a ∧ f a = .ok r := by
  cases x <;> simp [bind, Except.bind]

@[simp] theorem ok_bind {α β : Type} (a : α) (f : α → Except Violation β) :
    (Except.ok a >>= f) = f a := rfl

@[simp] theorem error_bind {α β : Type} (v : Violation) (f : α → Except Violation β) :
    ((Except.error v : Except Violation α) >>= f) = .error v := rfl

@[simp] theorem require_eq_ok {c : Bool} {v : Violation} {u : Unit} :
    require c v = .ok u ↔ c = true := by
  cases c <;> simp [require]

@[simp] theorem require_true (v : Violation) : require true v = .ok () := rfl

@[simp] theorem require_false (v : Violation) : require false v = .error v := rfl

/-- A command answers a next state exactly when its body does (60_exceptions.md R203). -/
@[simp] theorem conclude_eq_next {c : Instr} {r : Except Violation State} {t : State} :
    conclude c r = .next t ↔ r = .ok t := by
  cases r with
  | ok s => simp [conclude]
  | error v => cases v <;> simp [conclude, Violation.stop]

@[simp] theorem conclude_ok (c : Instr) (s : State) : conclude c (.ok s) = .next s := rfl

@[simp] theorem conclude_error (c : Instr) (v : Violation) : conclude c (.error v) = v.stop c := rfl

/-- V2 is checked as 40_primitives.md R110 says. -/
@[simp] theorem requireFieldWidth_eq_ok {w off n : Nat} {u : Unit} :
    requireFieldWidth w off n = .ok u ↔ fieldFits w off n = true := by
  simp only [requireFieldWidth, bind_eq_ok, require_eq_ok, fieldFits, Bool.or_eq_true,
    Bool.and_eq_true, decide_eq_true_eq]
  constructor
  · rintro ⟨-, h1, h2⟩
    rcases Nat.lt_or_eq_of_le h1 with h | h
    · exact .inl h
    · exact .inr ⟨h, h2 h⟩
  · rintro (h | ⟨h1, h2⟩)
    · exact ⟨(), by omega, by omega⟩
    · exact ⟨(), by omega, fun _ => h2⟩

theorem fieldFits_iff {w off n : Nat} :
    fieldFits w off n = true ↔ n < w ∨ (n = w ∧ off = 0) := by
  simp [fieldFits]

theorem fieldFits_le {w off n : Nat} (h : fieldFits w off n = true) : n ≤ w := by
  rcases fieldFits_iff.mp h with h | h <;> omega

/-! ### The memory channel -/

/-- A word depends on the memory and the parameters only. -/
theorem wordAt_congr {s t : State} (h1 : t.params = s.params) (h2 : t.mem = s.mem) (i : Nat) :
    wordAt t i = wordAt s i := by
  simp [wordAt, h1, h2]

theorem readable_congr {s t : State} (h1 : t.params = s.params) (h2 : t.mem = s.mem)
    (h3 : t.rivals = s.rivals) (i : Nat) : readable t i = readable s i := by
  simp [readable, rivalStores, h1, h3, wordAt_congr h1 h2]

theorem writable_congr {s t : State} (h1 : t.params = s.params) (h2 : t.mem = s.mem)
    (h3 : t.rivals = s.rivals) (i : Nat) : writable t i = writable s i := by
  simp [writable, rivalTouches, h1, h3, wordAt_congr h1 h2]

theorem rivalStores_le_touches {s : State} {i : Nat} (h : rivalTouches s i = false) :
    rivalStores s i = false := by
  simp only [rivalTouches, rivalStores, List.any_eq_false, Bool.and_eq_true, not_and] at *
  exact fun r hr h1 => absurd h1 (h r hr)

theorem readable_of_writable {s : State} {i : Nat} (h : writable s i = true) :
    readable s i = true := by
  simp only [writable, readable, Bool.and_eq_true, Bool.not_eq_true'] at *
  exact ⟨h.1, rivalStores_le_touches h.2⟩

theorem wordAt_of_readable {s : State} {i : Nat} (h : readable s i = true) :
    ∃ v, wordAt s i = some v := by
  simp only [readable, Bool.and_eq_true, Option.isSome_iff_exists] at h
  exact h.1.2

/-- `s` after loads of the words `is`. -/
def afterLoads (is : List Nat) (s : State) : State :=
  { s with trace := s.trace ++ is.map .load }

/-- `s` after a store. -/
def afterStore (i : Nat) (v : Word) (s : State) : State :=
  { s with mem := s.mem.storeWord s.params i v, trace := s.trace ++ [.store i v] }

theorem memRead_eq_ok {i : Nat} {s t : State} {v : Word} :
    memRead i s = .ok (v, t) ↔
      readable s i = true ∧ wordAt s i = some v ∧ t = afterLoads [i] s := by
  simp only [memRead, bind_eq_ok, require_eq_ok, decide_eq_true_eq, readable, Bool.and_eq_true,
    Bool.not_eq_true']
  cases hw : wordAt s i with
  | none => simp
  | some w =>
    simp only [bind_eq_ok, require_eq_ok, Bool.not_eq_true', Except.ok.injEq, Prod.mk.injEq,
      Option.isSome_some, Option.some.injEq, afterLoads, List.map]
    constructor
    · rintro ⟨-, h1, -, h2, h3, h4⟩
      exact ⟨⟨⟨h1, trivial⟩, h2⟩, h3, h4.symm⟩
    · rintro ⟨⟨⟨h1, -⟩, h2⟩, h3, h4⟩
      exact ⟨(), h1, (), h2, h3, h4.symm⟩

theorem memWrite_eq_ok {i : Nat} {s t : State} {v : Word} :
    memWrite i v s = .ok t ↔ writable s i = true ∧ t = afterStore i v s := by
  simp only [memWrite, bind_eq_ok, require_eq_ok, decide_eq_true_eq, writable, Bool.and_eq_true,
    Bool.not_eq_true', Except.ok.injEq, afterStore]
  constructor
  · rintro ⟨-, h1, -, h2, -, h3, h4⟩
    exact ⟨⟨⟨h1, h2⟩, h3⟩, h4.symm⟩
  · rintro ⟨⟨⟨h1, h2⟩, h3⟩, h4⟩
    exact ⟨(), h1, (), h2, (), h3, h4.symm⟩

/-- `Mem[j]` after a store of word `i` (20_memory.md R48). -/
theorem wordAt_afterStore (i j : Nat) (v : Word) (s : State) :
    wordAt (afterStore i v s) j = if j = i then some (v % 2 ^ s.params.W) else wordAt s j :=
  Memory.loadWord_storeWord _ _ _ _ _

/-! ### Stateless primitives -/

theorem lowMask_and (x n : Nat) : x &&& lowMask n = x % 2 ^ n := by
  rw [lowMask, Nat.and_two_pow_sub_one_eq_mod]

/-- A field of `n` bits does not depend on what lies above it in the two-word window. -/
theorem doubleWord_field_low {w low high off n : Nat} (h : off + n ≤ w) :
    (doubleWord w low high >>> off) % 2 ^ n = (low >>> off) % 2 ^ n := by
  rw [doubleWord, Nat.shiftRight_eq_div_pow, Nat.shiftRight_eq_div_pow]
  have h6 : w = off + n + (w - off - n) := by omega
  have h7 : high * 2 ^ w + low = low + 2 ^ off * (high * 2 ^ n * 2 ^ (w - off - n)) := by
    conv_lhs => rw [h6, pow_add, pow_add]
    ring
  rw [h7, Nat.add_mul_div_left _ _ (by positivity),
    show high * 2 ^ n * 2 ^ (w - off - n) = 2 ^ n * (high * 2 ^ (w - off - n)) by ring,
    Nat.add_mul_mod_self_left]

theorem extractBitRange_of_fits {w w0 w1 off n : Nat} (h0 : n ≠ 0) (h1 : off < w)
    (h2 : fieldFits w off n = true) :
    extractBitRange w w0 w1 off n = .ok ((doubleWord w w0 w1 >>> off) % 2 ^ n) := by
  have h3 : require (decide (off < w)) .bitOffset = .ok () := by simp [h1]
  have h4 : requireFieldWidth w off n = .ok () := requireFieldWidth_eq_ok.mpr h2
  rw [extractBitRange, if_neg h0, h3, ok_bind, h4, ok_bind]
  split_ifs with h5
  · rw [lowMask_and, doubleWord_field_low h5]
  · rw [lowMask_and, shiftWindow, Nat.mod_mod_of_dvd _ (pow_dvd_pow 2 (fieldFits_le h2))]

/-- Both paths of an extract agree with the closed form (40_primitives.md R109). -/
theorem extractBitRange_eq_ok {w w0 w1 off n : Nat} {v : Word} :
    extractBitRange w w0 w1 off n = .ok v ↔
      (n = 0 ∨ off < w ∧ fieldFits w off n = true) ∧
        v = (doubleWord w w0 w1 >>> off) % 2 ^ n := by
  by_cases h0 : n = 0
  · rw [extractBitRange, if_pos h0, h0, pow_zero, Nat.mod_one]
    exact ⟨fun h => ⟨.inl rfl, (Except.ok.inj h).symm⟩, fun h => congrArg _ h.2.symm⟩
  · constructor
    · intro h
      have h' := h
      rw [extractBitRange, if_neg h0] at h'
      obtain ⟨_, h1, h'⟩ := bind_eq_ok.mp h'
      obtain ⟨_, h2, -⟩ := bind_eq_ok.mp h'
      have h1 := of_decide_eq_true (require_eq_ok.mp h1)
      have h2 := requireFieldWidth_eq_ok.mp h2
      rw [extractBitRange_of_fits h0 h1 h2] at h
      exact ⟨.inr ⟨h1, h2⟩, (Except.ok.inj h).symm⟩
    · rintro ⟨h, rfl⟩
      obtain ⟨h1, h2⟩ := h.resolve_left h0
      exact extractBitRange_of_fits h0 h1 h2

end Sys2Proof.Machine
end

