-- ==== Sys2Proof/Laws/Procedures.lean ====
section
/-! SUPPORT. What the procedures of the reader and the writer can do: one lemma each, in the terms of the contract of
Safety.lean and of an explicit state after. -/

namespace Sys2Proof.Machine

open Sys2Proof

/-! ### Fields that loads and the registers leave alone -/

@[simp] theorem afterLoads_params (is : List Nat) (s : State) : (afterLoads is s).params = s.params := rfl
@[simp] theorem afterLoads_rc (is : List Nat) (s : State) : (afterLoads is s).rc = s.rc := rfl
@[simp] theorem afterLoads_wc (is : List Nat) (s : State) : (afterLoads is s).wc = s.wc := rfl
@[simp] theorem afterLoads_ports (is : List Nat) (s : State) : (afterLoads is s).ports = s.ports := rfl
@[simp] theorem afterLoads_results (is : List Nat) (s : State) : (afterLoads is s).results = s.results := rfl
@[simp] theorem afterLoads_mem (is : List Nat) (s : State) : (afterLoads is s).mem = s.mem := rfl
@[simp] theorem afterLoads_inputs (is : List Nat) (s : State) : (afterLoads is s).inputs = s.inputs := rfl
@[simp] theorem afterLoads_rivals (is : List Nat) (s : State) : (afterLoads is s).rivals = s.rivals := rfl
@[simp] theorem afterLoads_completions (is : List Nat) (s : State) :
    (afterLoads is s).completions = s.completions := rfl
@[simp] theorem afterLoads_trace (is : List Nat) (s : State) :
    (afterLoads is s).trace = s.trace ++ is.map .load := rfl

@[simp] theorem wordAt_afterLoads (is : List Nat) (s : State) (i : Nat) :
    wordAt (afterLoads is s) i = wordAt s i := rfl
@[simp] theorem readable_afterLoads (is : List Nat) (s : State) (i : Nat) :
    readable (afterLoads is s) i = readable s i := rfl
@[simp] theorem writable_afterLoads (is : List Nat) (s : State) (i : Nat) :
    writable (afterLoads is s) i = writable s i := rfl

@[simp] theorem afterLoads_nil (s : State) : afterLoads [] s = s := by simp [afterLoads]

@[simp] theorem afterLoads_afterLoads (is js : List Nat) (s : State) :
    afterLoads js (afterLoads is s) = afterLoads (is ++ js) s := by
  simp [afterLoads]

@[simp] theorem afterStore_params (i : Nat) (v : Word) (s : State) : (afterStore i v s).params = s.params := rfl
@[simp] theorem afterStore_rc (i : Nat) (v : Word) (s : State) : (afterStore i v s).rc = s.rc := rfl
@[simp] theorem afterStore_wc (i : Nat) (v : Word) (s : State) : (afterStore i v s).wc = s.wc := rfl
@[simp] theorem afterStore_ports (i : Nat) (v : Word) (s : State) : (afterStore i v s).ports = s.ports := rfl
@[simp] theorem afterStore_results (i : Nat) (v : Word) (s : State) : (afterStore i v s).results = s.results := rfl
@[simp] theorem afterStore_inputs (i : Nat) (v : Word) (s : State) : (afterStore i v s).inputs = s.inputs := rfl
@[simp] theorem afterStore_rivals (i : Nat) (v : Word) (s : State) : (afterStore i v s).rivals = s.rivals := rfl
@[simp] theorem afterStore_completions (i : Nat) (v : Word) (s : State) :
    (afterStore i v s).completions = s.completions := rfl
@[simp] theorem afterStore_mem (i : Nat) (v : Word) (s : State) :
    (afterStore i v s).mem = s.mem.storeWord s.params i v := rfl
@[simp] theorem afterStore_trace (i : Nat) (v : Word) (s : State) :
    (afterStore i v s).trace = s.trace ++ [.store i v] := rfl

/-- A store changes neither what is provided nor who else is at work, except that its own word is provided. -/
theorem writable_afterStore {i j : Nat} (v : Word) {s : State} (h : j ≠ i) :
    writable (afterStore i v s) j = writable s j := by
  rw [writable, wordAt_afterStore, if_neg h]
  rfl

/-! ### A bit-range set (40_primitives.md R111) -/

/-- The word a set stores: `old` with bits `off` to `off + n - 1` (below `W`) replaced by the low bits of `val`. -/
def insertedWord (w : Nat) (old val : Word) (off n : Nat) : Word :=
  mergeBits w old ((lowMask n <<< off) % 2 ^ w) (val <<< off)

/-- The state after a set inside its contract. -/
def afterSet (p : Nat) (val : Word) (off n : Nat) (s : State) : State :=
  if n = 0 then s
  else if off + n ≤ s.params.W then
    afterStore p (insertedWord s.params.W ((wordAt s p).getD 0) val off n) (afterLoads [p] s)
  else
    let s2 := afterStore p
      (insertedWord s.params.W ((wordAt s p).getD 0) val off (s.params.W - off)) (afterLoads [p] s)
    afterStore (p + 1)
      (mergeBits s.params.W ((wordAt s (p + 1)).getD 0) (lowMask (n - (s.params.W - off)))
        (val >>> (s.params.W - off)))
      (afterLoads [p + 1] s2)

theorem setBitRange_eq_ok {p val off n : Nat} {s t : State} :
    setBitRange p val off n s = .ok t ↔
      writeInContract s p val off n = true ∧ t = afterSet p val off n s := by
  by_cases h0 : n = 0
  · simp [setBitRange, writeInContract, afterSet, h0, eq_comm]
  · rw [setBitRange, afterSet, if_neg h0, if_neg h0]
    simp only [writeInContract, bind_eq_ok, require_eq_ok,
      requireFieldWidth_eq_ok, decide_eq_true_eq, Bool.or_eq_true, Bool.and_eq_true, h0, false_or]
    by_cases h5 : off + n ≤ s.params.W
    · rw [if_pos h5, if_pos h5]
      simp only [bind_eq_ok, memRead_eq_ok, memWrite_eq_ok, Prod.exists, h5, true_or, and_true]
      constructor
      · rintro ⟨_, h1, _, h2, _, h3, old, s1, ⟨h6, h7, rfl⟩, h8, rfl⟩
        exact ⟨⟨⟨⟨h1, h2⟩, h3⟩, h8⟩, by simp [h7, insertedWord]⟩
      · rintro ⟨⟨⟨⟨h1, h2⟩, h3⟩, h8⟩, rfl⟩
        obtain ⟨old, h7⟩ := wordAt_of_readable (readable_of_writable h8)
        exact ⟨(), h1, (), h2, (), h3, old, _, ⟨readable_of_writable h8, h7, rfl⟩, h8,
          by simp [h7, insertedWord]⟩
    · rw [if_neg h5, if_neg h5]
      simp only [bind_eq_ok, memRead_eq_ok, memWrite_eq_ok, Prod.exists, h5, false_or]
      have hne : p + 1 ≠ p := by omega
      constructor
      · rintro ⟨_, h1, _, h2, _, h3, old, s1, ⟨h6, h7, rfl⟩, s2, ⟨h8, rfl⟩, old1, s3,
          ⟨h9, h10, rfl⟩, h11, rfl⟩
        rw [writable_afterLoads, writable_afterStore _ hne, writable_afterLoads] at h11
        rw [wordAt_afterStore, if_neg hne, wordAt_afterLoads] at h10
        exact ⟨⟨⟨⟨⟨h1, h2⟩, h3⟩, h8⟩, h11⟩, by simp [h7, h10, insertedWord]⟩
      · rintro ⟨⟨⟨⟨⟨h1, h2⟩, h3⟩, h8⟩, h11⟩, rfl⟩
        obtain ⟨old, h7⟩ := wordAt_of_readable (readable_of_writable h8)
        obtain ⟨old1, h10⟩ := wordAt_of_readable (readable_of_writable h11)
        have h12 : ∀ v, writable (afterStore p v (afterLoads [p] s)) (p + 1) = true := fun v => by
          rw [writable_afterStore _ hne, writable_afterLoads]; exact h11
        refine ⟨(), h1, (), h2, (), h3, old, _, ⟨readable_of_writable h8, h7, rfl⟩, _, ⟨h8, rfl⟩,
          old1, _, ⟨readable_of_writable (h12 _), ?_, rfl⟩, h12 _, ?_⟩
        · rw [wordAt_afterStore, if_neg hne, wordAt_afterLoads, h10]
        · simp [h7, h10, insertedWord]

/-! ### The reader's buffer (41_buffer_strategy.md) -/

/-- The load `curr()` or `next()` issues for word `i`: one under DIRECT, none under CACHED (R136). -/
def viewLoads (s : State) (i : Nat) : List Nat :=
  match s.params.strategy with
  | .direct => [i]
  | .cached => []

theorem bufCurr_eq_ok {s t : State} {v : Word} :
    bufCurr s = .ok (v, t) ↔
      viewReady s s.rc.idx = true ∧ readerWord s s.rc.idx = some v ∧
        t = afterLoads (viewLoads s s.rc.idx) s := by
  unfold bufCurr viewReady readerWord viewLoads
  cases s.params.strategy with
  | direct => exact memRead_eq_ok
  | cached => simp [eq_comm]

theorem bufNext_eq_ok {s t : State} {v : Word} :
    bufNext s = .ok (v, t) ↔
      viewReady s (s.rc.idx + 1) = true ∧ readerWord s (s.rc.idx + 1) = some v ∧
        t = afterLoads (viewLoads s (s.rc.idx + 1)) s := by
  unfold bufNext viewReady readerWord viewLoads
  cases s.params.strategy with
  | direct => exact memRead_eq_ok
  | cached => simp [eq_comm]

/-- A word the view may load is there to be seen. -/
theorem readerWord_of_viewReady {s : State} {i : Nat} (h : viewReady s i = true)
    (hi : i = s.rc.idx ∨ i = s.rc.idx + 1) : ∃ v, readerWord s i = some v := by
  unfold viewReady at h
  unfold readerWord
  cases hs : s.params.strategy with
  | direct => rw [hs] at h; exact wordAt_of_readable h
  | cached => rcases hi with rfl | rfl <;> simp

/-- The loads of an advance by `k` words (R136). -/
def advanceLoads (s : State) (k : Nat) : List Nat :=
  match s.params.strategy with
  | .direct => []
  | .cached =>
    if k = 0 then []
    else if k = 1 then [s.rc.idx + 2]
    else [s.rc.idx + k, s.rc.idx + k + 1]

/-- The reader context after an advance by `k` words: under CACHED its words are those the reader saw, or the memory holds,
at the new place. -/
def advancedReader (s : State) (k : Nat) : ReaderCtx :=
  match s.params.strategy with
  | .direct => { s.rc with idx := s.rc.idx + k }
  | .cached =>
    if k = 0 then s.rc
    else
      { s.rc with
        idx := s.rc.idx + k
        c0 := if k = 1 then s.rc.c1 else (wordAt s (s.rc.idx + k)).getD 0
        c1 := (wordAt s (s.rc.idx + k + 1)).getD 0 }

@[simp] theorem advancedReader_bound (s : State) (k : Nat) :
    (advancedReader s k).bound = s.rc.bound := by
  unfold advancedReader
  split
  · rfl
  · split <;> rfl

@[simp] theorem advancedReader_ofs (s : State) (k : Nat) :
    (advancedReader s k).ofs = s.rc.ofs := by
  unfold advancedReader
  split
  · rfl
  · split <;> rfl

@[simp] theorem advancedReader_idx (s : State) (k : Nat) :
    (advancedReader s k).idx = s.rc.idx + k := by
  unfold advancedReader
  split
  · rfl
  · split
    · rename_i h; simp [h]
    · rfl

theorem bufAdvance_eq_ok {k : Nat} {s t : State} :
    bufAdvance k s = .ok t ↔
      advanceInContract s k = true ∧
        t = { afterLoads (advanceLoads s k) s with rc := advancedReader s k } := by
  simp only [bufAdvance, bind_eq_ok, require_eq_ok, decide_eq_true_eq, advanceInContract,
    Bool.and_eq_true, advanceLoads, advancedReader]
  cases s.params.strategy with
  | direct => simp [eq_comm]
  | cached =>
    by_cases h0 : k = 0
    · subst h0
      simp only [if_true, and_true]
      constructor
      · rintro ⟨_, h1, h2⟩
        exact ⟨h1, by rw [← Except.ok.inj h2, afterLoads_nil]⟩
      · rintro ⟨h1, rfl⟩
        exact ⟨(), h1, by rw [afterLoads_nil]⟩
    · by_cases h1 : k = 1
      · subst h1
        simp only [Nat.one_ne_zero, if_false, if_true, bind_eq_ok, memRead_eq_ok, Prod.exists]
        constructor
        · rintro ⟨-, h2, w1, s1, ⟨h3, h4, rfl⟩, h5⟩
          refine ⟨⟨h2, h3⟩, ?_⟩
          rw [h4, ← Except.ok.inj h5]
          rfl
        · rintro ⟨⟨h2, h3⟩, rfl⟩
          obtain ⟨w1, h4⟩ := wordAt_of_readable h3
          refine ⟨(), h2, w1, _, ⟨h3, h4, rfl⟩, ?_⟩
          rw [h4]
          rfl
      · simp only [h0, h1, if_false, bind_eq_ok, memRead_eq_ok, Prod.exists, Bool.and_eq_true]
        constructor
        · rintro ⟨-, h2, w0, s1, ⟨h3, h4, rfl⟩, w1, s2, ⟨h5, h6, rfl⟩, h7⟩
          refine ⟨⟨h2, h3, h5⟩, ?_⟩
          rw [wordAt_afterLoads] at h6
          rw [h4, h6, ← Except.ok.inj h7, afterLoads_afterLoads]
          rfl
        · rintro ⟨⟨h2, h3, h5⟩, rfl⟩
          obtain ⟨w0, h4⟩ := wordAt_of_readable h3
          obtain ⟨w1, h6⟩ := wordAt_of_readable h5
          refine ⟨(), h2, w0, _, ⟨h3, h4, rfl⟩, w1, _, ⟨h5, h6, rfl⟩, ?_⟩
          rw [h4, h6, afterLoads_afterLoads]
          rfl

/-- The words a bind at `p` loads (R136). -/
def bindLoads (s : State) (p : Nat) : List Nat :=
  match s.params.strategy with
  | .direct => []
  | .cached => [p, p + 1]

/-- The reader context after a bind at `p`, offset `off` (R131, R132). -/
def boundReader (s : State) (p off : Nat) : ReaderCtx where
  bound := true
  idx := p
  ofs := off
  c0 := match s.params.strategy with
    | .direct => s.rc.c0
    | .cached => (wordAt s p).getD 0
  c1 := match s.params.strategy with
    | .direct => s.rc.c1
    | .cached => (wordAt s (p + 1)).getD 0

theorem bufBind_eq_ok {p : Nat} {s t : State} :
    bufBind p s = .ok t ↔
      bindReady s p = true ∧
        t = { afterLoads (bindLoads s p) s with
          rc := { boundReader s p s.rc.ofs with bound := s.rc.bound } } := by
  simp only [bufBind, bindReady, bindLoads, boundReader]
  cases s.params.strategy with
  | direct => simp [eq_comm]
  | cached =>
    simp only [bind_eq_ok, memRead_eq_ok, Prod.exists, Bool.and_eq_true]
    constructor
    · rintro ⟨w0, s1, ⟨h1, h2, rfl⟩, w1, s2, ⟨h3, h4, rfl⟩, h5⟩
      have h2' : wordAt s p = some w0 := h2
      have h4' : wordAt s (p + 1) = some w1 := h4
      refine ⟨⟨h1, h3⟩, ?_⟩
      rw [h2', h4', ← Except.ok.inj h5, afterLoads_afterLoads]
      rfl
    · rintro ⟨⟨h1, h3⟩, rfl⟩
      obtain ⟨w0, h2⟩ := wordAt_of_readable h1
      obtain ⟨w1, h4⟩ := wordAt_of_readable h3
      refine ⟨w0, _, ⟨h1, h2, rfl⟩, w1, _, ⟨h3, h4, rfl⟩, ?_⟩
      rw [h2, h4, afterLoads_afterLoads]
      rfl

/-! ### The bit cursor (42_cursor_extractor.md) -/

/-- The state after an advance by `n` bits (R151). -/
def afterCursorAdvance (n : Nat) (s : State) : State :=
  { afterLoads (advanceLoads s ((s.rc.ofs + n) / s.params.W)) s with
    rc := { advancedReader s ((s.rc.ofs + n) / s.params.W) with
      ofs := (s.rc.ofs + n) % s.params.W } }

theorem cursorAdvance_eq_ok {n : Nat} {s t : State} :
    cursorAdvance n s = .ok t ↔
      advanceInContract s ((s.rc.ofs + n) / s.params.W) = true ∧ t = afterCursorAdvance n s := by
  simp only [cursorAdvance, bind_eq_ok, bufAdvance_eq_ok, afterCursorAdvance]
  constructor
  · rintro ⟨s1, ⟨h1, rfl⟩, h2⟩
    exact ⟨h1, (Except.ok.inj h2).symm⟩
  · rintro ⟨h1, rfl⟩
    exact ⟨_, ⟨h1, rfl⟩, rfl⟩

/-- The loads `curr()` and `next()` issue for an extract (R152). -/
def extractViewLoads (s : State) : List Nat :=
  viewLoads s s.rc.idx ++ viewLoads s (s.rc.idx + 1)

theorem cursorExtract_eq_ok {n : Nat} {s t : State} {v : Word} :
    cursorExtract n s = .ok (v, t) ↔
      fieldFits s.params.W s.rc.ofs n = true ∧ (n = 0 ∨ s.rc.ofs < s.params.W) ∧
        viewReady s s.rc.idx = true ∧ viewReady s (s.rc.idx + 1) = true ∧
        advanceInContract s ((s.rc.ofs + n) / s.params.W) = true ∧
        v = (doubleWord s.params.W ((readerWord s s.rc.idx).getD 0)
              ((readerWord s (s.rc.idx + 1)).getD 0) >>> s.rc.ofs) % 2 ^ n ∧
        t = afterCursorAdvance n (afterLoads (extractViewLoads s) s) := by
  simp only [cursorExtract, bind_eq_ok, requireFieldWidth_eq_ok, bufCurr_eq_ok, bufNext_eq_ok,
    extractBitRange_eq_ok, cursorAdvance_eq_ok, Prod.exists]
  constructor
  · rintro ⟨_, h1, w0, s1, ⟨h2, h3, rfl⟩, w1, s2, ⟨h4, h5, rfl⟩, x, ⟨h6, rfl⟩, s3, ⟨h7, rfl⟩, h8⟩
    have h5' : readerWord s (s.rc.idx + 1) = some w1 := h5
    have h8' := Except.ok.inj h8
    rw [Prod.mk.injEq] at h8'
    rw [afterLoads_afterLoads] at h8'
    refine ⟨h1, h6.imp_right And.left, h2, h4, h7, ?_, h8'.2.symm⟩
    rw [h3, h5', ← h8'.1]
    rfl
  · rintro ⟨h1, h6, h2, h4, h7, rfl, rfl⟩
    obtain ⟨w0, h3⟩ := readerWord_of_viewReady h2 (.inl rfl)
    obtain ⟨w1, h5⟩ := readerWord_of_viewReady h4 (.inr rfl)
    refine ⟨(), h1, w0, _, ⟨h2, h3, rfl⟩, w1, _, ⟨h4, h5, rfl⟩, _,
      ⟨h6.imp_right fun h => ⟨h, h1⟩, rfl⟩, _, ⟨h7, rfl⟩, ?_⟩
    rw [h3, h5, afterLoads_afterLoads]
    rfl

/-! ### The writer's cursor (43_writer.md) -/

theorem wcursorAdvance_eq_ok {n : Nat} {s t : State} :
    wcursorAdvance n s = .ok t ↔
      writerAdvanceInContract s n = true ∧
        t = { s with wc :=
          { s.wc with
            idx := s.wc.idx + (s.wc.ofs + n) / s.params.W
            ofs := (s.wc.ofs + n) % s.params.W } } := by
  simp only [wcursorAdvance, bind_eq_ok, require_eq_ok, writerAdvanceInContract]
  constructor
  · rintro ⟨_, h1, h2⟩
    exact ⟨h1, (Except.ok.inj h2).symm⟩
  · rintro ⟨h1, rfl⟩
    exact ⟨(), h1, rfl⟩

end Sys2Proof.Machine
end

