-- ==== Sys2Proof/Laws/Bits.lean ====
section
/-! SUPPORT. The bit-level laws of the stateless procedures: one lemma each that gives every bit of the result. -/

namespace Sys2Proof.Machine

open Sys2Proof

/-- A bit at or above the width of a value is 0. -/
theorem testBit_above {v n j : Nat} (hv : v < 2 ^ n) (h : n ≤ j) : v.testBit j = false :=
  Nat.testBit_lt_two_pow (lt_of_lt_of_le hv (Nat.pow_le_pow_right (by norm_num) h))

/-- Bits of the two-word value `{b : a}` (00_scope.md R11). -/
theorem doubleWord_testBit {w a b j : Nat} (ha : a < 2 ^ w) :
    (doubleWord w a b).testBit j = if j < w then a.testBit j else b.testBit (j - w) := by
  have : doubleWord w a b = 2 ^ w * b + a := by unfold doubleWord; ring
  rw [this, Nat.testBit_two_pow_mul_add _ ha]

theorem lowMask_testBit (n j : Nat) : (lowMask n).testBit j = decide (j < n) := by
  simp [lowMask, Nat.testBit_two_pow_sub_one]

theorem notW_testBit {w x : Nat} (h : x < 2 ^ w) (j : Nat) :
    (notW w x).testBit j = (decide (j < w) && !x.testBit j) := by
  have : 2 ^ w - 1 - x = 2 ^ w - (x + 1) := by omega
  rw [notW, this, Nat.testBit_two_pow_sub_succ h]

/-- Where the mask is set the new bits stand, elsewhere the old ones (40_primitives.md R111). -/
theorem mergeBits_testBit {w old mask v : Nat} (hm : mask < 2 ^ w) (j : Nat) :
    (mergeBits w old mask v).testBit j =
      if mask.testBit j then v.testBit j else (old.testBit j && decide (j < w)) := by
  rw [mergeBits, Nat.testBit_or, Nat.testBit_and, Nat.testBit_and, notW_testBit hm]
  cases mask.testBit j <;> simp

/-- A set that fits its word replaces exactly the bits of the field (40_primitives.md R111, 20_memory.md R49). -/
theorem insertedWord_testBit {w old val off n : Nat} (h : off + n ≤ w) (ho : old < 2 ^ w) (j : Nat) :
    (insertedWord w old val off n).testBit j =
      if off ≤ j ∧ j < off + n then val.testBit (j - off) else old.testBit j := by
  rw [insertedWord, mergeBits_testBit (Nat.mod_lt _ (by positivity)), Nat.testBit_mod_two_pow,
    Nat.testBit_shiftLeft, lowMask_testBit, Nat.testBit_shiftLeft]
  by_cases hj : j < w
  · by_cases h1 : off ≤ j
    · by_cases h2 : j < off + n
      · have : j - off < n := by omega
        simp [*]
      · have : ¬j - off < n := by omega
        simp [*]
    · simp [*]
  · have h3 := testBit_above ho (Nat.le_of_not_lt hj)
    have : ¬(off ≤ j ∧ j < off + n) := by omega
    simp [*]

theorem insertedWord_lt {w old val off n : Nat} (h : off + n ≤ w) (ho : old < 2 ^ w) :
    insertedWord w old val off n < 2 ^ w := by
  apply Nat.lt_pow_two_of_testBit
  intro j hj
  rw [insertedWord_testBit h ho, if_neg (by omega)]
  exact testBit_above ho hj

/-- The second word of a straddling set is a set at offset 0 (40_primitives.md R111). -/
theorem mergeBits_low {w old val n : Nat} (h : n ≤ w) :
    mergeBits w old (lowMask n) val = insertedWord w old val 0 n := by
  rw [insertedWord, Nat.shiftLeft_zero, Nat.shiftLeft_zero, Nat.mod_eq_of_lt]
  have h1 : 2 ^ n ≤ 2 ^ w := Nat.pow_le_pow_right (by norm_num) h
  have h2 : 0 < 2 ^ n := by positivity
  unfold lowMask
  omega

/-- The bits of a fixed-up value: those of the value, and its sign above them if it is signed (40_primitives.md R116). -/
theorem fixup_testBit {w v n : Nat} (sign : Signedness) (hv : v < 2 ^ n) (hn : n ≤ w) (j : Nat) :
    (fixup w v n sign).testBit j =
      if sign = .signed ∧ 0 < n ∧ n ≤ j ∧ j < w then v.testBit (n - 1) else v.testBit j := by
  unfold fixup
  cases sign with
  | unsigned => simp
  | signed =>
    simp only [true_and]
    by_cases h0 : n = 0
    · simp [h0]
    · by_cases h1 : n ≥ w
      · have : ¬(0 < n ∧ n ≤ j ∧ j < w) := by omega
        simp [h0, h1, this]
      · cases hb : v.testBit (n - 1) with
        | false =>
          simp only [h0, h1, if_false, Bool.false_eq_true]
          split_ifs with hq
          · exact testBit_above hv hq.2.1
          · rfl
        | true =>
          simp only [h0, h1, if_false, if_true, Nat.testBit_or, Nat.testBit_mod_two_pow,
            Nat.testBit_shiftLeft, lowMask_testBit]
          by_cases h2 : n ≤ j
          · by_cases h3 : j < w
            · have : j - n < w := by omega
              have : 0 < n := by omega
              simp [*]
            · simp [*]
          · simp [h2]

theorem fixup_lt {w v n : Nat} {sign : Signedness} (h : v < 2 ^ n) (hn : n ≤ w) :
    fixup w v n sign < 2 ^ w := by
  have hv : v < 2 ^ w := lt_of_lt_of_le h (Nat.pow_le_pow_right (by norm_num) hn)
  unfold fixup
  split
  · exact hv
  · split_ifs
    · exact hv
    · exact hv
    · exact Nat.or_lt_two_pow hv (Nat.mod_lt _ (by positivity))
    · exact hv

/-- The part of a number under a shifted mask is one of its fields (30_encoding.md R75, R77). -/
theorem and_fieldMask (w lo n : Nat) :
    w &&& (lowMask n <<< lo) = bitsAt w lo n <<< lo := by
  apply Nat.eq_of_testBit_eq
  intro j
  simp only [Nat.testBit_and, Nat.testBit_shiftLeft, lowMask_testBit, bitsAt, Nat.testBit_mod_two_pow,
    Nat.testBit_div_two_pow]
  by_cases h : lo ≤ j
  · have : j - lo + lo = j := by omega
    simp [h, this, Bool.and_comm]
  · simp [h]

end Sys2Proof.Machine
end

