-- ==== Sys2Proof/Laws/Reader.lean ====
section
/-! SUPPORT. Extracting fields one after the other: the contract at the stream position, the values the reader sees, the
cursor after. -/

namespace Sys2Proof.Machine

open Sys2Proof

theorem readerPos_div {s : State} (h : s.rc.ofs < s.params.W) :
    readerPos s / s.params.W = s.rc.idx := by
  rw [readerPos, Nat.add_comm, Nat.add_mul_div_right _ _ s.params.W_pos, Nat.div_eq_of_lt h, zero_add]

theorem readerPos_mod {s : State} (h : s.rc.ofs < s.params.W) :
    readerPos s % s.params.W = s.rc.ofs := by
  rw [readerPos, Nat.add_comm, Nat.add_mul_mod_self_right, Nat.mod_eq_of_lt h]

/-- Moving the bit address on by `n` moves the word index by `(OFS + n) div W` (42_cursor_extractor.md R151). -/
theorem readerPos_add_div (s : State) (n : Nat) :
    (readerPos s + n) / s.params.W = s.rc.idx + (s.rc.ofs + n) / s.params.W := by
  rw [readerPos, Nat.add_assoc, Nat.add_comm (s.rc.idx * _), Nat.add_mul_div_right _ _ s.params.W_pos,
    Nat.add_comm]

theorem readerPos_add_mod (s : State) (n : Nat) :
    (readerPos s + n) % s.params.W = (s.rc.ofs + n) % s.params.W := by
  rw [readerPos, Nat.add_assoc, Nat.add_comm (s.rc.idx * _), Nat.add_mul_mod_self_right]

/-- An extract moves on by at most one word (42_cursor_extractor.md R151). -/
theorem extract_wordDelta {w ofs n : Nat} (hw : 0 < w) (h1 : ofs < w) (h2 : n ≤ w) :
    (ofs + n) / w = 0 ∨ (ofs + n) / w = 1 := by
  have : (ofs + n) / w < 2 := (Nat.div_lt_iff_lt_mul hw).mpr (by omega)
  generalize (ofs + n) / w = d at *
  omega

/-- What `cursor_extract` asks for is the contract of one field at the reader's position. -/
theorem extractInContract_one {s : State} {f : Field} (h : s.rc.ofs < s.params.W) :
    extractInContract s (readerPos s) [f] = true ↔
      fieldFits s.params.W s.rc.ofs f.bits = true ∧
        viewReady s s.rc.idx = true ∧ viewReady s (s.rc.idx + 1) = true ∧
        advanceInContract s ((s.rc.ofs + f.bits) / s.params.W) = true := by
  simp only [extractInContract, readerPos_mod h, readerPos_div h, readerPos_add_div, Bool.and_true,
    Bool.and_eq_true]
  refine and_congr_right fun h1 => ?_
  have h2 := extract_wordDelta s.params.W_pos h (fieldFits_le h1)
  unfold viewReady advanceInContract
  cases s.params.strategy with
  | direct =>
    simp only [Bool.and_eq_true, Bool.and_true, decide_eq_true_eq]
    refine ⟨fun ⟨h3, h4⟩ => ⟨h3, h4, ?_⟩, fun ⟨h3, h4, _⟩ => ⟨h3, h4⟩⟩
    have h5 : s.rc.idx + 1 < s.params.indexCount := by
      simp only [readable, Bool.and_eq_true, decide_eq_true_eq] at h4
      exact h4.1.1
    omega
  | cached =>
    rcases h2 with h2 | h2 <;> simp [h2]

theorem extractInContract_cons {s : State} {pos : Nat} {f : Field} {fs : List Field} :
    extractInContract s pos (f :: fs) = true ↔
      extractInContract s pos [f] = true ∧ extractInContract s (pos + f.bits) fs = true := by
  simp [extractInContract]

/-- The contract of an extract depends on the parameters, the memory and the other agents only. -/
theorem extractInContract_congr {s t : State} (h1 : t.params = s.params) (h2 : t.mem = s.mem)
    (h3 : t.rivals = s.rivals) (pos : Nat) (fs : List Field) :
    extractInContract t pos fs = extractInContract s pos fs := by
  induction fs generalizing pos with
  | nil => rfl
  | cons f fs ih => simp [extractInContract, ih, h1, readable_congr h1 h2 h3]

/-! ### The state after -/

@[simp] theorem afterCursorAdvance_params (n : Nat) (s : State) :
    (afterCursorAdvance n s).params = s.params := rfl
@[simp] theorem afterCursorAdvance_wc (n : Nat) (s : State) :
    (afterCursorAdvance n s).wc = s.wc := rfl
@[simp] theorem afterCursorAdvance_ports (n : Nat) (s : State) :
    (afterCursorAdvance n s).ports = s.ports := rfl
@[simp] theorem afterCursorAdvance_results (n : Nat) (s : State) :
    (afterCursorAdvance n s).results = s.results := rfl
@[simp] theorem afterCursorAdvance_mem (n : Nat) (s : State) :
    (afterCursorAdvance n s).mem = s.mem := rfl
@[simp] theorem afterCursorAdvance_inputs (n : Nat) (s : State) :
    (afterCursorAdvance n s).inputs = s.inputs := rfl
@[simp] theorem afterCursorAdvance_rivals (n : Nat) (s : State) :
    (afterCursorAdvance n s).rivals = s.rivals := rfl
@[simp] theorem afterCursorAdvance_completions (n : Nat) (s : State) :
    (afterCursorAdvance n s).completions = s.completions := rfl
@[simp] theorem afterCursorAdvance_trace (n : Nat) (s : State) :
    (afterCursorAdvance n s).trace =
      s.trace ++ (advanceLoads s ((s.rc.ofs + n) / s.params.W)).map .load := rfl
@[simp] theorem afterCursorAdvance_bound (n : Nat) (s : State) :
    (afterCursorAdvance n s).rc.bound = s.rc.bound := by simp [afterCursorAdvance]
@[simp] theorem afterCursorAdvance_idx (n : Nat) (s : State) :
    (afterCursorAdvance n s).rc.idx = s.rc.idx + (s.rc.ofs + n) / s.params.W := by
  simp [afterCursorAdvance]
@[simp] theorem afterCursorAdvance_ofs (n : Nat) (s : State) :
    (afterCursorAdvance n s).rc.ofs = (s.rc.ofs + n) % s.params.W := rfl

/-- "After the procedure the bit address has grown by exactly `n`" (42_cursor_extractor.md R151). -/
theorem readerPos_afterCursorAdvance (n : Nat) (s : State) :
    readerPos (afterCursorAdvance n s) = readerPos s + n := by
  simp only [readerPos, afterCursorAdvance_params, afterCursorAdvance_idx, afterCursorAdvance_ofs,
    Nat.add_mul]
  have := Nat.div_add_mod' (s.rc.ofs + n) s.params.W
  omega

/-- The state after an extract of `n` bits inside its contract (42_cursor_extractor.md R152). -/
def afterExtract (n : Nat) (s : State) : State :=
  afterCursorAdvance n (afterLoads (extractViewLoads s) s)

/-- The words the reader sees from its new place on are those it saw before (20_memory.md R62). -/
theorem readerWord_afterExtract {s : State} {f : Field} {i : Nat} (h : s.rc.ofs < s.params.W)
    (hc : extractInContract s (readerPos s) [f] = true) (hi : (afterExtract f.bits s).rc.idx ≤ i) :
    readerWord (afterExtract f.bits s) i = readerWord s i := by
  obtain ⟨h1, -, -, h2⟩ := (extractInContract_one h).mp hc
  have h3 := extract_wordDelta s.params.W_pos h (fieldFits_le h1)
  unfold readerWord advanceInContract at *
  simp only [afterExtract, afterCursorAdvance_params, afterCursorAdvance_idx, afterLoads_params,
    afterLoads_rc] at hi ⊢
  cases hs : s.params.strategy with
  | direct => rfl
  | cached =>
    simp only [hs, Bool.and_eq_true] at h2
    have h4 : wordAt (afterCursorAdvance f.bits (afterLoads (extractViewLoads s) s)) i =
        wordAt s i := rfl
    simp only [h4]
    rcases h3 with h3 | h3
    · simp [afterCursorAdvance, advancedReader, hs, h3]
    · simp only [h3, Nat.one_ne_zero, if_false, if_true] at h2 hi ⊢
      obtain ⟨w, hw⟩ := wordAt_of_readable h2.2
      have h5 : i ≠ s.rc.idx := by omega
      by_cases h6 : i = s.rc.idx + 1
      · simp [h6, afterCursorAdvance, advancedReader, hs, h3]
      · by_cases h7 : i = s.rc.idx + 1 + 1
        · have h8 : s.rc.idx + 1 + 1 ≠ s.rc.idx := by omega
          simp [h7, h8, afterCursorAdvance, advancedReader, hs, h3, hw]
        · simp [h5, h6, h7]

/-- The fields from the reader's new place on are those it saw before. -/
theorem readerResult_afterExtract {s : State} {f g : Field} {pos : Nat}
    (h : s.rc.ofs < s.params.W) (hc : extractInContract s (readerPos s) [f] = true)
    (hp : readerPos s + f.bits ≤ pos) :
    readerResult (afterExtract f.bits s) pos g = readerResult s pos g := by
  have h1 : (afterExtract f.bits s).rc.idx ≤ pos / s.params.W := by
    have : (afterExtract f.bits s).rc.idx = (readerPos s + f.bits) / s.params.W := by
      rw [readerPos_add_div]; simp [afterExtract]
    rw [this]
    exact Nat.div_le_div_right hp
  have h2 : (afterExtract f.bits s).params = s.params := rfl
  simp only [readerResult, readerField, h2]
  rw [readerWord_afterExtract h hc h1, readerWord_afterExtract h hc (Nat.le_succ_of_le h1)]

/-- The values of the fields from stream bit `pos` on, as the reader sees them. -/
def readerResults (s : State) (pos : Nat) : List Field → List Word
  | [] => []
  | f :: fs => readerResult s pos f :: readerResults s (pos + f.bits) fs

theorem readerResults_afterExtract {s : State} {f : Field} {pos : Nat} (fs : List Field)
    (h : s.rc.ofs < s.params.W) (hc : extractInContract s (readerPos s) [f] = true)
    (hp : readerPos s + f.bits ≤ pos) :
    readerResults (afterExtract f.bits s) pos fs = readerResults s pos fs := by
  induction fs generalizing pos with
  | nil => rfl
  | cons g gs ih =>
    rw [readerResults, readerResults, readerResult_afterExtract h hc hp, ih (by omega)]

/-- The state after several extracts. -/
def afterExtracts : List Field → State → State
  | [], s => s
  | f :: fs, s => afterExtracts fs (afterExtract f.bits s)

theorem extractField_eq_ok {f : Field} {s t : State} {v : Word} (h : s.rc.ofs < s.params.W) :
    extractField f s = .ok (v, t) ↔
      extractInContract s (readerPos s) [f] = true ∧
        v = readerResult s (readerPos s) f ∧ t = afterExtract f.bits s := by
  simp only [extractField, bind_eq_ok, cursorExtract_eq_ok, Prod.exists]
  rw [extractInContract_one h]
  simp only [readerResult, readerField, readerPos_div h, readerPos_mod h]
  constructor
  · rintro ⟨x, s1, ⟨h1, -, h2, h3, h4, rfl, rfl⟩, h5⟩
    have h5' := Except.ok.inj h5
    rw [Prod.mk.injEq] at h5'
    exact ⟨⟨h1, h2, h3, h4⟩, h5'.1.symm, h5'.2.symm⟩
  · rintro ⟨⟨h1, h2, h3, h4⟩, rfl, rfl⟩
    exact ⟨_, _, ⟨h1, .inr h, h2, h3, h4, rfl, rfl⟩, rfl⟩

theorem afterExtract_ofs_lt (n : Nat) (s : State) :
    (afterExtract n s).rc.ofs < (afterExtract n s).params.W :=
  Nat.mod_lt _ s.params.W_pos

theorem readerPos_afterExtract (n : Nat) (s : State) :
    readerPos (afterExtract n s) = readerPos s + n := readerPos_afterCursorAdvance n _

/-- Everything a fused extract can do (42_cursor_extractor.md R155 to R158). -/
theorem extractFields_eq_ok {fs : List Field} {s t : State} {vs : List Word}
    (h : s.rc.ofs < s.params.W) :
    extractFields fs s = .ok (vs, t) ↔
      extractInContract s (readerPos s) fs = true ∧
        vs = readerResults s (readerPos s) fs ∧ t = afterExtracts fs s := by
  induction fs generalizing s t vs with
  | nil =>
    simp only [extractFields, extractInContract, readerResults, afterExtracts, true_and,
      Except.ok.injEq, Prod.mk.injEq]
    exact and_congr eq_comm eq_comm
  | cons f fs ih =>
    simp only [extractFields, bind_eq_ok, extractField_eq_ok h, Prod.exists]
    rw [extractInContract_cons (fs := fs)]
    have h0 := afterExtract_ofs_lt f.bits s
    have h1 := fun vs t => @ih (afterExtract f.bits s) t vs
    simp only [readerPos_afterExtract,
      extractInContract_congr (t := afterExtract f.bits s) (s := s) rfl rfl rfl] at h1
    constructor
    · rintro ⟨v, s1, ⟨h2, rfl, rfl⟩, ws, s2, h3, h4⟩
      obtain ⟨h5, rfl, rfl⟩ := (h1 _ _ h0).mp h3
      have h4' := Except.ok.inj h4
      rw [Prod.mk.injEq, readerResults_afterExtract fs h h2 (le_refl _)] at h4'
      exact ⟨⟨h2, h5⟩, h4'.1.symm, h4'.2.symm⟩
    · rintro ⟨⟨h2, h5⟩, rfl, rfl⟩
      refine ⟨_, _, ⟨h2, rfl, rfl⟩, _, _, (h1 _ _ h0).mpr ⟨h5, rfl, rfl⟩, ?_⟩
      rw [readerResults_afterExtract fs h h2 (le_refl _)]
      rfl

/-- Whatever its registers hold, the state after several extracts is the explicit one. -/
theorem extractFields_state {fs : List Field} {s t : State} {vs : List Word}
    (h : extractFields fs s = .ok (vs, t)) : t = afterExtracts fs s := by
  induction fs generalizing s t vs with
  | nil => exact (Prod.mk.inj (Except.ok.inj h)).2.symm
  | cons f fs ih =>
    simp only [extractFields, extractField, bind_eq_ok, cursorExtract_eq_ok, Prod.exists] at h
    obtain ⟨v, s1, ⟨x, s2, ⟨-, -, -, -, -, -, rfl⟩, h2⟩, ws, s3, h3, h4⟩ := h
    cases h2
    cases h4
    exact ih h3

theorem afterExtracts_frame (fs : List Field) (s : State) :
    (afterExtracts fs s).params = s.params ∧ (afterExtracts fs s).wc = s.wc ∧
      (afterExtracts fs s).ports = s.ports ∧ (afterExtracts fs s).mem = s.mem ∧
      (afterExtracts fs s).inputs = s.inputs ∧ (afterExtracts fs s).rivals = s.rivals ∧
      (afterExtracts fs s).completions = s.completions ∧
      (afterExtracts fs s).rc.bound = s.rc.bound := by
  induction fs generalizing s with
  | nil => simp [afterExtracts]
  | cons f fs ih => simpa [afterExtracts, afterExtract] using ih (afterExtract f.bits s)

theorem readerPos_afterExtracts (fs : List Field) (s : State) :
    readerPos (afterExtracts fs s) = readerPos s + totalBits fs := by
  induction fs generalizing s with
  | nil => simp [afterExtracts, totalBits]
  | cons f fs ih =>
    rw [afterExtracts, ih, readerPos_afterExtract]
    simp [totalBits]
    omega

theorem afterExtracts_ofs_lt (fs : List Field) {s : State} (h : s.rc.ofs < s.params.W) :
    (afterExtracts fs s).rc.ofs < (afterExtracts fs s).params.W := by
  induction fs generalizing s with
  | nil => exact h
  | cons f fs ih => exact ih (afterExtract_ofs_lt f.bits s)

end Sys2Proof.Machine
end

