-- ==== Sys2Proof/Laws/Exec.lean ====
section
/-! SUPPORT. One lemma per command that says everything its meaning can do: it answers a next state exactly when this
condition holds, and then exactly this state. Later proofs cite these and unfold no meaning. -/

namespace Sys2Proof.Machine

open Sys2Proof

theorem exec_shw_eq_next {n : Nat} {s t : State} :
    exec (.shw n) s = .next t ↔
      inContract (.shw n) s = true ∧
        t = respond [shiftWindow s.params.W s.ports.a s.ports.b n] s := by
  simp only [exec, execShw, conclude_eq_next, bind_eq_ok, require_eq_ok, inContract]
  constructor
  · rintro ⟨_, h1, h2⟩
    exact ⟨h1, (Except.ok.inj h2).symm⟩
  · rintro ⟨h1, rfl⟩
    exact ⟨(), h1, rfl⟩

theorem exec_xbr_eq_next {n off : Nat} {s t : State} :
    exec (.xbr n off) s = .next t ↔
      inContract (.xbr n off) s = true ∧
        t = respond [(doubleWord s.params.W s.ports.a s.ports.b >>> off) % 2 ^ n] s := by
  simp only [exec, execXbr, conclude_eq_next, bind_eq_ok, extractBitRange_eq_ok, inContract,
    Bool.or_eq_true, Bool.and_eq_true, decide_eq_true_eq]
  constructor
  · rintro ⟨v, ⟨h1, rfl⟩, h2⟩
    exact ⟨h1, (Except.ok.inj h2).symm⟩
  · rintro ⟨h1, rfl⟩
    exact ⟨_, ⟨h1, rfl⟩, rfl⟩

/-- The loads of XBRM, by policy (40_primitives.md R108). -/
def xbrmLoads (s : State) (off n : Nat) : List Nat :=
  match s.params.word1Policy with
  | .unconditional => [s.ports.p, s.ports.p + 1]
  | .conditional =>
    if n = 0 then []
    else if off + n > s.params.W then [s.ports.p, s.ports.p + 1]
    else [s.ports.p]

/-- The two-word window of the memory at the word `P` names. -/
def memoryField (s : State) (p off n : Nat) : Word :=
  (doubleWord s.params.W ((wordAt s p).getD 0) ((wordAt s (p + 1)).getD 0) >>> off) % 2 ^ n

theorem exec_xbrm_eq_next {n off : Nat} {s t : State} :
    exec (.xbrm n off) s = .next t ↔
      inContract (.xbrm n off) s = true ∧
        t = respond [memoryField s s.ports.p off n] (afterLoads (xbrmLoads s off n) s) := by
  simp only [exec, execXbrm, conclude_eq_next, bind_eq_ok, require_eq_ok, inContract, xbrmWordsReady,
    xbrmLoads, memoryField, Bool.or_eq_true, Bool.and_eq_true, decide_eq_true_eq]
  cases s.params.word1Policy with
  | unconditional =>
    simp only [bind_eq_ok, memRead_eq_ok, extractBitRange_eq_ok, Prod.exists, Bool.and_eq_true]
    constructor
    · rintro ⟨_, h1, w0, s1, ⟨h2, h3, rfl⟩, w1, s2, ⟨h4, h5, rfl⟩, v, ⟨h6, rfl⟩, h7⟩
      rw [wordAt_afterLoads] at h5
      refine ⟨⟨⟨h1, h6⟩, h2, h4⟩, ?_⟩
      rw [h3, h5, ← Except.ok.inj h7, afterLoads_afterLoads]
      rfl
    · rintro ⟨⟨⟨h1, h6⟩, h2, h4⟩, rfl⟩
      obtain ⟨w0, h3⟩ := wordAt_of_readable h2
      obtain ⟨w1, h5⟩ := wordAt_of_readable h4
      refine ⟨(), h1, w0, _, ⟨h2, h3, rfl⟩, w1, _, ⟨h4, h5, rfl⟩, _, ⟨h6, rfl⟩, ?_⟩
      rw [h3, h5, afterLoads_afterLoads]
      rfl
  | conditional =>
    by_cases h0 : n = 0
    · subst h0
      simp only [if_true, true_or, and_true, pow_zero, Nat.mod_one, Bool.or_eq_true, decide_true,
        afterLoads_nil]
      constructor
      · rintro ⟨_, h1, h2⟩
        exact ⟨h1, (Except.ok.inj h2).symm⟩
      · rintro ⟨h1, rfl⟩
        exact ⟨(), h1, rfl⟩
    · simp only [h0, if_false, bind_eq_ok, memRead_eq_ok, Prod.exists,
        Bool.or_eq_true, Bool.and_eq_true, decide_eq_true_eq, false_or]
      by_cases h8 : off + n > s.params.W
      · have h9 : ¬(off + n ≤ s.params.W) := by omega
        simp only [h8, if_true, bind_eq_ok, memRead_eq_ok, extractBitRange_eq_ok, Prod.exists, h9, false_or]
        constructor
        · rintro ⟨_, h1, w0, s1, ⟨h2, h3, rfl⟩, w1, s2, ⟨h4, h5, rfl⟩, v, ⟨h6, rfl⟩, h7⟩
          rw [wordAt_afterLoads] at h5
          refine ⟨⟨⟨h1, h6.resolve_left h0⟩, h2, h4⟩, ?_⟩
          rw [h3, h5, ← Except.ok.inj h7, afterLoads_afterLoads]
          rfl
        · rintro ⟨⟨⟨h1, h6⟩, h2, h4⟩, rfl⟩
          obtain ⟨w0, h3⟩ := wordAt_of_readable h2
          obtain ⟨w1, h5⟩ := wordAt_of_readable h4
          refine ⟨(), h1, w0, _, ⟨h2, h3, rfl⟩, w1, _, ⟨h4, h5, rfl⟩, _, ⟨.inr h6, rfl⟩, ?_⟩
          rw [h3, h5, afterLoads_afterLoads]
          rfl
      · have h9 : off + n ≤ s.params.W := by omega
        simp only [h8, if_false, h9, true_or, and_true, bind_eq_ok, extractBitRange_eq_ok]
        constructor
        · rintro ⟨_, h1, w0, s1, ⟨h2, h3, rfl⟩, w, hw, v, ⟨h6, rfl⟩, h7⟩
          obtain rfl := Except.ok.inj hw
          refine ⟨⟨⟨h1, h6.resolve_left h0⟩, h2⟩, ?_⟩
          rw [h3, ← Except.ok.inj h7, doubleWord_field_low h9, doubleWord_field_low h9]
          rfl
        · rintro ⟨⟨⟨h1, h6⟩, h2⟩, rfl⟩
          obtain ⟨w0, h3⟩ := wordAt_of_readable h2
          refine ⟨(), h1, w0, _, ⟨h2, h3, rfl⟩, _, rfl, _, ⟨.inr h6, rfl⟩, ?_⟩
          rw [h3, doubleWord_field_low h9, doubleWord_field_low h9]
          rfl

theorem exec_sbr_eq_next {n off : Nat} {s t : State} :
    exec (.sbr n off) s = .next t ↔
      inContract (.sbr n off) s = true ∧
        t = respond [] (afterSet s.ports.p s.ports.a off n s) := by
  simp only [exec, execSbr, conclude_eq_next, bind_eq_ok, require_eq_ok, setBitRange_eq_ok,
    inContract, decide_eq_true_eq]
  constructor
  · rintro ⟨_, h1, s1, ⟨h2, rfl⟩, h3⟩
    exact ⟨h2, (Except.ok.inj h3).symm⟩
  · rintro ⟨h2, rfl⟩
    refine ⟨(), ?_, _, ⟨h2, rfl⟩, rfl⟩
    intro hn
    simp only [writeInContract, writable, Bool.or_eq_true, Bool.and_eq_true, decide_eq_true_eq] at h2
    rcases h2 with h2 | h2
    · omega
    · exact h2.1.2.1.1

theorem exec_sxt_eq_next {f : Field} {s t : State} :
    exec (.sxt f) s = .next t ↔
      inContract (.sxt f) s = true ∧
        t = respond [fixup s.params.W s.ports.a f.bits f.sign] s := by
  simp only [exec, execSxt, conclude_eq_next, bind_eq_ok, require_eq_ok, inContract,
    Bool.and_eq_true]
  constructor
  · rintro ⟨_, h1, _, h2, h3⟩
    exact ⟨⟨h1, h2⟩, (Except.ok.inj h3).symm⟩
  · rintro ⟨⟨h1, h2⟩, rfl⟩
    exact ⟨(), h1, (), h2, rfl⟩

/-- The state after a bind of the reader (41_buffer_strategy.md R131). -/
def afterBind (p off : Nat) (s : State) : State :=
  { afterLoads (bindLoads s p) s with rc := boundReader s p off }

theorem index_of_readable {s : State} {i : Nat} (h : readable s i = true) :
    i < s.params.indexCount := by
  simp only [readable, Bool.and_eq_true, decide_eq_true_eq] at h
  exact h.1.1

theorem exec_bindr_eq_next {off : Nat} {s t : State} :
    exec (.bindr off) s = .next t ↔
      inContract (.bindr off) s = true ∧ t = respond [] (afterBind s.ports.p off s) := by
  simp only [exec, execBindr, conclude_eq_next, bind_eq_ok, require_eq_ok, bufBind_eq_ok, inContract,
    Bool.and_eq_true, decide_eq_true_eq]
  constructor
  · rintro ⟨_, h1, _, h2, _, h3, s1, ⟨h4, rfl⟩, h5⟩
    exact ⟨⟨⟨h1, h2⟩, h4⟩, (Except.ok.inj h5).symm⟩
  · rintro ⟨⟨⟨h1, h2⟩, h4⟩, rfl⟩
    refine ⟨(), h1, (), h2, (), ?_, _, ⟨h4, rfl⟩, rfl⟩
    intro hc
    simp only [bindReady, hc, Bool.and_eq_true] at h4
    exact index_of_readable h4.2

theorem exec_curr_eq_next {s t : State} :
    exec .curr s = .next t ↔
      inContract .curr s = true ∧
        t = respond [(readerWord s s.rc.idx).getD 0] (afterLoads (viewLoads s s.rc.idx) s) := by
  simp only [exec, execCurr, requireReader, conclude_eq_next, bind_eq_ok, require_eq_ok,
    bufCurr_eq_ok, inContract, Bool.and_eq_true, Prod.exists]
  constructor
  · rintro ⟨_, h1, v, s1, ⟨h2, h3, rfl⟩, h4⟩
    exact ⟨⟨h1, h2⟩, by rw [h3, ← Except.ok.inj h4]; rfl⟩
  · rintro ⟨⟨h1, h2⟩, rfl⟩
    obtain ⟨v, h3⟩ := readerWord_of_viewReady h2 (.inl rfl)
    exact ⟨(), h1, v, _, ⟨h2, h3, rfl⟩, by rw [h3]; rfl⟩

theorem exec_next_eq_next {s t : State} :
    exec .next s = .next t ↔
      inContract .next s = true ∧
        t = respond [(readerWord s (s.rc.idx + 1)).getD 0]
          (afterLoads (viewLoads s (s.rc.idx + 1)) s) := by
  simp only [exec, execNext, requireReader, conclude_eq_next, bind_eq_ok, require_eq_ok,
    bufNext_eq_ok, inContract, Bool.and_eq_true, Prod.exists, decide_eq_true_eq]
  constructor
  · rintro ⟨_, h1, _, -, v, s1, ⟨h2, h3, rfl⟩, h4⟩
    exact ⟨⟨h1, h2⟩, by rw [h3, ← Except.ok.inj h4]; rfl⟩
  · rintro ⟨⟨h1, h2⟩, rfl⟩
    obtain ⟨v, h3⟩ := readerWord_of_viewReady h2 (.inr rfl)
    refine ⟨(), h1, (), ?_, v, _, ⟨h2, h3, rfl⟩, by rw [h3]; rfl⟩
    intro hd
    simp only [viewReady, hd] at h2
    exact index_of_readable h2

/-- The state after an advance by whole words (41_buffer_strategy.md R140). -/
def afterAdvance (k : Nat) (s : State) : State :=
  { afterLoads (advanceLoads s k) s with rc := advancedReader s k }

theorem exec_advw_eq_next {s t : State} :
    exec .advw s = .next t ↔
      inContract .advw s = true ∧ t = respond [] (afterAdvance s.ports.p s) := by
  simp only [exec, execAdvw, requireReader, conclude_eq_next, bind_eq_ok, require_eq_ok,
    bufAdvance_eq_ok, inContract, Bool.and_eq_true]
  constructor
  · rintro ⟨_, h1, _, h2, s1, ⟨h3, rfl⟩, h4⟩
    exact ⟨⟨⟨h1, h2⟩, h3⟩, (Except.ok.inj h4).symm⟩
  · rintro ⟨⟨⟨h1, h2⟩, h3⟩, rfl⟩
    exact ⟨(), h1, (), h2, _, ⟨h3, rfl⟩, rfl⟩

theorem exec_skip_eq_next {s t : State} :
    exec .skip s = .next t ↔
      inContract .skip s = true ∧ t = respond [] (afterCursorAdvance s.ports.p s) := by
  simp only [exec, execSkip, requireReader, conclude_eq_next, bind_eq_ok, require_eq_ok,
    cursorAdvance_eq_ok, inContract, Bool.and_eq_true]
  constructor
  · rintro ⟨_, h1, s1, ⟨h3, rfl⟩, h4⟩
    exact ⟨⟨h1, h3⟩, (Except.ok.inj h4).symm⟩
  · rintro ⟨⟨h1, h3⟩, rfl⟩
    exact ⟨(), h1, _, ⟨h3, rfl⟩, rfl⟩

theorem exec_ext1_eq_next {f0 : Field} {s t : State} (h : s.rc.ofs < s.params.W) :
    exec (.ext1 f0) s = .next t ↔
      inContract (.ext1 f0) s = true ∧
        t = respond (readerResults s (readerPos s) [f0]) (afterExtracts [f0] s) := by
  simp only [exec, execExt1, requireReader, conclude_eq_next, bind_eq_ok, require_eq_ok,
    extractField_eq_ok h, inContract, Bool.and_eq_true, Prod.exists]
  constructor
  · rintro ⟨_, h1, v, s1, ⟨h2, rfl, rfl⟩, h3⟩
    exact ⟨⟨h1, h2⟩, (Except.ok.inj h3).symm⟩
  · rintro ⟨⟨h1, h2⟩, rfl⟩
    exact ⟨(), h1, _, _, ⟨h2, rfl, rfl⟩, rfl⟩

/-- Everything a fused extract command can do, for any list of fields (42_cursor_extractor.md R155 to R157). -/
theorem fusedExtract_eq_next {c : Instr} {fs : List Field} {s t : State} (h : s.rc.ofs < s.params.W) :
    (conclude c do
        requireReader s
        let (vs, s1) ← extractFields fs s
        .ok (respond vs s1)) = .next t ↔
      (s.rc.bound && extractInContract s (readerPos s) fs) = true ∧
        t = respond (readerResults s (readerPos s) fs) (afterExtracts fs s) := by
  simp only [requireReader, conclude_eq_next, bind_eq_ok, require_eq_ok, extractFields_eq_ok h,
    Bool.and_eq_true, Prod.exists]
  constructor
  · rintro ⟨_, h1, v, s1, ⟨h2, rfl, rfl⟩, h3⟩
    exact ⟨⟨h1, h2⟩, (Except.ok.inj h3).symm⟩
  · rintro ⟨⟨h1, h2⟩, rfl⟩
    exact ⟨(), h1, _, _, ⟨h2, rfl, rfl⟩, rfl⟩

theorem exec_ext2_eq_next {f0 f1 : Field} {s t : State} (h : s.rc.ofs < s.params.W) :
    exec (.ext2 f0 f1) s = .next t ↔
      inContract (.ext2 f0 f1) s = true ∧
        t = respond (readerResults s (readerPos s) [f0, f1]) (afterExtracts [f0, f1] s) :=
  fusedExtract_eq_next h

theorem exec_ext3_eq_next {f0 f1 f2 : Field} {s t : State} (h : s.rc.ofs < s.params.W) :
    exec (.ext3 f0 f1 f2) s = .next t ↔
      inContract (.ext3 f0 f1 f2) s = true ∧
        t = respond (readerResults s (readerPos s) [f0, f1, f2]) (afterExtracts [f0, f1, f2] s) :=
  fusedExtract_eq_next h

theorem exec_ext4_eq_next {f0 f1 f2 f3 : Field} {s t : State} (h : s.rc.ofs < s.params.W) :
    exec (.ext4 f0 f1 f2 f3) s = .next t ↔
      inContract (.ext4 f0 f1 f2 f3) s = true ∧
        t = respond (readerResults s (readerPos s) [f0, f1, f2, f3])
          (afterExtracts [f0, f1, f2, f3] s) :=
  fusedExtract_eq_next h

theorem exec_bindw_eq_next {off : Nat} {s t : State} :
    exec (.bindw off) s = .next t ↔
      inContract (.bindw off) s = true ∧
        t = respond [] { s with wc := { bound := true, idx := s.ports.p, ofs := off } } := by
  simp only [exec, execBindw, conclude_eq_next, bind_eq_ok, require_eq_ok, inContract,
    Bool.and_eq_true]
  constructor
  · rintro ⟨_, h1, _, h2, h3⟩
    exact ⟨⟨h1, h2⟩, (Except.ok.inj h3).symm⟩
  · rintro ⟨⟨h1, h2⟩, rfl⟩
    exact ⟨(), h1, (), h2, rfl⟩

/-- The state after an advance of the writer by `n` bits (43_writer.md R172). -/
def afterWriterAdvance (n : Nat) (s : State) : State :=
  { s with wc :=
    { s.wc with
      idx := s.wc.idx + (s.wc.ofs + n) / s.params.W
      ofs := (s.wc.ofs + n) % s.params.W } }

@[simp] theorem afterSet_params (p : Nat) (v : Word) (off n : Nat) (s : State) :
    (afterSet p v off n s).params = s.params := by unfold afterSet; split_ifs <;> rfl
@[simp] theorem afterSet_rc (p : Nat) (v : Word) (off n : Nat) (s : State) :
    (afterSet p v off n s).rc = s.rc := by unfold afterSet; split_ifs <;> rfl
@[simp] theorem afterSet_wc (p : Nat) (v : Word) (off n : Nat) (s : State) :
    (afterSet p v off n s).wc = s.wc := by unfold afterSet; split_ifs <;> rfl
@[simp] theorem afterSet_ports (p : Nat) (v : Word) (off n : Nat) (s : State) :
    (afterSet p v off n s).ports = s.ports := by unfold afterSet; split_ifs <;> rfl
@[simp] theorem afterSet_results (p : Nat) (v : Word) (off n : Nat) (s : State) :
    (afterSet p v off n s).results = s.results := by unfold afterSet; split_ifs <;> rfl
@[simp] theorem afterSet_inputs (p : Nat) (v : Word) (off n : Nat) (s : State) :
    (afterSet p v off n s).inputs = s.inputs := by unfold afterSet; split_ifs <;> rfl
@[simp] theorem afterSet_rivals (p : Nat) (v : Word) (off n : Nat) (s : State) :
    (afterSet p v off n s).rivals = s.rivals := by unfold afterSet; split_ifs <;> rfl
@[simp] theorem afterSet_completions (p : Nat) (v : Word) (off n : Nat) (s : State) :
    (afterSet p v off n s).completions = s.completions := by unfold afterSet; split_ifs <;> rfl

theorem exec_wr1_eq_next {n : Nat} {s t : State} :
    exec (.wr1 n) s = .next t ↔
      inContract (.wr1 n) s = true ∧
        t = respond [] (afterWriterAdvance n (afterSet s.wc.idx s.ports.a s.wc.ofs n s)) := by
  simp only [exec, execWr1, requireWriter, conclude_eq_next, bind_eq_ok, require_eq_ok,
    setBitRange_eq_ok, wcursorAdvance_eq_ok, inContract, Bool.and_eq_true]
  have hw : ∀ u : State, u = afterSet s.wc.idx s.ports.a s.wc.ofs n s →
      writerAdvanceInContract u n = writerAdvanceInContract s n := by
    rintro u rfl
    simp [writerAdvanceInContract]
  constructor
  · rintro ⟨_, h1, s1, ⟨h2, rfl⟩, s2, ⟨h3, rfl⟩, h4⟩
    rw [hw _ rfl] at h3
    exact ⟨⟨⟨h1, h2⟩, h3⟩, (Except.ok.inj h4).symm⟩
  · rintro ⟨⟨⟨h1, h2⟩, h3⟩, rfl⟩
    exact ⟨(), h1, _, ⟨h2, rfl⟩, _, ⟨by rw [hw _ rfl]; exact h3, rfl⟩, rfl⟩

theorem exec_wskip_eq_next {s t : State} :
    exec .wskip s = .next t ↔
      inContract .wskip s = true ∧ t = respond [] (afterWriterAdvance s.ports.p s) := by
  simp only [exec, execWskip, requireWriter, conclude_eq_next, bind_eq_ok, require_eq_ok,
    wcursorAdvance_eq_ok, inContract, Bool.and_eq_true]
  constructor
  · rintro ⟨_, h1, s1, ⟨h3, rfl⟩, h4⟩
    exact ⟨⟨h1, h3⟩, (Except.ok.inj h4).symm⟩
  · rintro ⟨⟨h1, h3⟩, rfl⟩
    exact ⟨(), h1, _, ⟨h3, rfl⟩, rfl⟩

/-! ### The shape of every next state -/

/-- EXT1 is the fused extract of one field (42_cursor_extractor.md R154, R155). -/
theorem exec_ext1_fused (f0 : Field) (s : State) :
    exec (.ext1 f0) s =
      (conclude (.ext1 f0) do
        requireReader s
        let (vs, s1) ← extractFields [f0] s
        .ok (respond vs s1)) := by
  simp only [exec, execExt1, extractFields]
  cases requireReader s with
  | error v => rfl
  | ok u =>
    simp only [ok_bind]
    cases extractField f0 s with
    | error v => rfl
    | ok p => rfl

/-- Without a premise on the registers: a fused extract that completes had a bound reader and leaves the explicit state. -/
theorem fusedExtract_state {c : Instr} {fs : List Field} {s t : State}
    (h : (conclude c do
        requireReader s
        let (vs, s1) ← extractFields fs s
        .ok (respond vs s1)) = .next t) :
    s.rc.bound = true ∧ ∃ vs, t = respond vs (afterExtracts fs s) := by
  simp only [requireReader, conclude_eq_next, bind_eq_ok, require_eq_ok, Prod.exists] at h
  obtain ⟨_, h1, vs, s1, h2, h3⟩ := h
  cases h3
  exact ⟨h1, vs, by rw [extractFields_state h2]⟩

/-- The state a command leaves, but for its completion event. -/
def bodyAfter (i : Instr) (s : State) : State :=
  match i with
  | .shw _ => s
  | .xbr _ _ => s
  | .xbrm n off => afterLoads (xbrmLoads s off n) s
  | .sbr n off => afterSet s.ports.p s.ports.a off n s
  | .sxt _ => s
  | .bindr off => afterBind s.ports.p off s
  | .curr => afterLoads (viewLoads s s.rc.idx) s
  | .next => afterLoads (viewLoads s (s.rc.idx + 1)) s
  | .advw => afterAdvance s.ports.p s
  | .skip => afterCursorAdvance s.ports.p s
  | .ext1 f0 => afterExtracts [f0] s
  | .ext2 f0 f1 => afterExtracts [f0, f1] s
  | .ext3 f0 f1 f2 => afterExtracts [f0, f1, f2] s
  | .ext4 f0 f1 f2 f3 => afterExtracts [f0, f1, f2, f3] s
  | .bindw off => { s with wc := { bound := true, idx := s.ports.p, ofs := off } }
  | .wr1 n => afterWriterAdvance n (afterSet s.wc.idx s.ports.a s.wc.ofs n s)
  | .wskip => afterWriterAdvance s.ports.p s

/-- Every next state of every command is its completion of the explicit state: frames are read off `bodyAfter`. -/
theorem exec_next_state {i : Instr} {s t : State} (h : exec i s = .next t) :
    ∃ vs, t = respond vs (bodyAfter i s) := by
  cases i with
  | shw n => exact ⟨_, (exec_shw_eq_next.mp h).2⟩
  | xbr n off => exact ⟨_, (exec_xbr_eq_next.mp h).2⟩
  | xbrm n off => exact ⟨_, (exec_xbrm_eq_next.mp h).2⟩
  | sbr n off => exact ⟨_, (exec_sbr_eq_next.mp h).2⟩
  | sxt f => exact ⟨_, (exec_sxt_eq_next.mp h).2⟩
  | bindr off => exact ⟨_, (exec_bindr_eq_next.mp h).2⟩
  | curr => exact ⟨_, (exec_curr_eq_next.mp h).2⟩
  | next => exact ⟨_, (exec_next_eq_next.mp h).2⟩
  | advw => exact ⟨_, (exec_advw_eq_next.mp h).2⟩
  | skip => exact ⟨_, (exec_skip_eq_next.mp h).2⟩
  | ext1 f0 => exact (fusedExtract_state (by rw [← exec_ext1_fused]; exact h)).2
  | ext2 f0 f1 => exact (fusedExtract_state h).2
  | ext3 f0 f1 f2 => exact (fusedExtract_state h).2
  | ext4 f0 f1 f2 f3 => exact (fusedExtract_state h).2
  | bindw off => exact ⟨_, (exec_bindw_eq_next.mp h).2⟩
  | wr1 n => exact ⟨_, (exec_wr1_eq_next.mp h).2⟩
  | wskip => exact ⟨_, (exec_wskip_eq_next.mp h).2⟩

/-- A command ends in a next state, a fault that names it, or the race refusal that names it (60_exceptions.md R203). -/
theorem conclude_cases (c : Instr) (r : Except Violation State) :
    (∃ t, conclude c r = .next t) ∨
      (∃ f, conclude c r = .fault f ∧ f.command = some c) ∨ conclude c r = .refused (.race c) := by
  cases r with
  | ok s => exact .inl ⟨s, rfl⟩
  | error v => cases v <;> simp [conclude, Violation.stop, Fault.command]

end Sys2Proof.Machine
end

