-- ==== Sys2Proof/Laws/PerInstr.lean ====
section
/-! SUPPORT. A statement about every command as syntax, one lemma per constructor: its command word fits 64 bits, holds its
opcode in the low byte and 0 in RSV (30_encoding.md R74, R76). -/

namespace Sys2Proof.Laws.EncodeFits

open Sys2Proof

/-- The number the encoder writes for `i` has `OP` in bits 7 to 0, nothing above bit 45, and so fits the command word. -/
def Statement (i : Instr) : Prop :=
  i.wf = true →
    i.opcode + i.fieldBits < 2 ^ 46 ∧ bitsAt (i.opcode + i.fieldBits) 0 8 = i.opcode ∧
      (encode i).toNat = i.opcode + i.fieldBits

/-- A descriptor of a well-formed field fits its byte. -/
theorem byte_lt {f : Field} (h : f.wf = true) : f.byte < 2 ^ 8 := by
  obtain ⟨n, s⟩ := f
  simp only [Field.wf, widthFits, decide_eq_true_eq] at h
  cases s <;> simp only [Field.byte, Signedness.bit] <;> omega

/-- What is left to show for a command whose fields are known multiples of 2^8. -/
theorem of_fields {i : Instr} (k : Nat) (h1 : i.fieldBits = k * 2 ^ 8) (h2 : k < 2 ^ 38)
    (h3 : i.opcode < 2 ^ 8) :
    i.opcode + i.fieldBits < 2 ^ 46 ∧ bitsAt (i.opcode + i.fieldBits) 0 8 = i.opcode ∧
      (encode i).toNat = i.opcode + i.fieldBits := by
  rw [encode, BitVec.toNat_ofNat, bitsAt, h1]
  omega

theorem shw (bits : Nat) : Statement (.shw bits) := fun h =>
  have h : bits < 128 := of_decide_eq_true h
  of_fields bits rfl (by omega) (by simp [Instr.opcode])

theorem ofWidthAndOffset {i : Instr} {bits off : Nat} (h : (widthFits bits && offsetFits off) = true)
    (h1 : i.fieldBits = bits * 2 ^ 8 + off * 2 ^ 40) (h3 : i.opcode < 2 ^ 8) :
    i.opcode + i.fieldBits < 2 ^ 46 ∧ bitsAt (i.opcode + i.fieldBits) 0 8 = i.opcode ∧
      (encode i).toNat = i.opcode + i.fieldBits := by
  simp only [widthFits, offsetFits, Bool.and_eq_true, decide_eq_true_eq] at h
  exact of_fields (bits + off * 2 ^ 32) (by rw [h1]; omega) (by omega) h3

theorem xbr (bits off : Nat) : Statement (.xbr bits off) := fun h =>
  ofWidthAndOffset h rfl (by simp [Instr.opcode])

theorem xbrm (bits off : Nat) : Statement (.xbrm bits off) := fun h =>
  ofWidthAndOffset h rfl (by simp [Instr.opcode])

theorem sbr (bits off : Nat) : Statement (.sbr bits off) := fun h =>
  ofWidthAndOffset h rfl (by simp [Instr.opcode])

theorem sxt (field : Field) : Statement (.sxt field) := fun h =>
  of_fields field.byte rfl (by have := byte_lt h; omega) (by simp [Instr.opcode])

theorem bindr (off : Nat) : Statement (.bindr off) := fun h =>
  have h : off < 64 := of_decide_eq_true h
  of_fields (off * 2 ^ 32) (by simp only [Instr.fieldBits]; omega) (by omega) (by simp [Instr.opcode])

theorem curr : Statement .curr := fun _ => of_fields 0 rfl (by decide) (by decide)

theorem next : Statement .next := fun _ => of_fields 0 rfl (by decide) (by decide)

theorem advw : Statement .advw := fun _ => of_fields 0 rfl (by decide) (by decide)

theorem skip : Statement .skip := fun _ => of_fields 0 rfl (by decide) (by decide)

theorem ext1 (f0 : Field) : Statement (.ext1 f0) := fun h =>
  of_fields f0.byte rfl (by have := byte_lt h; omega) (by simp [Instr.opcode])

theorem ext2 (f0 f1 : Field) : Statement (.ext2 f0 f1) := by
  intro h
  simp only [Instr.wf, Bool.and_eq_true] at h
  have h0 := byte_lt h.1
  have h1 := byte_lt h.2
  exact of_fields (f0.byte + f1.byte * 2 ^ 8) (by simp only [Instr.fieldBits]; omega) (by omega)
    (by simp [Instr.opcode])

theorem ext3 (f0 f1 f2 : Field) : Statement (.ext3 f0 f1 f2) := by
  intro h
  simp only [Instr.wf, Bool.and_eq_true] at h
  have h0 := byte_lt h.1.1
  have h1 := byte_lt h.1.2
  have h2 := byte_lt h.2
  exact of_fields (f0.byte + f1.byte * 2 ^ 8 + f2.byte * 2 ^ 16)
    (by simp only [Instr.fieldBits]; omega) (by omega) (by simp [Instr.opcode])

theorem ext4 (f0 f1 f2 f3 : Field) : Statement (.ext4 f0 f1 f2 f3) := by
  intro h
  simp only [Instr.wf, Bool.and_eq_true] at h
  have h0 := byte_lt h.1.1.1
  have h1 := byte_lt h.1.1.2
  have h2 := byte_lt h.1.2
  have h3 := byte_lt h.2
  exact of_fields (f0.byte + f1.byte * 2 ^ 8 + f2.byte * 2 ^ 16 + f3.byte * 2 ^ 24)
    (by simp only [Instr.fieldBits]; omega) (by omega) (by simp [Instr.opcode])

theorem bindw (off : Nat) : Statement (.bindw off) := fun h =>
  have h : off < 64 := of_decide_eq_true h
  of_fields (off * 2 ^ 32) (by simp only [Instr.fieldBits]; omega) (by omega) (by simp [Instr.opcode])

theorem wr1 (bits : Nat) : Statement (.wr1 bits) := fun h =>
  have h : bits < 128 := of_decide_eq_true h
  of_fields bits rfl (by omega) (by simp [Instr.opcode])

theorem wskip : Statement .wskip := fun _ => of_fields 0 rfl (by decide) (by decide)

end Sys2Proof.Laws.EncodeFits
end

