-- ==== Sys2Proof/Tests/Slice0.lean ====
section
/-! SUPPORT. Tests of the model, each on one step of a small state. Expected values come from spec/95_test_vectors.md and the
examples of the rules, not from the model. At the end: for every statement with hypotheses a witness that meets them. -/

namespace Sys2Proof.Tests

open Sys2Proof Sys2Proof.Machine

/-! ### Helpers -/

/-- 16-bit words, 8-bit word indices. -/
def p16 (st : Strategy) : Params := { Params.chosen with aw := 8, strategy := st }

/-- The memory with the given words from index `i` on. -/
def provide (p : Params) (i : Nat) : List Nat → Memory
  | [] => []
  | v :: vs => Memory.storeWord p (provide p (i + 1) vs) i v

/-- An instance after reset over the given words from index `i` on, with operands on its ports. -/
def start (p : Params) (i : Nat) (ws : List Nat) (a b q : Nat) : State :=
  { State.resetOf p with mem := provide p i ws, ports := { a := a, b := b, p := q } }

/-- The reader bound at `(i, o)`, its cached words coherent. -/
def boundAt (i o : Nat) (s : State) : State :=
  { s with rc := { bound := true, idx := i, ofs := o, c0 := (wordAt s i).getD 0, c1 := (wordAt s (i + 1)).getD 0 } }

/-- The writer bound at `(i, o)`. -/
def writerAt (i o : Nat) (s : State) : State := { s with wc := { bound := true, idx := i, ofs := o } }

/-- What a step leaves, seen through `f`. -/
def seen {α : Type} (f : State → α) : Host.Outcome State Fault Refusal → Option α
  | .next s => some (f s)
  | .fault _ => none
  | .refused _ => none

/-- The step answers a next state. -/
def completes (o : Host.Outcome State Fault Refusal) : Bool := (seen (fun _ => ()) o).isSome

/-- The fault a step stops with. -/
def faultOf : Host.Outcome State Fault Refusal → Option Fault
  | .fault f => some f
  | .next _ => none
  | .refused _ => none

/-- The refusal a step stops with. -/
def refusalOf : Host.Outcome State Fault Refusal → Option Refusal
  | .refused r => some r
  | .next _ => none
  | .fault _ => none

/-- What the decoder answers, as an option. -/
def decoded (w : BitVec 64) : Option Instr := (decode w).toOption

/-- Why a word is invalid. -/
def rejected (w : BitVec 64) : Option Reject :=
  match decode w with
  | .ok _ => none
  | .error why => some why

/-- The words 8 to 13 of the reader's examples in 95_test_vectors.md. -/
def stream (st : Strategy) : State :=
  start (p16 st) 8 [0xABCD, 0x1234, 0x5678, 0x9ABC, 0xDEF0, 0x0F0F] 0 0 0

theorem exists_of_completes {o : Host.Outcome State Fault Refusal} (h : completes o = true) :
    ∃ t, o = .next t := by
  cases o with
  | next t => exact ⟨t, rfl⟩
  | fault f => cases h
  | refused r => cases h

/-! ### WellFormed: an ill-formed term for each check -/

theorem test_wf_width_shw : Instr.wf (.shw 128) = false := by decide
theorem test_wf_width_xbr : Instr.wf (.xbr 128 0) = false := by decide
theorem test_wf_offset_xbr : Instr.wf (.xbr 0 64) = false := by decide
theorem test_wf_width_xbrm : Instr.wf (.xbrm 128 0) = false := by decide
theorem test_wf_offset_xbrm : Instr.wf (.xbrm 0 64) = false := by decide
theorem test_wf_width_sbr : Instr.wf (.sbr 128 0) = false := by decide
theorem test_wf_offset_sbr : Instr.wf (.sbr 0 64) = false := by decide
theorem test_wf_width_sxt : Instr.wf (.sxt ⟨128, .signed⟩) = false := by decide
theorem test_wf_offset_binds : Instr.wf (.bindr 64) = false ∧ Instr.wf (.bindw 64) = false := by decide
theorem test_wf_width_wr1 : Instr.wf (.wr1 128) = false := by decide
theorem test_wf_width_ext :
    Instr.wf (.ext1 ⟨128, .unsigned⟩) = false ∧
      Instr.wf (.ext2 ⟨127, .unsigned⟩ ⟨128, .unsigned⟩) = false ∧
      Instr.wf (.ext3 ⟨127, .unsigned⟩ ⟨127, .unsigned⟩ ⟨128, .unsigned⟩) = false ∧
      Instr.wf (.ext4 ⟨127, .unsigned⟩ ⟨127, .unsigned⟩ ⟨127, .unsigned⟩ ⟨128, .unsigned⟩) = false := by
  decide
theorem test_wf_largest :
    Instr.wf (.xbr 127 63) = true ∧
      Instr.wf (.ext4 ⟨127, .signed⟩ ⟨127, .signed⟩ ⟨127, .signed⟩ ⟨127, .signed⟩) = true := by decide

/-! ### Decoding: every constructor by a word of 30_encoding.md R78 or 95_test_vectors.md -/

theorem test_decode_shw : decoded 0x0000000000000D01#64 = some (.shw 13) := by decide
theorem test_decode_xbr : decoded 0x00000D0000000602#64 = some (.xbr 6 13) := by decide
theorem test_decode_xbr_offset63 : decoded 0x00003F0000000002#64 = some (.xbr 0 63) := by decide
theorem test_decode_xbrm : decoded 0x0000040000000803#64 = some (.xbrm 8 4) := by decide
theorem test_decode_sbr : decoded 0x00000F0000000F04#64 = some (.sbr 15 15) := by decide
theorem test_decode_sxt : decoded 0x0000000000008505#64 = some (.sxt ⟨5, .signed⟩) := by decide
theorem test_decode_bindr : decoded 0x00000D0000000010#64 = some (.bindr 13) := by decide
theorem test_decode_curr : decoded 0x0000000000000011#64 = some .curr := by decide
theorem test_decode_next : decoded 0x0000000000000012#64 = some .next := by decide
theorem test_decode_advw : decoded 0x0000000000000013#64 = some .advw := by decide
theorem test_decode_skip : decoded 0x0000000000000020#64 = some .skip := by decide
theorem test_decode_ext1 : decoded 0x0000000000008521#64 = some (.ext1 ⟨5, .signed⟩) := by decide
theorem test_decode_ext2 :
    decoded 0x0000000000840322#64 = some (.ext2 ⟨3, .unsigned⟩ ⟨4, .signed⟩) := by decide
theorem test_decode_ext3 :
    decoded 0x000000000C840323#64 = some (.ext3 ⟨3, .unsigned⟩ ⟨4, .signed⟩ ⟨12, .unsigned⟩) := by decide
theorem test_decode_ext4 :
    decoded 0x0000008F0B808524#64 =
      some (.ext4 ⟨5, .signed⟩ ⟨0, .signed⟩ ⟨11, .unsigned⟩ ⟨15, .signed⟩) := by decide
theorem test_decode_bindw : decoded 0x0000030000000030#64 = some (.bindw 3) := by decide
theorem test_decode_wr1 : decoded 0x0000000000000B31#64 = some (.wr1 11) := by decide
theorem test_decode_wskip : decoded 0x0000000000000032#64 = some .wskip := by decide

/-- 30_encoding.md R79: the all-zero word, an opcode outside the table, an unused field, `RSV`. -/
theorem test_decode_invalid :
    rejected 0x0000000000000000#64 = some .unknownOpcode ∧
      rejected 0x0000000000000006#64 = some .unknownOpcode ∧
      rejected 0x0000000000000511#64 = some .unusedFieldSet ∧
      rejected 0x0000000000008531#64 = some .unusedFieldSet ∧
      rejected 0x0000010000000521#64 = some .unusedFieldSet ∧
      rejected 0x0000000000050021#64 = some .unusedFieldSet ∧
      rejected 0x0000400000000602#64 = some .reservedSet := by decide

theorem test_encode_ext3 :
    encode (.ext3 ⟨3, .unsigned⟩ ⟨4, .signed⟩ ⟨12, .unsigned⟩) = 0x000000000C840323#64 := by decide

/-- 30_encoding.md R83: five descriptors are one EXT4 and one EXT1. -/
theorem test_extl_expansion :
    expandExtl [⟨3, .unsigned⟩, ⟨4, .signed⟩, ⟨12, .unsigned⟩, ⟨5, .unsigned⟩, ⟨1, .signed⟩] =
      [.ext4 ⟨3, .unsigned⟩ ⟨4, .signed⟩ ⟨12, .unsigned⟩ ⟨5, .unsigned⟩, .ext1 ⟨1, .signed⟩] := by decide

/-- 30_encoding.md R82, operand values in decimal. -/
theorem test_assembler_text : Instr.text (.sbr 6 13) 63 0 0 = "SBR 6 @13 P=0 A=63" := by decide

/-! ### One step per command (95_test_vectors.md, Part 2) -/

theorem test_shw :
    seen (fun t => t.results.r0) (exec (.shw 13) (start (p16 .direct) 0 [] 0xABCD 0x1234 0)) =
      some 0x91A5 := by decide
theorem test_shw_count_at_width :
    faultOf (exec (.shw 16) (start (p16 .direct) 0 [] 0xABCD 0x1234 0)) =
      some (.shiftCount (.shw 16)) := by decide

theorem test_xbr_largest_straddle :
    seen (fun t => t.results.r0) (exec (.xbr 15 15) (start (p16 .direct) 0 [] 0xABCD 0x1234 0)) =
      some 0x2469 := by decide
theorem test_xbr_zero_width_any_offset :
    seen (fun t => t.results.r0) (exec (.xbr 0 63) (start (p16 .direct) 0 [] 0xABCD 0x1234 0)) =
      some 0 := by decide

theorem test_xbrm_unconditional :
    seen (fun t => (t.results.r0, t.trace)) (exec (.xbrm 8 4) (start (p16 .direct) 8 [0xABCD, 0x1234] 0 0 8)) =
      some (0x00BC, [.load 8, .load 9]) := by decide
theorem test_xbrm_conditional_at_the_last_word :
    seen (fun t => (t.results.r0, t.trace))
      (exec (.xbrm 8 4)
        (start { p16 .direct with word1Policy := .conditional } 8 [0xABCD, 0x1234] 0 0 9)) =
      some (0x0023, [.load 9]) := by decide

theorem test_sbr_straddling :
    seen (fun t => (wordAt t 0, wordAt t 1)) (exec (.sbr 6 13) (start (p16 .direct) 0 [0xABCD, 0x1234] 0x3F 0 0)) =
      some (some 0xEBCD, some 0x1237) := by decide
theorem test_sbr_largest_straddle_requests :
    seen (fun t => t.trace) (exec (.sbr 15 15) (start (p16 .direct) 0 [0xABCD, 0x1234] 0x7FFF 0 0)) =
      some [.load 0, .store 0 0xABCD, .load 1, .store 1 0x3FFF] := by decide

theorem test_sxt_negative :
    seen (fun t => t.results.r0) (exec (.sxt ⟨5, .signed⟩) (start (p16 .direct) 0 [] 0x15 0 0)) =
      some 0xFFF5 := by decide
theorem test_sxt_untrimmed :
    faultOf (exec (.sxt ⟨5, .signed⟩) (start (p16 .direct) 0 [] 0x20 0 0)) =
      some (.untrimmedValue (.sxt ⟨5, .signed⟩)) := by decide

theorem test_bindr_cached :
    seen (fun t => (t.rc, t.trace)) (exec (.bindr 13) (withP 8 (stream .cached))) =
      some ({ bound := true, idx := 8, ofs := 13, c0 := 0xABCD, c1 := 0x1234 }, [.load 8, .load 9]) := by
  decide
theorem test_bindr_direct_loads_nothing :
    seen (fun t => (t.rc.idx, t.rc.ofs, t.trace)) (exec (.bindr 0) (withP 13 (stream .direct))) =
      some (13, 0, []) := by decide

theorem test_curr_direct :
    seen (fun t => (t.results.r0, t.trace)) (exec .curr (boundAt 8 13 (stream .direct))) =
      some (0xABCD, [.load 8]) := by decide
theorem test_curr_unbound :
    faultOf (exec .curr (stream .direct)) = some (.unboundCursor .curr) := by decide

theorem test_next_direct :
    seen (fun t => (t.results.r0, t.trace)) (exec .next (boundAt 8 13 (stream .direct))) =
      some (0x1234, [.load 9]) := by decide
theorem test_next_cached :
    seen (fun t => (t.results.r0, t.trace)) (exec .next (boundAt 8 13 (stream .cached))) =
      some (0x1234, []) := by decide

theorem test_advw_by_one_cached :
    seen (fun t => (t.rc.idx, t.rc.c0, t.rc.c1, t.trace))
      (exec .advw (withP 1 (boundAt 8 13 (stream .cached)))) =
      some (9, 0x1234, 0x5678, [.load 10]) := by decide
theorem test_advw_by_three_cached :
    seen (fun t => (t.rc.idx, t.rc.c0, t.rc.c1, t.trace))
      (exec .advw (withP 3 (boundAt 9 13 (stream .cached)))) =
      some (12, 0xDEF0, 0x0F0F, [.load 12, .load 13]) := by decide

theorem test_skip_many_words :
    seen (fun t => (t.rc.idx, t.rc.ofs, t.rc.c0, t.rc.c1, t.trace))
      (exec .skip (withP 43 (boundAt 8 5 (stream .cached)))) =
      some (11, 0, 0x9ABC, 0xDEF0, [.load 11, .load 12]) := by decide
theorem test_skip_to_the_next_word :
    seen (fun t => (t.rc.idx, t.rc.ofs, t.trace))
      (exec .skip (withP 11 (boundAt 8 5 (stream .cached)))) = some (9, 0, [.load 10]) := by decide

theorem test_ext1_straddling :
    seen (fun t => (t.results.r0, t.rc.idx, t.rc.ofs, t.trace))
      (exec (.ext1 ⟨6, .unsigned⟩) (boundAt 8 13 (stream .cached))) =
      some (0x0025, 9, 3, [.load 10]) := by decide
theorem test_ext1_zero_width_direct_still_loads :
    seen (fun t => (t.results.r0, t.rc.idx, t.rc.ofs, t.trace))
      (exec (.ext1 ⟨0, .unsigned⟩) (boundAt 8 0 (stream .direct))) =
      some (0, 8, 0, [.load 8, .load 9]) := by decide

theorem test_ext2 :
    seen (fun t => (t.results.r0, t.results.r1, t.rc.idx, t.rc.ofs))
      (exec (.ext2 ⟨3, .unsigned⟩ ⟨4, .signed⟩) (boundAt 8 0 (stream .direct))) =
      some (0x0005, 0xFFF9, 8, 7) := by decide

theorem test_ext3 :
    seen (fun t => (t.results.r0, t.results.r1, t.results.r2, t.rc.idx, t.rc.ofs))
      (exec (.ext3 ⟨3, .unsigned⟩ ⟨4, .signed⟩ ⟨12, .unsigned⟩) (boundAt 8 0 (stream .direct))) =
      some (0x0005, 0xFFF9, 0x0957, 9, 3) := by decide

theorem test_ext4_results :
    seen (fun t => t.results)
      (exec (.ext4 ⟨5, .signed⟩ ⟨0, .signed⟩ ⟨11, .unsigned⟩ ⟨15, .signed⟩) (boundAt 8 0 (stream .cached))) =
      some { r0 := 0x000D, r1 := 0x0000, r2 := 0x055E, r3 := 0x1234 } := by decide
theorem test_ext4_loads :
    seen (fun t => (t.rc.idx, t.rc.ofs, t.trace))
      (exec (.ext4 ⟨5, .signed⟩ ⟨0, .signed⟩ ⟨11, .unsigned⟩ ⟨15, .signed⟩) (boundAt 8 0 (stream .direct))) =
      some (9, 15, [.load 8, .load 9, .load 8, .load 9, .load 8, .load 9, .load 9, .load 10]) := by decide

theorem test_bindw :
    seen (fun t => (t.wc, t.trace)) (exec (.bindw 13) (start (p16 .direct) 0 [] 0 0 0)) =
      some ({ bound := true, idx := 0, ofs := 13 }, []) := by decide

theorem test_wr1_straddling :
    seen (fun t => (wordAt t 0, wordAt t 1, t.wc.idx, t.wc.ofs))
      (exec (.wr1 6) (writerAt 0 13 (start (p16 .direct) 0 [0xFFFF, 0x0000] 0x25 0 0))) =
      some (some 0xBFFF, some 0x0004, 1, 3) := by decide
theorem test_wr1_unbound :
    faultOf (exec (.wr1 6) (start (p16 .direct) 0 [0xFFFF, 0x0000] 0x25 0 0)) =
      some (.unboundCursor (.wr1 6)) := by decide

theorem test_wskip :
    seen (fun t => (t.wc.idx, t.wc.ofs, t.trace))
      (exec .wskip (writerAt 0 5 (start (p16 .direct) 0 [] 0 0 43))) = some (3, 0, []) := by decide

/-- 60_exceptions.md V8: another agent stores to a word the command loads. -/
theorem test_race_refused :
    refusalOf (exec .curr { boundAt 8 0 (stream .direct) with rivals := [{ index := 8, kind := .store }] }) =
      some (.race .curr) := by decide

/-! ### The step -/

theorem test_step_runs_the_presented_command :
    seen (fun t => t.results.r0)
      (step ((start (p16 .direct) 0 [] 0 0 0).withFetchWord 64 0x505)) = some 0 := by decide

theorem test_step_refuses_the_zero_word :
    refusalOf (step (State.reset.withFetchWord 64 0)) = some (.invalidCommand 0#64 .unknownOpcode) := by
  decide

/-- 20_memory.md R44, 00_scope.md R8: "any" order of the bytes of a word, a mixed one of four bytes among them. -/
theorem test_byte_order :
    Memory.storeWord (p16 .direct) [] 1 0x1234 = [(2, 0x34#8), (3, 0x12#8)] ∧
      Memory.storeWord { p16 .direct with byteOrder := .big .w16 } [] 1 0x1234 =
        [(2, 0x12#8), (3, 0x34#8)] ∧
      Memory.storeWord { p16 .direct with width := .w32, byteOrder := ⟨[2, 3, 0, 1]⟩ } [] 1 0x0A0B0C0D =
        [(4, 0x0B#8), (5, 0x0A#8), (6, 0x0D#8), (7, 0x0C#8)] := by decide

theorem test_mixed_byte_order_reads_back :
    let p := { p16 .direct with width := .w32, byteOrder := ⟨[2, 3, 0, 1]⟩ }
    p.wf = true ∧ Memory.loadWord p (Memory.storeWord p [] 1 0x0A0B0C0D) 1 = some 0x0A0B0C0D := by
  decide

/-! ### Witnesses: states and operands that meet all hypotheses of a statement together, each clause at a boundary -/

theorem witness_DecodeGivesBackEveryEncodedCommand :
    Instr.wf (.sbr 127 63) = true ∧
      Instr.wf (.ext4 ⟨127, .signed⟩ ⟨0, .unsigned⟩ ⟨127, .signed⟩ ⟨127, .signed⟩) = true := by decide

theorem witness_EveryDecodedWordIsItsEncoding :
    decoded 0x00003F0000007F04#64 = some (.sbr 127 63) := by decide

/-- No well-formed command has the all-zero word. -/
theorem witness_InvalidCommandWordsAreRefused :
    ((State.reset.withFetchWord 64 0).inputs =
        [.command { cmd := 0#64, a := 0, b := 0, p := 0, rivals := [] }]) ∧
      ∀ i : Instr, i.wf = true → encode i ≠ 0#64 := by
  refine ⟨by decide, fun i hi h => ?_⟩
  have h1 : decode (encode i) = decode 0#64 := by rw [h]
  have h2 : (encode i).toNat = i.opcode + i.fieldBits := by
    cases i with
    | shw n => exact (Laws.EncodeFits.shw n hi).2.2
    | xbr n o => exact (Laws.EncodeFits.xbr n o hi).2.2
    | xbrm n o => exact (Laws.EncodeFits.xbrm n o hi).2.2
    | sbr n o => exact (Laws.EncodeFits.sbr n o hi).2.2
    | sxt f => exact (Laws.EncodeFits.sxt f hi).2.2
    | bindr o => exact (Laws.EncodeFits.bindr o hi).2.2
    | curr => exact (Laws.EncodeFits.curr hi).2.2
    | next => exact (Laws.EncodeFits.next hi).2.2
    | advw => exact (Laws.EncodeFits.advw hi).2.2
    | skip => exact (Laws.EncodeFits.skip hi).2.2
    | ext1 f => exact (Laws.EncodeFits.ext1 f hi).2.2
    | ext2 f g => exact (Laws.EncodeFits.ext2 f g hi).2.2
    | ext3 f g k => exact (Laws.EncodeFits.ext3 f g k hi).2.2
    | ext4 f g k l => exact (Laws.EncodeFits.ext4 f g k l hi).2.2
    | bindw o => exact (Laws.EncodeFits.bindw o hi).2.2
    | wr1 n => exact (Laws.EncodeFits.wr1 n hi).2.2
    | wskip => exact (Laws.EncodeFits.wskip hi).2.2
  rw [h] at h2
  have h3 : 0 < i.opcode := by cases i <;> simp [Instr.opcode]
  simp at h2
  omega

theorem witness_StepRunsTheDecodedCommand :
    ((start (p16 .direct) 0 [] 0 0 0).withFetchWord 64 0x505).inputs =
        [.command { cmd := 0x505#64, a := 0, b := 0, p := 0, rivals := [] }] ∧
      decoded 0x505#64 = some (.sxt ⟨5, .unsigned⟩) := by decide

/-- The last index of the address space. -/
theorem witness_HostStoreSetsOneWord :
    completes (step { State.reset with inputs := [.store (2 ^ 32 - 1) 0x12345] }) = true ∧
      2 ^ 32 - 1 < State.reset.params.indexCount := by decide

theorem witness_ResetUnbindsAndLeavesMemory :
    completes (step { boundAt 8 3 (stream .cached) with inputs := [.reset] }) = true := by decide

theorem witness_ShwReturnsTheShiftWindow :
    15 < (stream .direct).params.W ∧ (stream .direct).ports.a < 2 ^ (stream .direct).params.W ∧
      (stream .direct).params.W ≤ 16 := by decide

theorem witness_EmulatedShiftEqualsTheWindow : 0xFFFF < 2 ^ 16 ∧ 15 < 16 := by decide

/-- Largest straddle, full width, and each way out of the contract. -/
theorem witness_XbrReturnsTheField :
    (15 < (p16 .direct).W ∧ (15 < (p16 .direct).W ∨ (15 = (p16 .direct).W ∧ 15 = 0))) ∧
      (0 < (p16 .direct).W ∧ (16 < (p16 .direct).W ∨ (16 = (p16 .direct).W ∧ 0 = 0))) ∧
      (0 < 16 ∧ (p16 .direct).W ≤ 16) ∧ (0 < 17 ∧ (p16 .direct).W < 17) ∧
      (16 = (p16 .direct).W ∧ 0 < 1) := by decide

/-- Both policies: straddling, ending at the top bit, width 0 at the last index. -/
theorem witness_XbrmReturnsTheFieldOfMemory :
    inContract (.xbrm 15 15) (withP 8 (stream .direct)) = true ∧
      inContract (.xbrm 3 13) (start { p16 .direct with word1Policy := .conditional } 8 [0xABCD] 0 0 8) = true ∧
      inContract (.xbrm 4 13)
        (start { p16 .direct with word1Policy := .conditional } 8 [0xABCD, 0x1234] 0 0 8) = true ∧
      inContract (.xbrm 0 63)
        (start { p16 .direct with word1Policy := .conditional } 0 [] 0 0 255) = true := by decide

/-- Width 0, ending at the top bit, smallest straddle, full width. -/
theorem witness_SbrSetsExactlyTheField :
    inContract (.sbr 0 63) (start (p16 .direct) 0 [] 7 0 4095) = true ∧
      inContract (.sbr 3 13) (start (p16 .direct) 255 [0xABCD] 7 0 255) = true ∧
      inContract (.sbr 4 13) (start (p16 .direct) 0 [0xABCD, 0x1234] 15 0 0) = true ∧
      inContract (.sbr 16 0) (start (p16 .direct) 0 [0xABCD] 0xFFFF 0 0) = true := by decide

theorem witness_ZeroWidthWritesTouchNothing :
    (writerAt 255 15 (start (p16 .direct) 0 [] 7 0 0)).wc.bound = true ∧
      255 < (p16 .direct).indexCount ∧ 15 < (p16 .direct).W := by decide

/-- Width 0, one bit, full width; and each way out of the contract. -/
theorem witness_SxtExtendsTheSign :
    (0 ≤ (p16 .direct).W ∧ 0 < 2 ^ 0) ∧ (1 ≤ (p16 .direct).W ∧ 1 < 2 ^ 1) ∧
      (16 ≤ (p16 .direct).W ∧ 0x8000 < 2 ^ 16) ∧ (p16 .direct).W < 17 ∧ 2 ^ 5 ≤ 0x20 := by decide

/-- Two states that differ in registers, memory and the number of commands. -/
theorem witness_PureCommandsReadNoRegisterAndNoMemory :
    { boundAt 8 3 (stream .direct) with completions := 3 }.params = (start (p16 .direct) 0 [] 0 0 0).params ∧
      { boundAt 8 3 (stream .direct) with completions := 3 }.ports = (start (p16 .direct) 0 [] 0 0 0).ports ∧
      completes (exec (.shw 15) (start (p16 .direct) 0 [] 0 0 0)) = true ∧
      completes (exec (.xbr 16 0) (start (p16 .direct) 0 [] 0 0 0)) = true ∧
      completes (exec (.sxt ⟨16, .signed⟩) (start (p16 .direct) 0 [] 0 0 0)) = true := by decide

/-- The last index under DIRECT, the last pair of provided words under CACHED. -/
theorem witness_BindrBindsTheReader :
    inContract (.bindr 15) (withP 255 (stream .direct)) = true ∧
      inContract (.bindr 15) (withP 12 (stream .cached)) = true := by decide

theorem witness_CurrAndNextReturnTheReadersWords :
    inContract .curr (boundAt 13 15 (stream .direct)) = true ∧
      inContract .next (boundAt 12 15 (stream .direct)) = true ∧
      inContract .curr (boundAt 13 15 (stream .cached)) = true ∧
      inContract .next (boundAt 255 15 (stream .cached)) = true := by decide

/-- Counts 0, 1 and more, up to the last provided words. -/
theorem witness_AdvwAdvancesByWholeWords :
    inContract .advw (withP 247 (boundAt 8 0 (stream .direct))) = true ∧
      inContract .advw (withP 0 (boundAt 8 0 (stream .cached))) = true ∧
      inContract .advw (withP 1 (boundAt 11 0 (stream .cached))) = true ∧
      inContract .advw (withP 4 (boundAt 8 0 (stream .cached))) = true := by decide

theorem witness_SkipMovesTheBitAddress :
    inContract .skip (withP 3967 (boundAt 8 0 (stream .direct))) = true ∧
      inContract .skip (withP 0 (boundAt 8 15 (stream .cached))) = true ∧
      inContract .skip (withP 1 (boundAt 11 15 (stream .cached))) = true ∧
      inContract .skip (withP 79 (boundAt 8 0 (stream .cached))) = true := by decide

/-- DIRECT; CACHED below the end of the word and exactly at it; full width; width 0. -/
theorem witness_Ext1ReturnsTheFieldAtTheCursor :
    (boundAt 8 15 (stream .direct)).rc.ofs < (stream .direct).params.W ∧
      inContract (.ext1 ⟨15, .signed⟩) (boundAt 12 15 (stream .direct)) = true ∧
      inContract (.ext1 ⟨2, .signed⟩) (boundAt 12 13 (stream .cached)) = true ∧
      inContract (.ext1 ⟨3, .signed⟩) (boundAt 11 13 (stream .cached)) = true ∧
      inContract (.ext1 ⟨16, .unsigned⟩) (boundAt 8 0 (stream .cached)) = true ∧
      inContract (.ext1 ⟨0, .signed⟩) (boundAt 8 15 (stream .direct)) = true := by decide

theorem witness_FusedExtractsReturnTheirFieldsInOrder :
    (boundAt 8 15 (stream .cached)).rc.ofs < (stream .cached).params.W ∧
      inContract (.ext2 ⟨16, .unsigned⟩ ⟨16, .signed⟩) (boundAt 8 0 (stream .direct)) = true ∧
      inContract (.ext3 ⟨15, .unsigned⟩ ⟨15, .signed⟩ ⟨15, .signed⟩) (boundAt 8 15 (stream .cached)) = true ∧
      inContract (.ext4 ⟨16, .unsigned⟩ ⟨16, .signed⟩ ⟨16, .signed⟩ ⟨0, .signed⟩) (boundAt 8 0 (stream .cached)) =
        true := by decide

/-- Unsigned, width 0, and signed below the width of a word, under either strategy. -/
theorem witness_ExtractedBitsAreStreamBits :
    (boundAt 8 13 (stream .cached)).rc.ofs < (stream .cached).params.W ∧
      cacheCoherent (boundAt 8 13 (stream .cached)) = true ∧
      completes (exec (.ext1 ⟨15, .signed⟩) (boundAt 8 13 (stream .cached))) = true ∧
      completes (exec (.ext1 ⟨6, .unsigned⟩) (boundAt 8 13 (stream .direct))) = true ∧
      completes (exec (.ext1 ⟨0, .signed⟩) (boundAt 8 13 (stream .direct))) = true := by decide

theorem witness_FusedReadsEqualSingleReads :
    completes (exec (.ext2 ⟨3, .unsigned⟩ ⟨13, .signed⟩) (boundAt 8 0 (stream .cached))) = true ∧
      (runExt1 [⟨3, .unsigned⟩, ⟨13, .signed⟩] (boundAt 8 0 (stream .cached))).isSome = true := by decide

theorem witness_ExtlExpansionEqualsSingleReads :
    (runExt1 [⟨3, .unsigned⟩, ⟨13, .signed⟩, ⟨1, .signed⟩, ⟨0, .signed⟩, ⟨15, .unsigned⟩]
        (boundAt 8 0 (stream .cached))).isSome = true ∧
      (runExtracts (expandExtl [⟨3, .unsigned⟩, ⟨13, .signed⟩, ⟨1, .signed⟩, ⟨0, .signed⟩, ⟨15, .unsigned⟩])
        (boundAt 8 0 (stream .cached))).isSome = true := by decide

theorem witness_SequentialReadsFollowTheStream :
    (boundAt 8 15 (stream .cached)).rc.ofs < (stream .cached).params.W ∧
      cacheCoherent (boundAt 8 15 (stream .cached)) = true ∧
      (runExt1 [⟨15, .unsigned⟩, ⟨2, .signed⟩, ⟨16, .unsigned⟩] (boundAt 8 15 (stream .cached))).isSome =
        true := by decide

theorem witness_SignTagChangesOnlyUpperBits :
    completes (exec (.ext1 ⟨15, .signed⟩) (boundAt 8 15 (stream .direct))) = true := by decide

/-- The two strategies at the same place of the same stream, and a command both complete. -/
theorem witness_StrategiesAreObservablyEquivalent :
    (boundAt 8 15 (stream .direct)).rc.ofs < (stream .direct).params.W ∧
      StrategyTwins (boundAt 8 15 (stream .direct)) (boundAt 8 15 (stream .cached)) ∧
      storesToMemory (.ext2 ⟨15, .signed⟩ ⟨2, .unsigned⟩) = false ∧
      completes (exec (.ext2 ⟨15, .signed⟩ ⟨2, .unsigned⟩) (boundAt 8 15 (stream .direct))) = true ∧
      completes (exec (.ext2 ⟨15, .signed⟩ ⟨2, .unsigned⟩) (boundAt 8 15 (stream .cached))) = true := by
  refine ⟨by decide, ⟨rfl, rfl, rfl, rfl, rfl, rfl, rfl, by decide⟩, by decide, by decide, by decide⟩

theorem witness_SkipOfWholeWordsEqualsAdvw :
    (boundAt 8 15 (stream .cached)).rc.ofs < (stream .cached).params.W ∧
      completes (exec .skip (withP (4 * 16) (boundAt 8 15 (stream .cached)))) = true ∧
      completes (exec .advw (withP 4 (boundAt 8 15 (stream .cached)))) = true := by decide

theorem witness_BindwBindsTheWriter :
    (255 < (p16 .direct).indexCount ∧ 15 < (p16 .direct).W) ∧
      (p16 .direct).indexCount ≤ 256 ∧ (p16 .direct).W ≤ 16 := by decide

/-- Width 0 at the last place, ending at the top bit, straddling, full width. -/
theorem witness_Wr1WritesTheFieldAndAdvances :
    inContract (.wr1 0) (writerAt 255 15 (start (p16 .direct) 0 [] 7 0 0)) = true ∧
      inContract (.wr1 3) (writerAt 0 13 (start (p16 .direct) 0 [0xFFFF] 7 0 0)) = true ∧
      inContract (.wr1 15) (writerAt 254 15 (start (p16 .direct) 254 [0xFFFF, 0] 0x7FFF 0 0)) = true ∧
      inContract (.wr1 16) (writerAt 0 0 (start (p16 .direct) 0 [0xFFFF] 0xFFFF 0 0)) = true := by decide

/-- Each side of the equality; and width 0 at the last place. -/
theorem witness_Wr1IsSbrAtTheCursorThenWskip :
    let s := writerAt 254 15 (start (p16 .direct) 254 [0xFFFF, 0] 0x7FFF 0 0)
    let z := writerAt 255 15 (start (p16 .direct) 0 [] 7 0 0)
    completes (exec (.wr1 15) s) = true ∧ completes (exec (.wr1 0) z) = true ∧
      ((seen id (exec (.sbr 15 15) (withP 254 s))).bind fun u =>
          seen id (exec .wskip (withP 15 u))).isSome = true ∧
      ((seen id (exec (.sbr 0 15) (withP 255 z))).bind fun u =>
          seen id (exec .wskip (withP 0 u))).isSome = true := by decide

theorem witness_WskipMovesTheWriter :
    inContract .wskip (writerAt 0 0 (start (p16 .direct) 0 [] 0 0 4095)) = true := by decide

/-- Full width and a straddle, and under CONDITIONAL the last index. -/
theorem witness_SetThenExtractReturnsTheValue :
    (start (p16 .direct) 0 [0xABCD, 0x1234] 0xFFFF 0 0).ports.a < 2 ^ 16 ∧
      inContract (.xbrm 16 0) (start (p16 .direct) 0 [0xABCD, 0x1234] 0xFFFF 0 0) = true ∧
      completes (exec (.sbr 16 0) (start (p16 .direct) 0 [0xABCD, 0x1234] 0xFFFF 0 0)) = true ∧
      inContract (.xbrm 15 15) (start (p16 .direct) 0 [0xABCD, 0x1234] 0x7FFF 0 0) = true ∧
      completes (exec (.sbr 15 15) (start (p16 .direct) 0 [0xABCD, 0x1234] 0x7FFF 0 0)) = true ∧
      inContract (.xbrm 3 13)
        (start { p16 .direct with word1Policy := .conditional } 255 [0xABCD] 7 0 255) = true ∧
      completes (exec (.sbr 3 13)
        (start { p16 .direct with word1Policy := .conditional } 255 [0xABCD] 7 0 255)) = true := by decide

/-- A straddling write, a write of width 0 and one more, then the bind and the reads of the same widths. -/
theorem witness_WriterAndReaderAgree :
    let fs : List (Field × Word) := [(⟨6, .signed⟩, 0x25), (⟨0, .unsigned⟩, 0), (⟨13, .unsigned⟩, 0x1FFF)]
    let s := writerAt 0 13 (start (p16 .cached) 0 [0xFFFF, 0, 0, 0] 0 0 0)
    (∀ p ∈ fs, p.2 < 2 ^ p.1.bits) ∧ s.wc.ofs < s.params.W ∧
      ((runWr1 fs s).bind fun t =>
          (seen id (exec (.bindr 13) (withP 0 t))).bind fun u => runExt1 (fs.map Prod.fst) u).isSome =
        true := by decide

theorem witness_CommandsCompleteExactlyInContract :
    (boundAt 8 15 (stream .direct)).rc.ofs < (stream .direct).params.W := by decide

theorem witness_UnboundContextsFault :
    (stream .direct).rc.bound = false ∧ usesReader (.ext4 ⟨1, .signed⟩ ⟨1, .signed⟩ ⟨1, .signed⟩ ⟨1, .signed⟩) = true ∧
      (stream .direct).wc.bound = false ∧ usesWriter .wskip = true ∧
      completes (exec (.bindr 0) (withP 8 (stream .direct))) = true ∧
      completes (exec (.bindw 0) (withP 8 (stream .direct))) = true := by decide

/-- For the statements about every next state (RegistersAreWrittenOnlyByTheirCommands, StoresTouchOnlyTheirWords,
EveryCommandCompletesOnce, RequestsTouchOnlyAdmissibleWords, MemoryRequestsPerCommand, MemoryIsWhatTheRequestsMadeIt):
a command of each kind that completes. -/
theorem witness_NextStates :
    (boundAt 8 15 (stream .cached)).rc.ofs < (stream .cached).params.W ∧
      writesReader (.shw 0) = false ∧ usesWriter (.shw 0) = false ∧
      completes (exec (.shw 0) (boundAt 8 15 (stream .cached))) = true ∧
      completes (exec .advw (withP 1 (boundAt 8 15 (stream .cached)))) = true ∧
      (boundAt 8 15 (stream .cached)).wc.ofs < (stream .cached).params.W ∧
      storeIndex (.sbr 15 15) (start (p16 .direct) 0 [0xABCD, 0x1234] 0x7FFF 0 0) = some 0 ∧
      completes (exec (.sbr 15 15) (start (p16 .direct) 0 [0xABCD, 0x1234] 0x7FFF 0 0)) = true := by decide

theorem witness_CursorsNeverMoveBackwards :
    (boundAt 8 15 (stream .cached)).rc.ofs < (stream .cached).params.W ∧
      completes (exec (.ext1 ⟨0, .signed⟩) (boundAt 8 15 (stream .cached))) = true ∧
      completes (exec .skip (withP 0 (boundAt 8 15 (stream .cached)))) = true ∧
      completes (exec (.wr1 0) (writerAt 255 15 (stream .cached))) = true ∧
      completes (exec .wskip (withP 0 (writerAt 255 15 (stream .cached)))) = true ∧
      completes (exec (.bindr 15) (withP 8 (boundAt 9 0 (stream .cached)))) = true ∧
      completes (exec (.bindw 15) (withP 0 (writerAt 255 15 (stream .cached)))) = true := by decide

/-- A bind; and a store to another word under a coherent reader. -/
theorem witness_CachedWordsStayCoherent :
    (boundAt 8 15 (stream .cached)).rc.ofs < (stream .cached).params.W ∧
      completes (exec (.bindr 15) (withP 8 (stream .cached))) = true ∧
      cacheCoherent (boundAt 8 15 (stream .cached)) = true ∧
      seen (fun t => (wordAt t 8, wordAt t 9)) (exec (.sbr 16 0) (withA 1 (withP 10 (boundAt 8 15 (stream .cached))))) =
        some (wordAt (stream .cached) 8, wordAt (stream .cached) 9) := by decide

theorem witness_StoresDoNotReachTheCachedWords :
    (boundAt 8 15 (stream .cached)).params.strategy = .cached ∧
      completes (exec (.sbr 16 0) (withA 1 (withP 8 (boundAt 8 15 (stream .cached))))) = true ∧
      completes (exec (.wr1 1) (withA 1 (writerAt 9 15 (boundAt 8 15 (stream .cached))))) = true ∧
      completes (hostStore 9 1 (boundAt 8 15 (stream .cached))) = true := by decide

theorem witness_ReaderAndWriterAreIndependent :
    usesWriter (.ext1 ⟨15, .signed⟩) = false ∧
      completes (exec (.ext1 ⟨15, .signed⟩) (boundAt 8 15 (stream .cached))) = true ∧
      usesReader (.wr1 1) = false ∧
      completes (exec (.wr1 1) (withA 1 (writerAt 9 15 (boundAt 8 15 (stream .cached))))) = true := by decide

/-- The same words in either byte order after different numbers of commands, one command that completes and one that faults. -/
theorem witness_UnobservableDifferencesStayUnobservable :
    Indistinguishable { start (p16 .direct) 8 [0xABCD, 0x1234] 0 0 8 with completions := 3 }
        (start { p16 .direct with byteOrder := .big .w16, shiftImpl := .accelerated } 8 [0xABCD, 0x1234] 0 0 8) ∧
      completes (exec (.xbrm 6 13) (start (p16 .direct) 8 [0xABCD, 0x1234] 0 0 8)) = true ∧
      faultOf (exec (.xbrm 6 16) (start (p16 .direct) 8 [0xABCD, 0x1234] 0 0 8)) =
        some (.bitOffset (.xbrm 6 16)) := by
  refine ⟨⟨rfl, rfl, rfl, rfl, rfl, rfl, rfl, rfl, rfl, rfl, fun i => ?_⟩, by decide, by decide⟩
  simp only [wordAt, start, State.resetOf, provide, Memory.loadWord_storeWord]
  rfl

/-- The ways out of the contract that the statements about XBRM and SBR name, each at its boundary. -/
theorem witness_fieldsOfMemoryStop :
    ((p16 .direct).indexCount ≤ 256 ∧
        faultOf (exec (.xbrm 1 0) (withP 256 (stream .direct))) = some (.indexRange (.xbrm 1 0))) ∧
      faultOf (exec (.xbrm 1 16) (withP 8 (stream .direct))) = some (.bitOffset (.xbrm 1 16)) ∧
      faultOf (exec (.xbrm 16 1) (withP 8 (stream .direct))) = some (.fieldWidth (.xbrm 16 1)) ∧
      faultOf (exec (.xbrm 17 0) (withP 8 (stream .direct))) = some (.fieldWidth (.xbrm 17 0)) ∧
      faultOf (exec (.sbr 1 0) (withP 256 (stream .direct))) = some (.indexRange (.sbr 1 0)) ∧
      faultOf (exec (.sbr 1 16) (withP 8 (stream .direct))) = some (.bitOffset (.sbr 1 16)) ∧
      faultOf (exec (.sbr 16 1) (withP 8 (stream .direct))) = some (.fieldWidth (.sbr 16 1)) ∧
      faultOf (exec (.sbr 17 0) (withP 8 (stream .direct))) = some (.fieldWidth (.sbr 17 0)) ∧
      faultOf (exec (.sbr 1 0) (withA 2 (withP 8 (stream .direct)))) = some (.untrimmedValue (.sbr 1 0)) := by
  decide

/-- Out of the contract by a word that is not provided: the padding word, and the words a cached bind or advance loads. -/
theorem witness_unprovidedWordsStop :
    inContract (.xbrm 6 13) (withP 13 (stream .direct)) = false ∧
      faultOf (exec (.xbrm 6 13) (withP 13 (stream .direct))) = some (.unprovidedWord (.xbrm 6 13)) ∧
      inContract (.sbr 6 13) (withP 13 (stream .direct)) = false ∧
      inContract (.bindr 0) (withP 13 (stream .cached)) = false ∧
      inContract .curr (boundAt 14 0 (stream .direct)) = false ∧
      inContract .next (boundAt 13 0 (stream .direct)) = false ∧
      inContract .advw (withP 1 (boundAt 12 0 (stream .cached))) = false ∧
      inContract .skip (withP 1 (boundAt 12 15 (stream .cached))) = false ∧
      inContract (.ext1 ⟨3, .signed⟩) (boundAt 12 13 (stream .cached)) = false ∧
      inContract (.wr1 6) (writerAt 13 13 (stream .direct)) = false := by decide

/-- The same for the reader's commands. -/
theorem witness_readerCommandsStop :
    faultOf (exec (.bindr 0) (withP 256 (stream .direct))) = some (.indexRange (.bindr 0)) ∧
      faultOf (exec (.bindr 16) (withP 8 (stream .direct))) = some (.bitOffset (.bindr 16)) ∧
      faultOf (exec (.bindr 0) (withP 255 (stream .cached))) = some (.indexRange (.bindr 0)) ∧
      faultOf (exec .next (stream .direct)) = some (.unboundCursor .next) ∧
      faultOf (exec .next (boundAt 255 0 (stream .direct))) = some (.indexRange .next) ∧
      faultOf (exec .advw (withP 0 (stream .direct))) = some (.unboundCursor .advw) ∧
      faultOf (exec .advw (withP 256 (boundAt 0 0 (stream .direct)))) = some (.indexRange .advw) ∧
      faultOf (exec .advw (withP 248 (boundAt 8 0 (stream .direct)))) = some (.indexRange .advw) ∧
      faultOf (exec .skip (withP 0 (stream .direct))) = some (.unboundCursor .skip) ∧
      faultOf (exec .skip (withP 1 (boundAt 255 15 (stream .direct)))) = some (.indexRange .skip) ∧
      faultOf (exec (.ext1 ⟨0, .signed⟩) (stream .direct)) = some (.unboundCursor (.ext1 ⟨0, .signed⟩)) ∧
      faultOf (exec (.ext1 ⟨17, .signed⟩) (boundAt 8 0 (stream .direct))) =
        some (.fieldWidth (.ext1 ⟨17, .signed⟩)) ∧
      faultOf (exec (.ext1 ⟨16, .signed⟩) (boundAt 8 1 (stream .direct))) =
        some (.fieldWidth (.ext1 ⟨16, .signed⟩)) := by decide

/-- The same for the writer's commands. -/
theorem witness_writerCommandsStop :
    faultOf (exec (.bindw 0) (withP 256 (stream .direct))) = some (.indexRange (.bindw 0)) ∧
      faultOf (exec (.bindw 16) (withP 8 (stream .direct))) = some (.bitOffset (.bindw 16)) ∧
      faultOf (exec (.wr1 0) (stream .direct)) = some (.unboundCursor (.wr1 0)) ∧
      faultOf (exec (.wr1 17) (writerAt 8 0 (stream .direct))) = some (.fieldWidth (.wr1 17)) ∧
      faultOf (exec (.wr1 16) (writerAt 8 1 (stream .direct))) = some (.fieldWidth (.wr1 16)) ∧
      faultOf (exec (.wr1 1) (withA 2 (writerAt 8 0 (stream .direct)))) = some (.untrimmedValue (.wr1 1)) ∧
      faultOf (exec (.wr1 1) (writerAt 255 15 (start (p16 .direct) 255 [0] 1 0 0))) =
        some (.indexRange (.wr1 1)) ∧
      faultOf (exec .wskip (stream .direct)) = some (.unboundCursor .wskip) ∧
      faultOf (exec .wskip (withP 1 (writerAt 255 15 (stream .direct)))) = some (.indexRange .wskip) := by
  decide

theorem witness_StepKeepsTheParameters :
    completes (step ((stream .direct).withFetchWord 64 0x505)) = true := by decide

theorem witness_StepKeepsRegistersInRange :
    registersInRange (boundAt 8 15 (stream .cached)) = true ∧
      completes (step ((boundAt 8 15 (stream .cached)).withFetchWord 64 0x8F21)) = true := by decide

theorem witness_StepKeepsTheMemoryLegal :
    memoryLegal (start (p16 .direct) 254 [0xABCD, 0x1234] 0 0 0) = true ∧
      completes (step { start (p16 .direct) 254 [0xABCD, 0x1234] 0 0 0 with inputs := [.store 0 7] }) =
        true := by decide

theorem witness_ResetMeetsTheInvariants :
    Params.chosen.wf = true ∧ ({ p16 .cached with
      width := .w64, shiftImpl := .accelerated, byteOrder := .big .w64 } : Params).wf = true := by
  decide

end Sys2Proof.Tests
end

section
/-! SUPPORT. The cursor registers of both contexts (10_state.md R20 to R36): what each command does to them, and the two
statements about unbound contexts and about the cursors' direction. -/

namespace Sys2Proof.Machine

open Sys2Proof

/-! ### Unbound contexts (10_state.md R36) -/

/-- A command that checks the reader first, in a state where the reader is unbound. -/
theorem conclude_unboundReader (c : Instr) {s : State} (h : s.rc.bound = false)
    (body : Unit → Except Violation State) :
    conclude c (requireReader s >>= body) = .fault (.unboundCursor c) := by
  rw [requireReader, h]
  rfl

/-- A command that checks the writer first, in a state where the writer is unbound. -/
theorem conclude_unboundWriter (c : Instr) {s : State} (h : s.wc.bound = false)
    (body : Unit → Except Violation State) :
    conclude c (requireWriter s >>= body) = .fault (.unboundCursor c) := by
  rw [requireWriter, h]
  rfl

theorem exec_of_unboundReader {i : Instr} {s : State} (h : s.rc.bound = false)
    (hu : usesReader i = true) (hb : ∀ off, i ≠ .bindr off) :
    exec i s = .fault (.unboundCursor i) := by
  cases i with
  | bindr off => exact absurd rfl (hb off)
  | curr | next | advw | skip | ext1 _ | ext2 _ _ | ext3 _ _ _ | ext4 _ _ _ _ =>
    exact conclude_unboundReader _ h _
  | shw _ | xbr _ _ | xbrm _ _ | sbr _ _ | sxt _ | bindw _ | wr1 _ | wskip => cases hu

theorem exec_of_unboundWriter {i : Instr} {s : State} (h : s.wc.bound = false)
    (hu : usesWriter i = true) (hb : ∀ off, i ≠ .bindw off) :
    exec i s = .fault (.unboundCursor i) := by
  cases i with
  | bindw off => exact absurd rfl (hb off)
  | wr1 _ | wskip => exact conclude_unboundWriter _ h _
  | shw _ | xbr _ _ | xbrm _ _ | sbr _ _ | sxt _ | bindr _ | curr | next | advw | skip | ext1 _
  | ext2 _ _ | ext3 _ _ _ | ext4 _ _ _ _ => cases hu

/-- Settles O38: every command that reads a context checks first that the context is bound, and the state after a bind is
explicit. -/
theorem unboundContextsFault : Obligations.UnboundContextsFault := by
  intro i s t
  refine ⟨fun h hu hb => ⟨_, exec_of_unboundReader h hu hb, rfl⟩,
    fun h hu hb => ⟨_, exec_of_unboundWriter h hu hb, rfl⟩, fun off h => ?_, fun off h => ?_⟩
  · rw [(exec_bindr_eq_next.mp h).2]
    exact ⟨rfl, rfl⟩
  · rw [(exec_bindw_eq_next.mp h).2]
    exact ⟨rfl, rfl⟩

/-! ### What a command does to the registers it does not bind (10_state.md R21) -/

@[simp] theorem bodyAfter_params (i : Instr) (s : State) : (bodyAfter i s).params = s.params := by
  cases i with
  | sbr n off => exact afterSet_params _ _ _ _ s
  | wr1 n => exact afterSet_params _ _ _ _ s
  | ext1 _ | ext2 _ _ | ext3 _ _ _ | ext4 _ _ _ _ => exact (afterExtracts_frame _ s).1
  | shw _ | xbr _ _ | xbrm _ _ | sxt _ | bindr _ | curr | next | advw | skip | bindw _ | wskip => rfl

theorem bodyAfter_rc_of_not_writesReader {i : Instr} (s : State) (h : writesReader i = false) :
    (bodyAfter i s).rc = s.rc := by
  cases i with
  | sbr n off => exact afterSet_rc _ _ _ _ s
  | wr1 n => exact afterSet_rc _ _ _ _ s
  | bindr _ | advw | skip | ext1 _ | ext2 _ _ | ext3 _ _ _ | ext4 _ _ _ _ => cases h
  | shw _ | xbr _ _ | xbrm _ _ | sxt _ | curr | next | bindw _ | wskip => rfl

theorem bodyAfter_wc_of_not_usesWriter {i : Instr} (s : State) (h : usesWriter i = false) :
    (bodyAfter i s).wc = s.wc := by
  cases i with
  | sbr n off => exact afterSet_wc _ _ _ _ s
  | bindw _ | wr1 _ | wskip => cases h
  | ext1 _ | ext2 _ _ | ext3 _ _ _ | ext4 _ _ _ _ => exact (afterExtracts_frame _ s).2.1
  | shw _ | xbr _ _ | xbrm _ _ | sxt _ | bindr _ | curr | next | advw | skip => rfl

/-! ### How far a command moves the cursors (10_state.md R23) -/

@[simp] theorem readerPos_respond (vs : List Word) (s : State) : readerPos (respond vs s) = readerPos s := rfl

@[simp] theorem writerPos_respond (vs : List Word) (s : State) : writerPos (respond vs s) = writerPos s := rfl

theorem readerPos_afterAdvance (k : Nat) (s : State) :
    readerPos (afterAdvance k s) = readerPos s + k * s.params.W := by
  simp only [readerPos, afterAdvance, afterLoads_params, advancedReader_idx, advancedReader_ofs, Nat.add_mul]
  omega

/-- "After the procedure the bit address has grown by exactly `n`", for the writer (43_writer.md R172). -/
theorem writerPos_afterWriterAdvance (n : Nat) (s : State) :
    writerPos (afterWriterAdvance n s) = writerPos s + n := by
  simp only [writerPos, afterWriterAdvance, Nat.add_mul]
  have := Nat.div_add_mod' (s.wc.ofs + n) s.params.W
  omega

theorem idx_le_afterExtracts_idx (fs : List Field) (s : State) :
    s.rc.idx ≤ (afterExtracts fs s).rc.idx := by
  induction fs generalizing s with
  | nil => exact le_refl _
  | cons f fs ih =>
    have h1 : s.rc.idx ≤ (afterExtract f.bits s).rc.idx := by simp [afterExtract]
    exact h1.trans (ih _)

/-- By how many bits a command that does not bind the reader moves its bit address on. -/
def readerBits (i : Instr) (s : State) : Nat :=
  match i with
  | .advw => s.ports.p * s.params.W
  | .skip => s.ports.p
  | .ext1 f0 => totalBits [f0]
  | .ext2 f0 f1 => totalBits [f0, f1]
  | .ext3 f0 f1 f2 => totalBits [f0, f1, f2]
  | .ext4 f0 f1 f2 f3 => totalBits [f0, f1, f2, f3]
  | .shw _ | .xbr _ _ | .xbrm _ _ | .sbr _ _ | .sxt _ | .bindr _ | .curr | .next | .bindw _ | .wr1 _ | .wskip => 0

/-- By how many bits a command that does not bind the writer moves its bit address on. -/
def writerBits (i : Instr) (s : State) : Nat :=
  match i with
  | .wr1 n => n
  | .wskip => s.ports.p
  | .shw _ | .xbr _ _ | .xbrm _ _ | .sbr _ _ | .sxt _ | .bindr _ | .curr | .next | .advw | .skip | .ext1 _
  | .ext2 _ _ | .ext3 _ _ _ | .ext4 _ _ _ _ | .bindw _ => 0

/-- The reader of a command that does not bind it: the word index does not fall, and the bit address grows by exactly
`readerBits`. -/
theorem reader_bodyAfter {i : Instr} (s : State) (hb : ∀ off, i ≠ .bindr off) :
    s.rc.idx ≤ (bodyAfter i s).rc.idx ∧ readerPos (bodyAfter i s) = readerPos s + readerBits i s := by
  cases i with
  | bindr off => exact absurd rfl (hb off)
  | advw => exact ⟨by simp [bodyAfter, afterAdvance], readerPos_afterAdvance _ s⟩
  | skip => exact ⟨by simp [bodyAfter], readerPos_afterCursorAdvance _ s⟩
  | ext1 _ | ext2 _ _ | ext3 _ _ _ | ext4 _ _ _ _ =>
    exact ⟨idx_le_afterExtracts_idx _ s, readerPos_afterExtracts _ s⟩
  | shw _ | xbr _ _ | xbrm _ _ | sbr _ _ | sxt _ | curr | next | bindw _ | wr1 _ | wskip =>
    rw [readerPos, bodyAfter_rc_of_not_writesReader s rfl, bodyAfter_params]
    exact ⟨le_refl _, rfl⟩

/-- The writer of a command that does not bind it: the word index does not fall, and the bit address grows by exactly
`writerBits`. -/
theorem writer_bodyAfter {i : Instr} (s : State) (hb : ∀ off, i ≠ .bindw off) :
    s.wc.idx ≤ (bodyAfter i s).wc.idx ∧ writerPos (bodyAfter i s) = writerPos s + writerBits i s := by
  cases i with
  | bindw off => exact absurd rfl (hb off)
  | wr1 n =>
    simp only [bodyAfter, writerPos_afterWriterAdvance]
    exact ⟨by simp [afterWriterAdvance], by simp [writerPos, writerBits]⟩
  | wskip => exact ⟨Nat.le_add_right _ _, writerPos_afterWriterAdvance _ s⟩
  | shw _ | xbr _ _ | xbrm _ _ | sbr _ _ | sxt _ | bindr _ | curr | next | advw | skip | ext1 _
  | ext2 _ _ | ext3 _ _ _ | ext4 _ _ _ _ =>
    rw [writerPos, bodyAfter_wc_of_not_usesWriter s rfl, bodyAfter_params]
    exact ⟨le_refl _, rfl⟩

/-- Settles O45: every command but the bind moves a cursor on by an explicit number of bits, which is 0 for a zero-width
extract or write and for an advance by 0. -/
theorem cursorsNeverMoveBackwards : Obligations.CursorsNeverMoveBackwards := by
  intro i s t _ _ h
  obtain ⟨vs, rfl⟩ := exec_next_state h
  simp only [respond_rc, respond_wc, readerPos_respond, writerPos_respond]
  refine ⟨fun hb => ?_, fun hb => ?_, ?_, ?_, ?_, ?_⟩
  · obtain ⟨hidx, hpos⟩ := reader_bodyAfter s hb
    exact ⟨hidx, by omega⟩
  · obtain ⟨hidx, hpos⟩ := writer_bodyAfter s hb
    exact ⟨hidx, by omega⟩
  · rintro (⟨sign, rfl⟩ | ⟨rfl | rfl, hp⟩)
    · exact (reader_bodyAfter s (by simp)).2
    · rw [(reader_bodyAfter s (by simp)).2, readerBits, hp, Nat.zero_mul, Nat.add_zero]
    · rw [(reader_bodyAfter s (by simp)).2, readerBits, hp, Nat.add_zero]
  · rintro (rfl | ⟨rfl, hp⟩)
    · exact (writer_bodyAfter s (by simp)).2
    · rw [(writer_bodyAfter s (by simp)).2, writerBits, hp, Nat.add_zero]
  · rintro off rfl
    exact ⟨rfl, rfl⟩
  · rintro off rfl
    exact ⟨rfl, rfl⟩

end Sys2Proof.Machine
end

section
/-! SUPPORT. What the statements about single commands share: which checks of a command end it in a fault rather than a race
(60_exceptions.md R201 to R203), what a completion leaves alone, and the bits of the stream (20_memory.md R42) under the
stores of a field write. -/

namespace Sys2Proof.Machine

open Sys2Proof

/-! ### Outcomes -/

/-- A procedure ends in a violation other than the race V8, the one violation that a step refuses. -/
def EndsInFault {α : Type} (r : Except Violation α) : Prop := ∃ v, v ≠ .race ∧ r = .error v

theorem EndsInFault.bind {α β : Type} {r : Except Violation α} (h : EndsInFault r)
    (f : α → Except Violation β) : EndsInFault (r >>= f) := by
  obtain ⟨v, hv, rfl⟩ := h
  exact ⟨v, hv, rfl⟩

theorem EndsInFault.conclude {r : Except Violation State} (h : EndsInFault r) (c : Instr) :
    ∃ f, conclude c r = .fault f := by
  obtain ⟨v, hv, rfl⟩ := h
  cases v with
  | race => exact absurd rfl hv
  | shiftCount | fieldWidth | bitOffset | untrimmedValue | unprovidedWord | indexRange | unboundCursor =>
    exact ⟨_, rfl⟩

/-- A check faults, or what follows it has to. -/
theorem endsInFault_require {α : Type} {c : Bool} {v : Violation} {f : Unit → Except Violation α}
    (hv : v ≠ .race) (h : c = true → EndsInFault (f ())) : EndsInFault (require c v >>= f) := by
  cases c with
  | false => exact ⟨v, hv, rfl⟩
  | true => exact h rfl

theorem endsInFault_requireFieldWidth {α : Type} {w off n : Nat} {f : Unit → Except Violation α}
    (h : fieldFits w off n = true → EndsInFault (f ())) :
    EndsInFault (requireFieldWidth w off n >>= f) := by
  by_cases hf : fieldFits w off n = true
  · rw [requireFieldWidth_eq_ok.mpr hf]
    exact h hf
  · refine EndsInFault.bind ?_ f
    rw [requireFieldWidth]
    refine endsInFault_require (v := .fieldWidth) nofun fun hle => ⟨.fieldWidth, nofun, ?_⟩
    have hfull : ¬(n = w → off = 0) := by
      rw [fieldFits_iff] at hf
      have := of_decide_eq_true hle
      omega
    rw [decide_eq_false hfull, require_false]

/-- A width above 0 outside R110 faults in an extract (40_primitives.md R105). -/
theorem endsInFault_extractBitRange {w w0 w1 off n : Nat} (hn : 0 < n)
    (h : ¬(off < w ∧ fieldFits w off n = true)) : EndsInFault (extractBitRange w w0 w1 off n) := by
  rw [extractBitRange, if_neg hn.ne']
  exact endsInFault_require nofun fun h1 => endsInFault_requireFieldWidth fun h2 =>
    absurd ⟨of_decide_eq_true h1, h2⟩ h

/-- An offset, a width or a value out of range faults in a set, before any word is accessed (40_primitives.md R111, R115). -/
theorem endsInFault_setBitRange {p val off n : Nat} {s : State} (hn : 0 < n)
    (h : ¬(off < s.params.W ∧ fieldFits s.params.W off n = true ∧ val < 2 ^ n)) :
    EndsInFault (setBitRange p val off n s) := by
  rw [setBitRange, if_neg hn.ne']
  exact endsInFault_require nofun fun h1 => endsInFault_requireFieldWidth fun h2 =>
    endsInFault_require nofun fun h3 => absurd ⟨of_decide_eq_true h1, h2, of_decide_eq_true h3⟩ h

/-- What is left of a command that only drives results (30_encoding.md R71). -/
theorem keepsAllButResults_respond (vs : List Word) (s : State) : KeepsAllButResults s (respond vs s) :=
  ⟨rfl, rfl, rfl, rfl, rfl, rfl, rfl, rfl, rfl⟩

/-! ### The bits of the stream (20_memory.md R42) -/

@[simp] theorem streamBit_respond (vs : List Word) (s : State) (k : Nat) :
    streamBit (respond vs s) k = streamBit s k := rfl

@[simp] theorem streamBit_afterLoads (is : List Nat) (s : State) (k : Nat) :
    streamBit (afterLoads is s) k = streamBit s k := rfl

/-- Bit `j` of word `i` stands at stream bit `i * W + j`. -/
theorem streamBit_mul_add (s : State) (i : Nat) {j : Nat} (hj : j < s.params.W) :
    streamBit s (i * s.params.W + j) = (wordAt s i).map (fun v => v.testBit j) := by
  rw [streamBit, Nat.add_comm, Nat.add_mul_div_right _ _ s.params.W_pos, Nat.div_eq_of_lt hj, zero_add,
    Nat.add_mul_mod_self_right, Nat.mod_eq_of_lt hj]

/-- The first bit of a word tells whether the word is provided. -/
theorem isSome_wordAt (s : State) (i : Nat) :
    (wordAt s i).isSome = (streamBit s (i * s.params.W)).isSome := by
  have h := streamBit_mul_add s i s.params.W_pos
  rw [Nat.add_zero] at h
  rw [h, Option.isSome_map]

theorem isSome_wordAt_of_readable {s : State} {i : Nat} (h : readable s i = true) :
    (wordAt s i).isSome = true := Option.isSome_iff_exists.mpr (wordAt_of_readable h)

/-! ### Field writes -/

theorem fieldWritten_zero (s : State) (pos : Nat) (val : Word) : FieldWritten s s pos 0 val := by
  intro k
  rw [if_neg (by omega)]

/-- A field write takes no provided word away. -/
theorem FieldWritten.isSome_wordAt {s t : State} {pos n i : Nat} {val : Word}
    (h : FieldWritten s t pos n val) (hp : t.params = s.params) (hi : (wordAt s i).isSome = true) :
    (wordAt t i).isSome = true := by
  rw [Machine.isSome_wordAt] at hi
  rw [Machine.isSome_wordAt, hp, h]
  split_ifs
  · rfl
  · exact hi

/-- Two field writes in a row, the second of the value's upper bits behind the first, are one. -/
theorem FieldWritten.trans {s t u : State} {pos n m : Nat} {val : Word}
    (h1 : FieldWritten s t pos n val) (h2 : FieldWritten t u (pos + n) m (val >>> n)) :
    FieldWritten s u pos (n + m) val := by
  intro k
  rw [h2 k, h1 k, Nat.testBit_shiftRight]
  by_cases hlow : k < pos + n
  · rw [if_neg (by omega)]
    exact if_congr (by omega) rfl rfl
  · rw [if_neg (c := pos ≤ k ∧ k < pos + n) (by omega), show n + (k - (pos + n)) = k - pos by omega]
    exact if_congr (by omega) rfl rfl

/-- A store of a word with a field replaced writes that field of the stream. -/
theorem fieldWritten_afterStore {s : State} {p old off n : Nat} (val : Word) (hw : wordAt s p = some old)
    (hn : off + n ≤ s.params.W) :
    FieldWritten s (afterStore p (insertedWord s.params.W old val off n) s)
      (p * s.params.W + off) n val := by
  have ho : old < 2 ^ s.params.W := Memory.loadWord_lt hw
  intro k
  obtain ⟨i, j, hj, rfl⟩ : ∃ i j, j < s.params.W ∧ k = i * s.params.W + j :=
    ⟨k / s.params.W, k % s.params.W, Nat.mod_lt _ s.params.W_pos, (Nat.div_add_mod' _ _).symm⟩
  rw [streamBit_mul_add s i hj]
  refine (streamBit_mul_add (afterStore _ _ s) i hj).trans ?_
  rw [wordAt_afterStore]
  by_cases hi : i = p
  · subst hi
    rw [if_pos rfl, Nat.mod_eq_of_lt (insertedWord_lt hn ho), hw, Option.map_some, Option.map_some,
      insertedWord_testBit hn ho, Nat.add_sub_add_left]
    by_cases hin : off ≤ j ∧ j < off + n
    · rw [if_pos hin, if_pos (by omega)]
    · rw [if_neg hin, if_neg (by omega)]
  · have hout : i * s.params.W + s.params.W ≤ p * s.params.W ∨
        p * s.params.W + s.params.W ≤ i * s.params.W := by
      simp only [← Nat.succ_mul]
      exact (Nat.lt_or_gt_of_ne hi).imp (Nat.mul_le_mul_right _) (Nat.mul_le_mul_right _)
    rw [if_neg hi, if_neg (by omega)]

/-- What R111, R114 and R115 of 40_primitives.md ask of a field write of a width above 0. -/
theorem writeInContract_iff {s : State} {p val off n : Nat} (hn : 0 < n) :
    writeInContract s p val off n = true ↔
      off < s.params.W ∧ fieldFits s.params.W off n = true ∧ val < 2 ^ n ∧ writable s p = true ∧
        (s.params.W < off + n → writable s (p + 1) = true) := by
  rw [← Nat.not_le (a := off + n), ← or_iff_not_imp_left]
  simp only [writeInContract, Bool.or_eq_true, Bool.and_eq_true, decide_eq_true_eq, hn.ne', false_or,
    and_assoc]

theorem afterSet_of_fits {s : State} {p off n : Nat} (val : Word) (hn : 0 < n)
    (hf : off + n ≤ s.params.W) :
    afterSet p val off n s =
      afterStore p (insertedWord s.params.W ((wordAt s p).getD 0) val off n) (afterLoads [p] s) := by
  rw [afterSet, if_neg hn.ne', if_pos hf]

/-- A set that straddles is a set up to the end of its word, then one at the start of the next (40_primitives.md R111). -/
theorem afterSet_of_straddles {s : State} {p off n : Nat} (val : Word) (ho : off < s.params.W)
    (hw : n ≤ s.params.W) (hf : s.params.W < off + n) :
    afterSet p val off n s =
      afterSet (p + 1) (val >>> (s.params.W - off)) 0 (n - (s.params.W - off))
        (afterSet p val off (s.params.W - off) s) := by
  have hm : 0 < n - (s.params.W - off) := by omega
  have h1 := afterSet_of_fits (p := p) (s := s) (off := off) val (Nat.sub_pos_of_lt ho) (by omega)
  rw [afterSet, if_neg (by omega), if_neg (by omega), mergeBits_low (by omega),
    afterSet_of_fits _ hm (by simp; omega), h1]
  simp [wordAt_afterStore]

theorem fieldWritten_afterSet_of_fits {s : State} {p off n : Nat} (val : Word)
    (hw : (wordAt s p).isSome = true) (hf : off + n ≤ s.params.W) :
    FieldWritten s (afterSet p val off n s) (p * s.params.W + off) n val := by
  rcases Nat.eq_zero_or_pos n with rfl | hn
  · exact fieldWritten_zero s _ val
  · obtain ⟨old, hold⟩ := Option.isSome_iff_exists.mp hw
    rw [afterSet_of_fits val hn hf, hold]
    exact fieldWritten_afterStore (s := afterLoads [p] s) val hold hf

/-- A set inside its contract writes exactly its field of the stream (40_primitives.md R111, 20_memory.md R49). -/
theorem fieldWritten_afterSet {s : State} {p val off n : Nat}
    (h : writeInContract s p val off n = true) :
    FieldWritten s (afterSet p val off n s) (p * s.params.W + off) n val := by
  rcases Nat.eq_zero_or_pos n with rfl | hn
  · exact fieldWritten_zero s _ val
  obtain ⟨ho, hfit, -, hp, hp1⟩ := (writeInContract_iff hn).mp h
  have hw := isSome_wordAt_of_readable (readable_of_writable hp)
  rcases Nat.lt_or_ge s.params.W (off + n) with hf | hf
  · have hle := fieldFits_le hfit
    have hlow : FieldWritten s (afterSet p val off (s.params.W - off) s) (p * s.params.W + off)
        (s.params.W - off) val :=
      fieldWritten_afterSet_of_fits val hw (by omega)
    have hhigh := fieldWritten_afterSet_of_fits (off := 0) (n := n - (s.params.W - off))
      (val >>> (s.params.W - off))
      (hlow.isSome_wordAt (afterSet_params ..) (isSome_wordAt_of_readable (readable_of_writable (hp1 hf))))
      (by rw [afterSet_params]; omega)
    rw [afterSet_params, show (p + 1) * s.params.W + 0 = p * s.params.W + off + (s.params.W - off) by
      rw [Nat.succ_mul]; omega] at hhigh
    have hboth := hlow.trans hhigh
    rwa [← afterSet_of_straddles val ho hle hf, show s.params.W - off + (n - (s.params.W - off)) = n by
      omega] at hboth
  · exact fieldWritten_afterSet_of_fits val hw hf

end Sys2Proof.Machine
end

section
/-! SUPPORT. The stateless primitives (40_primitives.md): what each command returns, writes and requests, where it faults, and
that XBRM reads back what SBR wrote. -/

namespace Sys2Proof.Machine

open Sys2Proof

/-! ### SHW (R101, R103) -/

/-- Bit `j` of a shift window is bit `j + n` of `{high : low}`. -/
theorem shiftWindow_testBit {w low high n j : Nat} (hl : low < 2 ^ w) (hj : j < w) :
    (shiftWindow w low high n).testBit j =
      if j + n < w then low.testBit (j + n) else high.testBit (j + n - w) := by
  rw [shiftWindow, Nat.testBit_mod_two_pow, Nat.testBit_shiftRight, doubleWord_testBit hl, Nat.add_comm n j]
  simp [hj]

/-- Settles O9: the window is a field of the two-word value, and the count is the one check. -/
theorem shwReturnsTheShiftWindow : Obligations.ShwReturnsTheShiftWindow := by
  intro n s
  refine ⟨fun hn => ?_, fun hn => ?_⟩
  · refine ⟨_, exec_shw_eq_next.mpr ⟨decide_eq_true hn, rfl⟩, ?_, fun ha j hj => ?_,
      keepsAllButResults_respond _ s⟩
    · rw [respond_r0, portAfter_zero, shiftWindow, Nat.shiftRight_eq_div_pow, doubleWord]
    · rw [respond_r0, portAfter_zero, shiftWindow_testBit ha hj]
  · refine EndsInFault.conclude ?_ (.shw n)
    exact endsInFault_require nofun fun h => absurd (of_decide_eq_true h) hn.not_gt

/-! ### XBR (R105 to R107, R109, R110) -/

theorem not_fieldFits {w off n : Nat} (h : w ≤ off ∨ w < n ∨ (n = w ∧ 0 < off)) :
    ¬(off < w ∧ fieldFits w off n = true) := by
  rw [fieldFits_iff]
  omega

/-- Settles O11: both paths of an extract are the closed form of R109, and the checks are those of R110. -/
theorem xbrReturnsTheField : Obligations.XbrReturnsTheField := by
  intro n off s
  refine ⟨?_, fun ho hf => ?_, fun hn hbad => ?_⟩
  · rintro rfl
    exact ⟨_, exec_xbr_eq_next.mpr ⟨rfl, rfl⟩, Nat.mod_one _, keepsAllButResults_respond _ s⟩
  · have hc : inContract (.xbr n off) s = true := by simp [inContract, ho, fieldFits_iff.mpr hf]
    refine ⟨_, exec_xbr_eq_next.mpr ⟨hc, rfl⟩, ?_, fun hle => ?_, ?_, keepsAllButResults_respond _ s⟩
    · rw [respond_r0, portAfter_zero, Nat.shiftRight_eq_div_pow, doubleWord]
    · rw [respond_r0, portAfter_zero, doubleWord_field_low hle, Nat.shiftRight_eq_div_pow]
    · exact Nat.mod_lt _ (Nat.two_pow_pos n)
  · exact ((endsInFault_extractBitRange hn (not_fieldFits hbad)).bind _).conclude (.xbr n off)

/-! ### XBRM (R108) -/

/-- The words that an XBRM of a width above 0 looks at may be loaded under either policy. -/
theorem readable_of_xbrmWordsReady {s : State} {off n : Nat} (hn : 0 < n)
    (h : xbrmWordsReady s off n = true) :
    readable s s.ports.p = true ∧ (s.params.W < off + n → readable s (s.ports.p + 1) = true) := by
  unfold xbrmWordsReady at h
  cases hpol : s.params.word1Policy with
  | unconditional =>
    simp only [hpol, Bool.and_eq_true] at h
    exact ⟨h.1, fun _ => h.2⟩
  | conditional =>
    simp only [hpol, Bool.or_eq_true, Bool.and_eq_true, decide_eq_true_eq] at h
    obtain ⟨h0, h1⟩ := h.resolve_left hn.ne'
    exact ⟨h0, fun hlt => h1.resolve_left (Nat.not_le.mpr hlt)⟩

/-- What R108 asks of an XBRM. -/
theorem inContract_xbrm_iff {s : State} {n off : Nat} :
    inContract (.xbrm n off) s = true ↔
      s.ports.p < s.params.indexCount ∧ (n = 0 ∨ off < s.params.W ∧ fieldFits s.params.W off n = true) ∧
        xbrmWordsReady s off n = true := by
  simp only [inContract, Bool.and_eq_true, Bool.or_eq_true, decide_eq_true_eq, and_assoc]

/-- A field that fits its word is that word's alone. -/
theorem memoryField_of_fits {s : State} {p w0 off n : Nat} (h0 : wordAt s p = some w0)
    (hf : off + n ≤ s.params.W) : memoryField s p off n = w0 / 2 ^ off % 2 ^ n := by
  rw [memoryField, h0, doubleWord_field_low hf, Option.getD_some, Nat.shiftRight_eq_div_pow]

theorem memoryField_of_words {s : State} {p w0 w1 : Nat} (off n : Nat) (h0 : wordAt s p = some w0)
    (h1 : wordAt s (p + 1) = some w1) :
    memoryField s p off n = (w1 * 2 ^ s.params.W + w0) / 2 ^ off % 2 ^ n := by
  rw [memoryField, h0, h1, Nat.shiftRight_eq_div_pow, doubleWord, Option.getD_some, Option.getD_some]

theorem stops_of_inContract_false {i : Instr} {s : State} (hc : inContract i s = false)
    (h : ∀ t, exec i s = .next t → inContract i s = true) : Stops (exec i s) :=
  fun t ht => Bool.false_ne_true (hc.symm.trans (h t ht))

/-- Settles O12: the field and the loads are those of the explicit state after, policy by policy. -/
theorem xbrmReturnsTheFieldOfMemory : Obligations.XbrmReturnsTheFieldOfMemory := by
  intro n off s
  have hstops : inContract (.xbrm n off) s = false → Stops (exec (.xbrm n off) s) := fun hc =>
    stops_of_inContract_false hc fun t ht => (exec_xbrm_eq_next.mp ht).1
  refine ⟨fun hc => ?_, fun hp => ?_, fun hn hbad => hstops ?_, hstops⟩
  · obtain ⟨-, -, hready⟩ := inContract_xbrm_iff.mp hc
    refine ⟨_, exec_xbrm_eq_next.mpr ⟨hc, rfl⟩, ?_, fun hn => ?_, ?_, ?_, ?_, ?_, rfl, rfl, rfl, rfl, rfl,
      rfl, rfl, rfl⟩
    · rintro rfl
      exact Nat.mod_one _
    · obtain ⟨hr0, hr1⟩ := readable_of_xbrmWordsReady hn hready
      obtain ⟨w0, h0⟩ := wordAt_of_readable hr0
      refine ⟨w0, h0, fun hf => memoryField_of_fits h0 hf, fun hlt => ?_⟩
      obtain ⟨w1, h1⟩ := wordAt_of_readable (hr1 hlt)
      exact ⟨w1, h1, memoryField_of_words off n h0 h1⟩
    · intro hpol
      simp [xbrmLoads, hpol]
    · intro hpol hn
      simp [xbrmLoads, hpol, hn]
    · intro hpol hn hf
      simp [xbrmLoads, hpol, hn.ne', Nat.not_lt.mpr hf]
    · intro hpol hn hlt
      simp [xbrmLoads, hpol, hn.ne', hlt]
  · refine EndsInFault.conclude ?_ (.xbrm n off)
    exact endsInFault_require nofun fun h => absurd (of_decide_eq_true h) hp.not_gt
  · rw [Bool.eq_false_iff, Ne, inContract_xbrm_iff]
    rintro ⟨-, hfield, -⟩
    exact not_fieldFits hbad (hfield.resolve_left hn.ne')

/-! ### SBR (R111, R112, R115) -/

/-- The requests of a set: each word is loaded and then stored (R112). -/
theorem writeRequests_afterSet {s : State} {p off n : Nat} (val : Word) (ho : off < s.params.W)
    (hw : n ≤ s.params.W) : WriteRequests s (afterSet p val off n s) p off n := by
  refine ⟨?_, fun hn hf => ?_, fun hn hlt => ?_⟩
  · rintro rfl
    rfl
  · rw [afterSet_of_fits val hn hf]
    exact ⟨_, List.append_assoc _ _ _⟩
  · rw [afterSet_of_straddles val ho hw hlt, afterSet_of_fits _ (by omega) (by simp; omega),
      afterSet_of_fits val (by omega) (by omega)]
    simp only [afterStore_trace, afterLoads_trace, List.append_assoc]
    exact ⟨_, _, rfl⟩

/-- Settles O13: a set writes exactly its field, and every check of a value, a width or an index comes before the first
access. -/
theorem sbrSetsExactlyTheField : Obligations.SbrSetsExactlyTheField := by
  intro n off s
  refine ⟨fun hc => ?_, fun hn hbad => ?_, fun hc =>
    stops_of_inContract_false hc fun t ht => (exec_sbr_eq_next.mp ht).1⟩
  · refine ⟨_, exec_sbr_eq_next.mpr ⟨hc, rfl⟩, fieldWritten_afterSet hc, ?_, ?_⟩
    · rcases Nat.eq_zero_or_pos n with rfl | hn
      · exact ⟨fun _ => rfl, nofun, nofun⟩
      · obtain ⟨ho, hf, -⟩ := (writeInContract_iff hn).mp hc
        exact writeRequests_afterSet _ ho (fieldFits_le hf)
    · simp [KeepsHostSide]
  · refine EndsInFault.conclude ?_ (.sbr n off)
    refine endsInFault_require nofun fun hidx => (endsInFault_setBitRange hn ?_).bind _
    have hp := of_decide_eq_true hidx hn
    rintro ⟨ho, hf, hv⟩
    rw [fieldFits_iff] at hf
    rcases hbad with h | h | h | h | h
    case inr.inr.inr.inr => exact hv.not_ge h
    all_goals omega

/-! ### SXT (R116 to R118) -/

/-- A negative number is filled up with ones. -/
theorem fixup_of_negative {w v n : Nat} (hv : v < 2 ^ n) (hn : 0 < n) (hw : n ≤ w)
    (hs : v.testBit (n - 1) = true) : fixup w v n .signed = 2 ^ n * (2 ^ (w - n) - 1) + v := by
  apply Nat.eq_of_testBit_eq
  intro j
  rw [fixup_testBit _ hv hw, Nat.testBit_two_pow_mul_add _ hv, Nat.testBit_two_pow_sub_one, hs]
  by_cases hj : j < n
  · rw [if_pos hj, if_neg (by omega)]
  · by_cases hjw : j < w
    · rw [if_neg hj, if_pos ⟨rfl, hn, by omega, hjw⟩, decide_eq_true (by omega)]
    · rw [if_neg hj, if_neg (by omega), testBit_above hv (by omega), decide_eq_false (by omega)]

theorem fixup_of_nonnegative {w v n : Nat} (hs : v.testBit (n - 1) = false) :
    fixup w v n .signed = v := by
  simp [fixup, hs]

/-- The fixup of a negative number adds `2^W - 2^N0`. -/
theorem fixup_add_two_pow_of_negative {w v n : Nat} (hv : v < 2 ^ n) (hn : 0 < n) (hw : n ≤ w)
    (hs : v.testBit (n - 1) = true) : fixup w v n .signed + 2 ^ n = v + 2 ^ w := by
  have hpow : 2 ^ w = 2 ^ n * (2 ^ (w - n) - 1 + 1) := by
    rw [Nat.sub_add_cancel Nat.one_le_two_pow, ← pow_add, Nat.add_sub_cancel' hw]
  rw [fixup_of_negative hv hn hw hs, hpow]
  ring

/-- Sign extension keeps the number that a value stands for (00_scope.md R12). -/
theorem signedValue_fixup {w v n : Nat} (hv : v < 2 ^ n) (hn : 0 < n) (hw : n ≤ w) :
    signedValue w (fixup w v n .signed) = signedValue n v := by
  rcases Nat.lt_or_ge v (2 ^ (n - 1)) with hlt | hge
  · have hle : 2 ^ (n - 1) ≤ 2 ^ (w - 1) := Nat.pow_le_pow_right (by norm_num) (by omega)
    rw [fixup_of_nonnegative (Nat.testBit_lt_two_pow hlt), signedValue, signedValue, if_pos hlt,
      if_pos (hlt.trans_le hle)]
  · have hs : v.testBit (n - 1) = true :=
      Nat.testBit_of_two_pow_le_and_two_pow_add_one_gt hge (by rwa [Nat.sub_add_cancel hn])
    have htop : (fixup w v n .signed).testBit (w - 1) = true := by
      rw [fixup_testBit _ hv hw]
      rcases hw.eq_or_lt with rfl | hlt
      · rwa [if_neg (by omega)]
      · rwa [if_pos ⟨rfl, hn, by omega, by omega⟩]
    have hadd : (fixup w v n .signed : Int) + 2 ^ n = v + 2 ^ w :=
      mod_cast fixup_add_two_pow_of_negative hv hn hw hs
    rw [signedValue, signedValue, if_neg (Nat.ge_two_pow_of_testBit htop).not_gt, if_neg hge.not_gt]
    linarith

/-- Settles O15: the fixup bit by bit, and the number it stands for. -/
theorem sxtExtendsTheSign : Obligations.SxtExtendsTheSign := by
  intro f s
  refine ⟨fun hw hv => ?_, fun hbad => ?_⟩
  · have hc : inContract (.sxt f) s = true := by simp [inContract, hw, hv]
    refine ⟨_, exec_sxt_eq_next.mpr ⟨hc, rfl⟩, ?_⟩
    rw [respond_r0, portAfter_zero]
    refine ⟨fun hs => ?_, fun hn => ?_, fun j hj => ?_, fun hs hn => ⟨fun j hj hjw => ?_, ?_⟩,
      fixup_lt hv hw, keepsAllButResults_respond _ s⟩
    · rw [hs, fixup]
    · rw [hn]
      cases f.sign <;> rfl
    · rw [fixup_testBit _ hv hw, if_neg (by omega)]
    · rw [fixup_testBit _ hv hw, if_pos ⟨hs, hn, hj, hjw⟩]
    · rw [hs]
      exact signedValue_fixup hv hn hw
  · refine EndsInFault.conclude ?_ (.sxt f)
    refine endsInFault_require nofun fun hw => endsInFault_require nofun fun hv => ?_
    exact absurd hbad (not_or.mpr ⟨(of_decide_eq_true hw).not_gt, (of_decide_eq_true hv).not_ge⟩)

/-! ### XBRM after SBR (R113) -/

/-- Whatever keeps the words that may be loaded keeps an XBRM in its contract. -/
theorem inContract_xbrm_of_readable {s t : State} {n off : Nat} (hp : t.params = s.params)
    (hports : t.ports = s.ports) (hr : ∀ i, readable s i = true → readable t i = true)
    (h : inContract (.xbrm n off) s = true) : inContract (.xbrm n off) t = true := by
  obtain ⟨hidx, hfield, hready⟩ := inContract_xbrm_iff.mp h
  rw [inContract_xbrm_iff, hp, hports]
  refine ⟨hidx, hfield, ?_⟩
  unfold xbrmWordsReady at hready ⊢
  rw [hp, hports]
  cases hpol : s.params.word1Policy with
  | unconditional =>
    simp only [hpol, Bool.and_eq_true] at hready ⊢
    exact hready.imp (hr _) (hr _)
  | conditional =>
    simp only [hpol, Bool.or_eq_true, Bool.and_eq_true] at hready ⊢
    exact hready.imp_right fun h => h.imp (hr _) fun h => h.imp_right (hr _)

/-- The bits of a field of the memory are the stream bits from word `p`, offset `off` on, where the words are provided. -/
theorem streamBit_eq_memoryField_testBit {s : State} {p off n j : Nat} (ho : off < s.params.W)
    (hn : n ≤ s.params.W) (h0 : (wordAt s p).isSome = true)
    (h1 : s.params.W < off + n → (wordAt s (p + 1)).isSome = true) (hj : j < n) :
    streamBit s (p * s.params.W + off + j) = some ((memoryField s p off n).testBit j) := by
  obtain ⟨w0, h0⟩ := Option.isSome_iff_exists.mp h0
  have hw0 : w0 < 2 ^ s.params.W := Memory.loadWord_lt h0
  rw [memoryField, h0, Nat.testBit_mod_two_pow, decide_eq_true hj, Bool.true_and, Nat.testBit_shiftRight,
    Option.getD_some, doubleWord_testBit hw0]
  by_cases hlow : off + j < s.params.W
  · rw [if_pos hlow, Nat.add_assoc, streamBit_mul_add s p hlow, h0, Option.map_some]
  · obtain ⟨w1, h1⟩ := Option.isSome_iff_exists.mp (h1 (by omega))
    have hpos : p * s.params.W + off + j = (p + 1) * s.params.W + (off + j - s.params.W) := by
      rw [Nat.succ_mul]
      omega
    rw [if_neg hlow, hpos, streamBit_mul_add s (p + 1) (by omega), h1, Option.map_some, Option.getD_some]

/-- Reading the field just written gives its value back. -/
theorem memoryField_of_fieldWritten {s t : State} {p off n val : Nat} (hp : t.params = s.params)
    (hw : FieldWritten s t (p * s.params.W + off) n val) (hv : val < 2 ^ n) (ho : off < s.params.W)
    (hn : n ≤ s.params.W) (h0 : (wordAt t p).isSome = true)
    (h1 : s.params.W < off + n → (wordAt t (p + 1)).isSome = true) : memoryField t p off n = val := by
  apply Nat.eq_of_testBit_eq
  intro j
  by_cases hj : j < n
  · have hbit := streamBit_eq_memoryField_testBit (hp ▸ ho) (hp ▸ hn) h0 (hp ▸ h1) hj
    rw [hp, hw, if_pos (by omega), Nat.add_sub_cancel_left] at hbit
    exact (Option.some.inj hbit).symm
  · rw [testBit_above hv (by omega), memoryField, Nat.testBit_mod_two_pow, decide_eq_false hj,
      Bool.false_and]

theorem readable_afterSet {s : State} {p val off n i : Nat} (hc : writeInContract s p val off n = true)
    (h : readable s i = true) : readable (afterSet p val off n s) i = true := by
  simp only [readable, rivalStores, afterSet_params, afterSet_rivals, Bool.and_eq_true] at h ⊢
  obtain ⟨⟨hidx, hword⟩, hrival⟩ := h
  exact ⟨⟨hidx, (fieldWritten_afterSet hc).isSome_wordAt (afterSet_params ..) hword⟩, hrival⟩

/-- Settles O34: the set leaves the extract in its contract, and the extract reads the stream bits that the set wrote. -/
theorem setThenExtractReturnsTheValue : Obligations.SetThenExtractReturnsTheValue := by
  intro n off s t hv hx ht
  obtain ⟨hc, rfl⟩ := exec_sbr_eq_next.mp ht
  have hw := fieldWritten_afterSet hc
  have hxt : inContract (.xbrm n off) (respond [] (afterSet s.ports.p s.ports.a off n s)) = true :=
    inContract_xbrm_of_readable (by simp) (by simp) (fun i h => readable_afterSet hc h) hx
  refine ⟨_, exec_xbrm_eq_next.mpr ⟨hxt, rfl⟩, ?_, fun k hk => ?_⟩
  · rw [respond_r0, portAfter_zero, respond_ports, afterSet_ports]
    rcases Nat.eq_zero_or_pos n with rfl | hn
    · rw [memoryField, pow_zero, Nat.mod_one, Nat.lt_one_iff.mp hv]
    · obtain ⟨ho, hf, -⟩ := (writeInContract_iff hn).mp hc
      obtain ⟨-, -, hready⟩ := inContract_xbrm_iff.mp hxt
      obtain ⟨h0, h1⟩ := readable_of_xbrmWordsReady hn hready
      rw [respond_ports, afterSet_ports] at h0 h1
      exact memoryField_of_fieldWritten (by simp) hw hv ho (fieldFits_le hf)
        (isSome_wordAt_of_readable h0) fun hlt => isSome_wordAt_of_readable (h1 (by simpa using hlt))
  · rw [streamBit_respond, streamBit_afterLoads, streamBit_respond, hw, if_neg (by omega)]

end Sys2Proof.Machine
end

section
/-! SUPPORT. The commands of the buffer strategies (41_buffer_strategy.md): what BINDR, CURR, NEXT and ADVW return, load and
keep, and where they fault. -/

namespace Sys2Proof.Machine

open Sys2Proof

/-- A word that may be loaded is the one the explicit states of the procedures hold. -/
theorem wordAt_eq_some_getD {s : State} {i : Nat} (h : readable s i = true) :
    wordAt s i = some ((wordAt s i).getD 0) := by
  obtain ⟨v, hv⟩ := wordAt_of_readable h
  rw [hv, Option.getD_some]

/-- The reader's own check comes first (10_state.md R36). -/
theorem endsInFault_requireReader {α : Type} {s : State} {f : Unit → Except Violation α}
    (h : s.rc.bound = true → EndsInFault (f ())) : EndsInFault (requireReader s >>= f) :=
  endsInFault_require nofun h

/-! ### BINDR (R131, R132) -/

theorem inContract_bindr_iff {s : State} {off : Nat} :
    inContract (.bindr off) s = true ↔
      s.ports.p < s.params.indexCount ∧ off < s.params.W ∧ bindReady s s.ports.p = true := by
  simp only [inContract, Bool.and_eq_true, decide_eq_true_eq, and_assoc]

/-- A bind under DIRECT loads nothing and leaves `C0` and `C1`. -/
theorem afterBind_direct {s : State} (p off : Nat) (hs : s.params.strategy = .direct) :
    (afterBind p off s).rc.c0 = s.rc.c0 ∧ (afterBind p off s).rc.c1 = s.rc.c1 ∧
      (afterBind p off s).trace = s.trace := by
  simp [afterBind, boundReader, bindLoads, hs]

/-- A bind under CACHED loads `Mem[p]`, then `Mem[p+1]`, into `C0` and `C1`. -/
theorem afterBind_cached {s : State} {p : Nat} (off : Nat) (hs : s.params.strategy = .cached)
    (h : bindReady s p = true) :
    wordAt s p = some (afterBind p off s).rc.c0 ∧ wordAt s (p + 1) = some (afterBind p off s).rc.c1 ∧
      (afterBind p off s).trace = s.trace ++ [.load p, .load (p + 1)] := by
  simp only [bindReady, hs, Bool.and_eq_true] at h
  simp only [afterBind, boundReader, bindLoads, hs]
  exact ⟨wordAt_eq_some_getD h.1, wordAt_eq_some_getD h.2, rfl⟩

/-- Settles O17: the state after a bind, strategy by strategy, and the three checks of an index and an offset that come before
any load. -/
theorem bindrBindsTheReader : Obligations.BindrBindsTheReader := by
  intro off s
  refine ⟨fun hc => ?_, fun hbad => ?_, fun hc =>
    stops_of_inContract_false hc fun t ht => (exec_bindr_eq_next.mp ht).1⟩
  · obtain ⟨-, -, hready⟩ := inContract_bindr_iff.mp hc
    exact ⟨_, exec_bindr_eq_next.mpr ⟨hc, rfl⟩, rfl, rfl, rfl, fun hs => afterBind_direct _ off hs,
      fun hs => afterBind_cached off hs hready, rfl, rfl, rfl, rfl, rfl, rfl, rfl⟩
  · refine EndsInFault.conclude ?_ (.bindr off)
    refine endsInFault_require nofun fun hp => endsInFault_require nofun fun ho =>
      endsInFault_require nofun fun hp1 => ?_
    rcases hbad with h | h | ⟨hs, h⟩
    · exact absurd (of_decide_eq_true hp) h.not_gt
    · exact absurd (of_decide_eq_true ho) h.not_gt
    · exact absurd (of_decide_eq_true hp1 hs) h.not_gt

/-! ### CURR and NEXT (R133, R134, R137, R138) -/

/-- Under DIRECT the reader sees the word of the memory and loads it. -/
theorem view_direct {s : State} {i : Nat} (hs : s.params.strategy = .direct) (h : viewReady s i = true) :
    wordAt s i = some ((readerWord s i).getD 0) ∧ viewLoads s i = [i] := by
  simp only [viewReady, hs] at h
  simp only [readerWord, viewLoads, hs]
  exact ⟨wordAt_eq_some_getD h, trivial⟩

/-- Under CACHED the reader sees its two cached words. -/
theorem readerWord_cached {s : State} (hs : s.params.strategy = .cached) :
    readerWord s s.rc.idx = some s.rc.c0 ∧ readerWord s (s.rc.idx + 1) = some s.rc.c1 := by
  simp [readerWord, hs]

theorem viewLoads_cached {s : State} (hs : s.params.strategy = .cached) (i : Nat) :
    viewLoads s i = [] := by
  rw [viewLoads, hs]

/-- What CURR and NEXT share: word `i`, which the reader sees as `c` under CACHED, is returned, and at most loaded. -/
theorem view_completion {s : State} {i : Nat} {c : Word} (h : viewReady s i = true)
    (hcached : s.params.strategy = .cached → readerWord s i = some c) {t : State}
    (ht : t = respond [(readerWord s i).getD 0] (afterLoads (viewLoads s i) s)) :
    (s.params.strategy = .direct →
      wordAt s i = some t.results.r0 ∧ t.trace = s.trace ++ [.load i]) ∧
    (s.params.strategy = .cached → t.results.r0 = c ∧ t.trace = s.trace) ∧
    t.rc = s.rc ∧ t.wc = s.wc ∧ t.mem = s.mem ∧ KeepsHostSide s t := by
  subst ht
  refine ⟨fun hs => ?_, fun hs => ?_, rfl, rfl, rfl, rfl, rfl, rfl, rfl, rfl⟩
  · obtain ⟨hword, hloads⟩ := view_direct hs h
    exact ⟨hword, by rw [hloads]; rfl⟩
  · rw [hcached hs, viewLoads_cached hs, afterLoads_nil]
    exact ⟨rfl, rfl⟩

/-- Settles O18: both commands return what the reader sees, after the check that it is bound and, for NEXT under DIRECT, the
check of the index. -/
theorem currAndNextReturnTheReadersWords : Obligations.CurrAndNextReturnTheReadersWords := by
  intro s
  refine ⟨fun hc => ?_, fun hc => ?_, fun hb => ?_, fun hs hidx => ?_, fun hc => ?_, fun hc => ?_⟩
  · have hready : viewReady s s.rc.idx = true := (Bool.and_eq_true_iff.mp hc).2
    exact ⟨_, exec_curr_eq_next.mpr ⟨hc, rfl⟩,
      view_completion hready (fun hs => (readerWord_cached hs).1) rfl⟩
  · have hready : viewReady s (s.rc.idx + 1) = true := (Bool.and_eq_true_iff.mp hc).2
    exact ⟨_, exec_next_eq_next.mpr ⟨hc, rfl⟩,
      view_completion hready (fun hs => (readerWord_cached hs).2) rfl⟩
  · exact ⟨⟨_, exec_of_unboundReader hb rfl nofun⟩, _, exec_of_unboundReader hb rfl nofun⟩
  · refine EndsInFault.conclude ?_ .next
    exact endsInFault_requireReader fun _ => endsInFault_require nofun fun h =>
      absurd (of_decide_eq_true h hs) hidx.not_gt
  · exact stops_of_inContract_false hc fun t ht => (exec_curr_eq_next.mp ht).1
  · exact stops_of_inContract_false hc fun t ht => (exec_next_eq_next.mp ht).1

/-! ### ADVW (R135, R140) -/

/-- `buf_advance(k)` inside its contract, for every `k` and under both strategies (R135, R136). -/
theorem advancedBy_afterAdvance {s : State} {k : Nat} (h : advanceInContract s k = true) :
    AdvancedBy k s (afterAdvance k s) := by
  refine ⟨advancedReader_bound s k, advancedReader_idx s k, fun hs => ?_, fun hs hk => ?_, fun hs hk => ?_,
    fun hs hk => ?_⟩
  · simp [afterAdvance, advancedReader, advanceLoads, hs]
  · simp [afterAdvance, advancedReader, advanceLoads, hs, hk]
  · subst hk
    simp only [advanceInContract, hs, Bool.and_eq_true, one_ne_zero, if_false, if_true] at h
    simp only [afterAdvance, advancedReader, advanceLoads, hs, one_ne_zero, if_false, if_true]
    exact ⟨trivial, wordAt_eq_some_getD h.2, rfl⟩
  · have h0 : k ≠ 0 := by omega
    have h1 : k ≠ 1 := by omega
    simp only [advanceInContract, hs, Bool.and_eq_true, h0, h1, if_false] at h
    simp only [afterAdvance, advancedReader, advanceLoads, hs, h0, h1, if_false]
    obtain ⟨-, hr0, hr1⟩ := h
    exact ⟨wordAt_eq_some_getD hr0, wordAt_eq_some_getD hr1, rfl⟩

/-- An advance past the index space faults before any load (R136). -/
theorem endsInFault_bufAdvance {s : State} {k : Nat} (h : s.params.indexCount ≤ s.rc.idx + k) :
    EndsInFault (bufAdvance k s) :=
  endsInFault_require nofun fun hidx => absurd (of_decide_eq_true hidx) h.not_gt

/-- Settles O19: the advance is `buf_advance(P)`, whose check of the index comes before its loads. -/
theorem advwAdvancesByWholeWords : Obligations.AdvwAdvancesByWholeWords := by
  intro s
  refine ⟨fun hc => ?_, fun hbad => ?_, fun hc =>
    stops_of_inContract_false hc fun t ht => (exec_advw_eq_next.mp ht).1⟩
  · have hadvance : advanceInContract s s.ports.p = true := (Bool.and_eq_true_iff.mp hc).2
    exact ⟨_, exec_advw_eq_next.mpr ⟨hc, rfl⟩, advancedBy_afterAdvance hadvance,
      advancedReader_ofs s _, rfl, rfl, rfl, rfl, rfl, rfl, rfl⟩
  · refine EndsInFault.conclude ?_ .advw
    refine endsInFault_requireReader fun hb => endsInFault_require nofun fun hp =>
      EndsInFault.bind ?_ _
    rcases hbad with h | h | h
    · exact absurd hb (Bool.eq_false_iff.mp h)
    · exact absurd (of_decide_eq_true hp) h.not_gt
    · exact endsInFault_bufAdvance h

end Sys2Proof.Machine
end

section
/-! SUPPORT. The bit cursor and the extractor (42_cursor_extractor.md): what SKIP and EXT1 return, load and keep, where they
fault, and that a fused extract is its single extracts in a row (R158). -/

namespace Sys2Proof.Machine

open Sys2Proof

/-! ### SKIP (R151, R153) -/

/-- `cursor_advance(n)` inside its contract moves the words on as `buf_advance` does: the two states differ in `OFS` only. -/
theorem advancedBy_afterCursorAdvance {n : Nat} {s : State}
    (h : advanceInContract s ((s.rc.ofs + n) / s.params.W) = true) :
    AdvancedBy ((s.rc.ofs + n) / s.params.W) s (afterCursorAdvance n s) :=
  advancedBy_afterAdvance h

/-- Settles O20: the advance is `cursor_advance(P)`, whose check of the index comes before its loads. -/
theorem skipMovesTheBitAddress : Obligations.SkipMovesTheBitAddress := by
  intro s
  refine ⟨fun hc => ?_, fun hbad => ?_, fun hc =>
    stops_of_inContract_false hc fun t ht => (exec_skip_eq_next.mp ht).1⟩
  · have hadvance : advanceInContract s ((s.rc.ofs + s.ports.p) / s.params.W) = true :=
      (Bool.and_eq_true_iff.mp hc).2
    exact ⟨_, exec_skip_eq_next.mpr ⟨hc, rfl⟩, readerPos_afterCursorAdvance _ s, rfl,
      Nat.mod_lt _ s.params.W_pos, advancedBy_afterCursorAdvance hadvance, rfl, rfl, rfl, rfl, rfl, rfl, rfl⟩
  · refine EndsInFault.conclude ?_ .skip
    refine endsInFault_requireReader fun hb => EndsInFault.bind (EndsInFault.bind ?_ _) _
    rcases hbad with h | h
    · exact absurd hb (Bool.eq_false_iff.mp h)
    · exact endsInFault_bufAdvance h

/-! ### EXT1 (R152, R154) -/

/-- The loads of the words an extract looks at (R152): both under DIRECT, none under CACHED. -/
theorem extractViewLoads_direct {s : State} (hs : s.params.strategy = .direct) :
    extractViewLoads s = [s.rc.idx, s.rc.idx + 1] := by
  simp [extractViewLoads, viewLoads, hs]

theorem extractViewLoads_cached {s : State} (hs : s.params.strategy = .cached) :
    extractViewLoads s = [] := by
  simp [extractViewLoads, viewLoads, hs]

/-- An extract looks at its two words and then advances as `buf_advance` does (R152). -/
theorem advancedBy_afterExtract {s : State} {f : Field} (ho : s.rc.ofs < s.params.W)
    (hc : extractInContract s (readerPos s) [f] = true) :
    AdvancedBy ((s.rc.ofs + f.bits) / s.params.W) (afterLoads (extractViewLoads s) s)
      (afterExtract f.bits s) := by
  obtain ⟨-, -, -, hadvance⟩ := (extractInContract_one ho).mp hc
  exact advancedBy_afterCursorAdvance (s := afterLoads (extractViewLoads s) s) hadvance

theorem afterExtract_direct {s : State} {f : Field} (hs : s.params.strategy = .direct)
    (ho : s.rc.ofs < s.params.W) (hc : extractInContract s (readerPos s) [f] = true) :
    (afterExtract f.bits s).rc.c0 = s.rc.c0 ∧ (afterExtract f.bits s).rc.c1 = s.rc.c1 ∧
      (afterExtract f.bits s).trace = s.trace ++ [.load s.rc.idx, .load (s.rc.idx + 1)] := by
  obtain ⟨-, -, hdirect, -⟩ := advancedBy_afterExtract ho hc
  obtain ⟨hc0, hc1, htrace⟩ := hdirect hs
  rw [extractViewLoads_direct hs] at htrace
  exact ⟨hc0, hc1, htrace⟩

/-- A field that ends below the top of the current word leaves the cursor in it. -/
theorem afterExtract_cached_inside {s : State} {f : Field} (hs : s.params.strategy = .cached)
    (ho : s.rc.ofs < s.params.W) (hc : extractInContract s (readerPos s) [f] = true)
    (hn : s.rc.ofs + f.bits < s.params.W) :
    (afterExtract f.bits s).rc.c0 = s.rc.c0 ∧ (afterExtract f.bits s).rc.c1 = s.rc.c1 ∧
      (afterExtract f.bits s).trace = s.trace := by
  obtain ⟨-, -, -, hzero, -⟩ := advancedBy_afterExtract ho hc
  rw [extractViewLoads_cached hs, afterLoads_nil] at hzero
  exact hzero hs (Nat.div_eq_of_lt hn)

/-- "a field that ends exactly at the top of the current word (`RC.OFS + N0 = W`) moves the cursor to `(RC.IDX + 1, 0)`"
(R154), and so does one that crosses it: one word is loaded. -/
theorem afterExtract_cached_crossing {s : State} {f : Field} (hs : s.params.strategy = .cached)
    (ho : s.rc.ofs < s.params.W) (hc : extractInContract s (readerPos s) [f] = true)
    (hn : s.params.W ≤ s.rc.ofs + f.bits) :
    (afterExtract f.bits s).rc.c0 = s.rc.c1 ∧
      wordAt s (s.rc.idx + 2) = some (afterExtract f.bits s).rc.c1 ∧
      (afterExtract f.bits s).trace = s.trace ++ [.load (s.rc.idx + 2)] := by
  obtain ⟨hfits, -⟩ := (extractInContract_one ho).mp hc
  have hdelta : (s.rc.ofs + f.bits) / s.params.W = 1 :=
    (extract_wordDelta s.params.W_pos ho (fieldFits_le hfits)).resolve_left
      (Nat.div_pos hn s.params.W_pos).ne'
  obtain ⟨-, -, -, -, hone, -⟩ := advancedBy_afterExtract ho hc
  rw [extractViewLoads_cached hs, afterLoads_nil] at hone
  exact hone hs hdelta

/-- A width outside R110 faults before any word is looked at (R152). -/
theorem endsInFault_extractField {f : Field} {s : State}
    (h : fieldFits s.params.W s.rc.ofs f.bits = false) : EndsInFault (extractField f s) :=
  EndsInFault.bind (endsInFault_requireFieldWidth fun hfits => absurd hfits (Bool.eq_false_iff.mp h)) _

/-- Settles O21: the value, the cursor and the loads are those of the explicit state after, strategy by strategy, and the
check of the width comes before any load. -/
theorem ext1ReturnsTheFieldAtTheCursor : Obligations.Ext1ReturnsTheFieldAtTheCursor := by
  intro f s
  refine ⟨fun ho hc => ?_, fun hbad => ?_, fun ho hc =>
    stops_of_inContract_false hc fun t ht => ((exec_ext1_eq_next ho).mp ht).1⟩
  · obtain ⟨hbound, hfield⟩ := Bool.and_eq_true_iff.mp hc
    exact ⟨_, (exec_ext1_eq_next ho).mpr ⟨hc, rfl⟩, rfl, readerPos_afterExtract _ s,
      afterExtract_ofs_lt _ s, (afterCursorAdvance_bound _ _).trans hbound,
      fun hs => afterExtract_direct hs ho hfield, fun hs => afterExtract_cached_inside hs ho hfield,
      fun hs => afterExtract_cached_crossing hs ho hfield, rfl, rfl, rfl, rfl, rfl, rfl, rfl⟩
  · rcases hbad with hb | hwidth
    · exact ⟨_, exec_of_unboundReader hb rfl nofun⟩
    · have hfits : fieldFits s.params.W s.rc.ofs f.bits = false := by
        rw [Bool.eq_false_iff, ne_eq, fieldFits_iff]
        omega
      refine EndsInFault.conclude ?_ (.ext1 f)
      exact endsInFault_requireReader fun _ => (endsInFault_extractField hfits).bind _

/-! ### Fused and single extracts (R158) -/

/-- The destinations of an extract command, in order; no other command has any. -/
def extractedFields : Instr → List Field
  | .ext1 f0 => [f0]
  | .ext2 f0 f1 => [f0, f1]
  | .ext3 f0 f1 f2 => [f0, f1, f2]
  | .ext4 f0 f1 f2 f3 => [f0, f1, f2, f3]
  | .shw _ | .xbr _ _ | .xbrm _ _ | .sbr _ _ | .sxt _ | .bindr _ | .curr | .next | .advw | .skip | .bindw _ | .wr1 _
  | .wskip => []

theorem extractedFields_length {i : Instr} (hi : extractedFields i ≠ []) :
    (extractedFields i).length = drivenCount i := by
  cases i with
  | ext1 _ | ext2 _ _ | ext3 _ _ _ | ext4 _ _ _ _ => rfl
  | shw _ | xbr _ _ | xbrm _ _ | sbr _ _ | sxt _ | bindr _ | curr | next | advw | skip | bindw _ | wr1 _ | wskip =>
    exact absurd rfl hi

/-- The four extract commands have one meaning, with no premise on the registers (R154 to R157). -/
theorem exec_extract_eq_next {i : Instr} {s t : State} (hi : extractedFields i ≠ []) :
    exec i s = .next t ↔
      s.rc.bound = true ∧ ∃ vs s1, extractFields (extractedFields i) s = .ok (vs, s1) ∧ t = respond vs s1 := by
  have hexec : exec i s =
      conclude i (requireReader s >>= fun _ =>
        extractFields (extractedFields i) s >>= fun r => .ok (respond r.1 r.2)) := by
    cases i with
    | ext1 f0 => exact exec_ext1_fused f0 s
    | ext2 _ _ | ext3 _ _ _ | ext4 _ _ _ _ => rfl
    | shw _ | xbr _ _ | xbrm _ _ | sbr _ _ | sxt _ | bindr _ | curr | next | advw | skip | bindw _ | wr1 _ | wskip =>
      exact absurd rfl hi
  simp only [hexec, requireReader, conclude_eq_next, bind_eq_ok, require_eq_ok, Prod.exists,
    Except.ok.injEq, exists_const, eq_comm (a := t)]

theorem extractFields_cons_eq_ok {f : Field} {fs : List Field} {s t : State} {ws : List Word} :
    extractFields (f :: fs) s = .ok (ws, t) ↔
      ∃ v s1 vs, extractField f s = .ok (v, s1) ∧ extractFields fs s1 = .ok (vs, t) ∧ ws = v :: vs := by
  simp only [extractFields, bind_eq_ok, Prod.exists, Except.ok.injEq, Prod.mk.injEq]
  constructor
  · rintro ⟨v, s1, hv, vs, s2, hvs, rfl, rfl⟩
    exact ⟨v, s1, vs, hv, hvs, rfl⟩
  · rintro ⟨v, s1, vs, hv, hvs, rfl⟩
    exact ⟨v, s1, hv, vs, t, hvs, rfl, rfl⟩

theorem extractFields_length {fs : List Field} {s t : State} {vs : List Word}
    (h : extractFields fs s = .ok (vs, t)) : vs.length = fs.length := by
  induction fs generalizing s vs with
  | nil =>
    cases h
    rfl
  | cons f fs ih =>
    obtain ⟨v, s1, ws, -, hws, rfl⟩ := extractFields_cons_eq_ok.mp h
    rw [List.length_cons, List.length_cons, ih hws]

theorem exec_ext1_eq_next_of_extractField {f : Field} {s t : State} :
    exec (.ext1 f) s = .next t ↔
      s.rc.bound = true ∧ ∃ v s1, extractField f s = .ok (v, s1) ∧ t = respond [v] s1 := by
  simp only [exec, execExt1, requireReader, conclude_eq_next, bind_eq_ok, require_eq_ok, Prod.exists,
    Except.ok.injEq, exists_const, eq_comm (a := t)]

/-- The first of several single extracts, then the others from the state it leaves. -/
theorem runExt1_cons_eq_some {f : Field} {fs : List Field} {s u : State} {ws : List Word} :
    runExt1 (f :: fs) s = some (ws, u) ↔
      s.rc.bound = true ∧ ∃ v s1 vs, extractField f s = .ok (v, s1) ∧
        runExt1 fs (respond [v] s1) = some (vs, u) ∧ ws = v :: vs := by
  constructor
  · intro h
    rw [runExt1] at h
    split at h
    next t ht =>
      obtain ⟨hb, v, s1, hv, rfl⟩ := exec_ext1_eq_next_of_extractField.mp ht
      split at h
      next vs u' hvs =>
        cases h
        exact ⟨hb, v, s1, vs, hv, hvs, rfl⟩
      next => cases h
    next => cases h
    next => cases h
  · rintro ⟨hb, v, s1, vs, hv, hvs, rfl⟩
    rw [runExt1, exec_ext1_eq_next_of_extractField.mpr ⟨hb, v, s1, hv, rfl⟩]
    simp only [hvs]
    rfl

/-- Two states that no extract can tell apart: `SameReader`, and the same other agents at work. -/
def SameView (s u : State) : Prop := SameReader s u ∧ s.rivals = u.rivals

theorem SameView.refl (s : State) : SameView s s := ⟨⟨rfl, rfl, rfl, rfl, rfl⟩, rfl⟩

theorem SameView.symm {s u : State} (h : SameView s u) : SameView u s := by
  obtain ⟨⟨hparams, hrc, hwc, hmem, htrace⟩, hrivals⟩ := h
  exact ⟨⟨hparams.symm, hrc.symm, hwc.symm, hmem.symm, htrace.symm⟩, hrivals.symm⟩

theorem SameView.bound {s u : State} (h : SameView s u) : s.rc.bound = u.rc.bound := by
  obtain ⟨⟨-, hrc, -⟩, -⟩ := h
  rw [hrc]

/-- A completion event is out of an extract's sight. -/
theorem SameView.respond_right {s u : State} (h : SameView s u) (vs : List Word) :
    SameView s (respond vs u) := h

theorem SameView.respond_left {s u : State} (h : SameView s u) (vs : List Word) :
    SameView (respond vs s) u := h

/-- An extract answers the same in two states it cannot tell apart, and leaves two such states. -/
theorem extractField_of_sameView {f : Field} {s u t : State} {v : Word} (hview : SameView s u)
    (h : extractField f s = .ok (v, t)) : ∃ t', extractField f u = .ok (v, t') ∧ SameView t t' := by
  cases s
  cases u
  obtain ⟨⟨rfl, rfl, rfl, rfl, rfl⟩, rfl⟩ := hview
  simp only [extractField, bind_eq_ok, cursorExtract_eq_ok, Prod.exists] at h ⊢
  obtain ⟨x, s1, ⟨hfits, hofs, hcurr, hnext, hadvance, rfl, rfl⟩, hv⟩ := h
  cases hv
  exact ⟨_, ⟨_, _, ⟨hfits, hofs, hcurr, hnext, hadvance, rfl, rfl⟩, rfl⟩, ⟨rfl, rfl, rfl, rfl, rfl⟩, rfl⟩

theorem extractField_bound {f : Field} {s t : State} {v : Word} (h : extractField f s = .ok (v, t)) :
    t.rc.bound = s.rc.bound := by
  have hfields : extractFields [f] s = .ok ([v], t) := extractFields_cons_eq_ok.mpr ⟨v, t, [], h, rfl, rfl⟩
  obtain ⟨-, -, -, -, -, -, -, hbound⟩ := afterExtracts_frame [f] s
  rw [extractFields_state hfields, hbound]

/-- A completed run of destinations is a completed run of single extracts, which check the bound reader again each time. -/
theorem runExt1_of_extractFields {fs : List Field} {s u t : State} {vs : List Word} (hview : SameView s u)
    (hb : s.rc.bound = true) (h : extractFields fs s = .ok (vs, t)) :
    ∃ t', runExt1 fs u = some (vs, t') ∧ SameView t t' := by
  induction fs generalizing s u vs with
  | nil =>
    cases h
    exact ⟨u, rfl, hview⟩
  | cons f fs ih =>
    obtain ⟨v, s1, ws, hv, hws, rfl⟩ := extractFields_cons_eq_ok.mp h
    obtain ⟨u1, hu1, hview1⟩ := extractField_of_sameView hview hv
    obtain ⟨t', hrun, hview'⟩ := ih (hview1.respond_right [v]) ((extractField_bound hv).trans hb) hws
    exact ⟨t', runExt1_cons_eq_some.mpr ⟨hview.bound ▸ hb, v, u1, ws, hu1, hrun, rfl⟩, hview'⟩

theorem extractFields_of_runExt1 {fs : List Field} {s u t' : State} {vs : List Word} (hview : SameView s u)
    (h : runExt1 fs u = some (vs, t')) : ∃ t, extractFields fs s = .ok (vs, t) ∧ SameView t t' := by
  induction fs generalizing s u vs with
  | nil =>
    cases h
    exact ⟨s, rfl, hview⟩
  | cons f fs ih =>
    obtain ⟨-, v, u1, ws, hv, hrun, rfl⟩ := runExt1_cons_eq_some.mp h
    obtain ⟨s1, hs1, hview1⟩ := extractField_of_sameView hview.symm hv
    obtain ⟨t, hws, hview'⟩ := ih (hview1.symm.respond_right [v]) hrun
    exact ⟨t, extractFields_cons_eq_ok.mpr ⟨v, s1, ws, hs1, hws, rfl⟩, hview'⟩

/-- The reader of a run of at least one single extract is bound. -/
theorem bound_of_runExt1 {fs : List Field} {s u : State} {vs : List Word} (hfs : fs ≠ [])
    (h : runExt1 fs s = some (vs, u)) : s.rc.bound = true := by
  cases fs with
  | nil => exact absurd rfl hfs
  | cons f fs => exact (runExt1_cons_eq_some.mp h).1

/-- An extract command that completes is the run of its single extracts, started in any state with the same view. -/
theorem runExt1_of_exec_extract {i : Instr} {s u t : State} (hi : extractedFields i ≠ []) (hview : SameView s u)
    (h : exec i s = .next t) :
    ∃ t', runExt1 (extractedFields i) u = some (t.results.driven i, t') ∧ SameView t t' := by
  obtain ⟨hb, vs, s1, hvs, rfl⟩ := (exec_extract_eq_next hi).mp h
  rw [driven_respond ((extractFields_length hvs).trans (extractedFields_length hi))]
  obtain ⟨t', hrun, hview'⟩ := runExt1_of_extractFields hview hb hvs
  exact ⟨t', hrun, hview'.respond_left vs⟩

/-- A run of the single extracts of a command that completes is that command, started in any state with the same view. -/
theorem exec_extract_of_runExt1 {i : Instr} {s u t' : State} {vs : List Word} (hi : extractedFields i ≠ [])
    (hview : SameView s u) (h : runExt1 (extractedFields i) u = some (vs, t')) :
    ∃ t, exec i s = .next t ∧ t.results.driven i = vs ∧ SameView t t' := by
  obtain ⟨t, hvs, hview'⟩ := extractFields_of_runExt1 hview h
  exact ⟨respond vs t,
    (exec_extract_eq_next hi).mpr ⟨hview.bound.trans (bound_of_runExt1 hi h), vs, t, hvs, rfl⟩,
    driven_respond ((extractFields_length hvs).trans (extractedFields_length hi)) t,
    hview'.respond_left vs⟩

/-- Settles O24: the completion events between the single extracts are all that differs, and no extract looks at them. -/
theorem fusedReadsEqualSingleReads : Obligations.FusedReadsEqualSingleReads := by
  intro i fs s hfs
  obtain ⟨rfl, hi⟩ : fs = extractedFields i ∧ extractedFields i ≠ [] := by
    rcases hfs with ⟨_, rfl, rfl⟩ | ⟨_, _, rfl, rfl⟩ | ⟨_, _, _, rfl, rfl⟩ | ⟨_, _, _, _, rfl, rfl⟩ <;>
      exact ⟨rfl, nofun⟩
  rw [extractedFields_length hi]
  refine ⟨fun t ht => ?_, fun vs u hu => ?_⟩
  · obtain ⟨u, hrun, hsame, -⟩ := runExt1_of_exec_extract hi (.refl s) ht
    exact ⟨u, hrun, hsame⟩
  · obtain ⟨t, ht, hvs, hsame, -⟩ := exec_extract_of_runExt1 hi (.refl s) hu
    exact ⟨t, ht, hvs, hsame⟩

end Sys2Proof.Machine
end

section
/-! SUPPORT. The writer's commands BINDW, WR1 and WSKIP (43_writer.md), and that a reader gets back what a writer wrote
(R175): a run of writes is one write of the concatenated values, and a run of extracts takes it apart again. -/

namespace Sys2Proof.Machine

open Sys2Proof

/-- The writer's own check comes first (10_state.md R36). -/
theorem endsInFault_requireWriter {α : Type} {s : State} {f : Unit → Except Violation α}
    (h : s.wc.bound = true → EndsInFault (f ())) : EndsInFault (requireWriter s >>= f) :=
  endsInFault_require nofun h

/-! ### BINDW (R171) -/

/-- Settles O30: the two checks of the bind are the two ranges, and the state after is explicit. -/
theorem bindwBindsTheWriter : Obligations.BindwBindsTheWriter := by
  intro off s
  refine ⟨fun hp ho => ?_, fun hbad => ?_⟩
  · have hc : inContract (.bindw off) s = true := by simp [inContract, hp, ho]
    exact ⟨_, exec_bindw_eq_next.mpr ⟨hc, rfl⟩, rfl, rfl, rfl, rfl, rfl, rfl, rfl, rfl, rfl⟩
  · refine EndsInFault.conclude ?_ (.bindw off)
    refine endsInFault_require nofun fun hp => endsInFault_require nofun fun ho => ?_
    exact absurd hbad (not_or.mpr ⟨(of_decide_eq_true hp).not_ge, (of_decide_eq_true ho).not_ge⟩)

/-! ### WSKIP (R172, R174) -/

/-- An advance past the index space faults (R172). -/
theorem endsInFault_wcursorAdvance {n : Nat} {s : State}
    (h : s.params.indexCount ≤ s.wc.idx + (s.wc.ofs + n) / s.params.W) :
    EndsInFault (wcursorAdvance n s) :=
  endsInFault_require nofun fun hidx => absurd (of_decide_eq_true hidx) h.not_gt

/-- Settles O33: the skip is `wcursor_advance(P)`, which has no check but that of the index. -/
theorem wskipMovesTheWriter : Obligations.WskipMovesTheWriter := by
  intro s
  refine ⟨fun hc => ?_, fun hbad => ?_⟩
  · have hbound : s.wc.bound = true := (Bool.and_eq_true_iff.mp hc).1
    exact ⟨_, exec_wskip_eq_next.mpr ⟨hc, rfl⟩, writerPos_afterWriterAdvance _ s, rfl, rfl,
      Nat.mod_lt _ s.params.W_pos, hbound, rfl, rfl, rfl, rfl, rfl, rfl, rfl, rfl⟩
  · rcases hbad with hb | hidx
    · exact ⟨_, exec_of_unboundWriter hb rfl nofun⟩
    · refine EndsInFault.conclude ?_ .wskip
      exact endsInFault_requireWriter fun _ => (endsInFault_wcursorAdvance hidx).bind _

/-! ### WR1 (R173) -/

theorem inContract_wr1_iff {n : Nat} {s : State} :
    inContract (.wr1 n) s = true ↔
      s.wc.bound = true ∧ writeInContract s s.wc.idx s.ports.a s.wc.ofs n = true ∧
        s.wc.idx + (s.wc.ofs + n) / s.params.W < s.params.indexCount := by
  simp only [inContract, writerAdvanceInContract, Bool.and_eq_true, decide_eq_true_eq, and_assoc]

/-- The requests of a set inside its contract, width 0 included (40_primitives.md R112). -/
theorem writeRequests_of_writeInContract {s : State} {p val off n : Nat}
    (h : writeInContract s p val off n = true) : WriteRequests s (afterSet p val off n s) p off n := by
  rcases Nat.eq_zero_or_pos n with rfl | hn
  · exact ⟨fun _ => rfl, nofun, nofun⟩
  · obtain ⟨ho, hf, -⟩ := (writeInContract_iff hn).mp h
    exact writeRequests_afterSet val ho (fieldFits_le hf)

theorem writerOfs_lt_afterWriterAdvance (n : Nat) (s : State) :
    (afterWriterAdvance n s).wc.ofs < s.params.W := Nat.mod_lt _ s.params.W_pos

theorem keepsHostSide_wr1 (n : Nat) (s : State) : KeepsHostSide s (respond [] (bodyAfter (.wr1 n) s)) := by
  simp [KeepsHostSide, bodyAfter, afterWriterAdvance]

/-- A WR1 that completes has written its field of the stream at the cursor, moved the bit address on by the width, and left
`OFS` below `W`. -/
theorem wr1_completion {n : Nat} {s t : State} (h : exec (.wr1 n) s = .next t) :
    FieldWritten s t (writerPos s) n s.ports.a ∧ writerPos t = writerPos s + n ∧ t.params = s.params ∧
      t.wc.ofs < s.params.W := by
  obtain ⟨hc, rfl⟩ := exec_wr1_eq_next.mp h
  obtain ⟨-, hwrite, -⟩ := inContract_wr1_iff.mp hc
  have hofs := writerOfs_lt_afterWriterAdvance n (afterSet s.wc.idx s.ports.a s.wc.ofs n s)
  rw [afterSet_params] at hofs
  exact ⟨fieldWritten_afterSet hwrite, (writer_bodyAfter s (i := .wr1 n) nofun).2,
    bodyAfter_params (.wr1 n) s, hofs⟩

/-- Settles O31: WR1 is a set at the cursor and an advance of the cursor; the checks of the width and the value come before
any access. -/
theorem wr1WritesTheFieldAndAdvances : Obligations.Wr1WritesTheFieldAndAdvances := by
  intro n s
  have hstops : inContract (.wr1 n) s = false → Stops (exec (.wr1 n) s) := fun hc =>
    stops_of_inContract_false hc fun t ht => (exec_wr1_eq_next.mp ht).1
  refine ⟨fun hc => ?_, fun hb => ⟨_, exec_of_unboundWriter hb rfl nofun⟩, fun hn hbad => ?_,
    fun hidx => hstops ?_, hstops⟩
  · obtain ⟨hbound, hwrite, -⟩ := inContract_wr1_iff.mp hc
    have hexec := exec_wr1_eq_next.mpr ⟨hc, rfl⟩
    obtain ⟨hfield, hpos, -, hofs⟩ := wr1_completion hexec
    exact ⟨_, hexec, hfield, writeRequests_of_writeInContract hwrite, hpos, hofs,
      (congrArg WriterCtx.bound (afterSet_wc ..)).trans hbound, afterSet_rc .., keepsHostSide_wr1 n s⟩
  · refine EndsInFault.conclude ?_ (.wr1 n)
    refine endsInFault_requireWriter fun _ => (endsInFault_setBitRange hn ?_).bind _
    rintro ⟨-, hf, hv⟩
    rw [fieldFits_iff] at hf
    rcases hbad with h | h | h
    · omega
    · omega
    · exact hv.not_ge h
  · rw [Bool.eq_false_iff, Ne, inContract_wr1_iff]
    rintro ⟨-, -, hlt⟩
    exact hlt.not_ge hidx

/-! ### A run of writes is one write (R175) -/

/-- The values of a run of writes as one value, the first in the lowest bits. -/
def packedValue : List (Field × Word) → Nat
  | [] => 0
  | (f, v) :: rest => 2 ^ f.bits * packedValue rest + v

/-- The low bits are the first value's, the bits above them the others'. -/
theorem packedValue_testBit {f : Field} {v : Word} (hv : v < 2 ^ f.bits) (rest : List (Field × Word)) (j : Nat) :
    (packedValue ((f, v) :: rest)).testBit j =
      if j < f.bits then v.testBit j else (packedValue rest).testBit (j - f.bits) :=
  Nat.testBit_two_pow_mul_add _ hv j

theorem packedValue_shiftRight {f : Field} {v : Word} (hv : v < 2 ^ f.bits) (rest : List (Field × Word)) :
    packedValue ((f, v) :: rest) >>> f.bits = packedValue rest := by
  rw [packedValue, Nat.shiftRight_eq_div_pow, Nat.mul_add_div (Nat.two_pow_pos _), Nat.div_eq_of_lt hv,
    Nat.add_zero]

theorem totalBits_cons (f : Field) (fs : List Field) : totalBits (f :: fs) = f.bits + totalBits fs := rfl

/-- A field write depends on the low bits of its value only. -/
theorem FieldWritten.congr_value {s t : State} {pos n : Nat} {v w : Word} (h : FieldWritten s t pos n v)
    (hvw : ∀ j, j < n → v.testBit j = w.testBit j) : FieldWritten s t pos n w := by
  intro k
  rw [h k]
  split_ifs with hk
  · rw [hvw (k - pos) (by omega)]
  · rfl

/-- The first of several writes, then the others from the state it leaves. -/
theorem runWr1_cons_eq_some {f : Field} {v : Word} {rest : List (Field × Word)} {s t : State} :
    runWr1 ((f, v) :: rest) s = some t ↔
      ∃ s1, exec (.wr1 f.bits) (withA v s) = .next s1 ∧ runWr1 rest s1 = some t := by
  rw [runWr1]
  cases exec (.wr1 f.bits) (withA v s) with
  | next s1 => simp
  | fault _ => simp
  | refused _ => simp

/-- A run of writes writes the packed value at the cursor, which it moves on by the total width. -/
theorem runWr1_completion {fs : List (Field × Word)} {s t : State} (hfit : ∀ p ∈ fs, p.2 < 2 ^ p.1.bits)
    (ho : s.wc.ofs < s.params.W) (h : runWr1 fs s = some t) :
    FieldWritten s t (writerPos s) (totalBits (fs.map Prod.fst)) (packedValue fs) ∧
      writerPos t = writerPos s + totalBits (fs.map Prod.fst) ∧ t.params = s.params ∧
      t.wc.ofs < s.params.W := by
  induction fs generalizing s with
  | nil =>
    cases h
    exact ⟨fieldWritten_zero _ _ _, rfl, rfl, ho⟩
  | cons p fs ih =>
    obtain ⟨f, v⟩ := p
    obtain ⟨hv, hfits⟩ : v < 2 ^ f.bits ∧ ∀ p ∈ fs, p.2 < 2 ^ p.1.bits := List.forall_mem_cons.mp hfit
    obtain ⟨s1, hexec, hrun⟩ := runWr1_cons_eq_some.mp h
    obtain ⟨hfield, hpos, hparams, hofs⟩ := wr1_completion hexec
    obtain ⟨hfields, hposs, hparamss, hofss⟩ := ih hfits (hparams ▸ hofs) hrun
    have hfirst : FieldWritten s s1 (writerPos s) f.bits (packedValue ((f, v) :: fs)) :=
      FieldWritten.congr_value hfield fun j hj => by rw [packedValue_testBit hv, if_pos hj]; rfl
    have hsecond : FieldWritten s1 t (writerPos s + f.bits) (totalBits (fs.map Prod.fst))
        (packedValue ((f, v) :: fs) >>> f.bits) := by
      rw [packedValue_shiftRight hv, ← show writerPos s1 = writerPos s + f.bits from hpos]
      exact hfields
    refine ⟨hfirst.trans hsecond, ?_, hparamss.trans hparams, hparams ▸ hofss⟩
    rw [hposs, hpos, List.map_cons, totalBits_cons, Nat.add_assoc]
    rfl

/-! ### A run of extracts takes the written bits apart (R175) -/

/-- With coherent cached words the reader sees the memory (10_state.md R24). -/
theorem readerWord_of_cacheCoherent {s : State} (h : cacheCoherent s = true) (i : Nat) :
    readerWord s i = wordAt s i := by
  unfold cacheCoherent at h
  unfold readerWord
  cases hs : s.params.strategy with
  | direct => rfl
  | cached =>
    simp only [hs, Bool.and_eq_true, beq_iff_eq] at h
    obtain ⟨h0, h1⟩ := h
    by_cases hi : i = s.rc.idx
    · simp [hi, h0]
    · by_cases hi1 : i = s.rc.idx + 1
      · simp [hi1, h1]
      · simp [hi, hi1]

/-- A bind inside its contract leaves coherent words (41_buffer_strategy.md R132). -/
theorem cacheCoherent_afterBind {s : State} {p : Nat} (off : Nat) (h : bindReady s p = true) :
    cacheCoherent (afterBind p off s) = true := by
  unfold cacheCoherent
  cases hs : (afterBind p off s).params.strategy with
  | direct => rfl
  | cached =>
    obtain ⟨h0, h1, -⟩ := afterBind_cached (s := s) off hs h
    exact Bool.and_eq_true_iff.mpr ⟨beq_iff_eq.mpr h0, beq_iff_eq.mpr h1⟩

/-- A bind that completes leaves a coherent reader at word `P`, offset `OFF`, over the same memory. -/
theorem bindr_completion {off : Nat} {s t : State} (h : exec (.bindr off) s = .next t) :
    readerPos t = s.ports.p * s.params.W + off ∧ t.rc.ofs = off ∧ cacheCoherent t = true ∧
      t.params = s.params ∧ t.mem = s.mem := by
  obtain ⟨hc, rfl⟩ := exec_bindr_eq_next.mp h
  obtain ⟨-, -, hready⟩ := inContract_bindr_iff.mp hc
  exact ⟨rfl, rfl, cacheCoherent_afterBind off hready, rfl, rfl⟩

theorem isSome_wordAt_of_streamBit {s : State} {k : Nat} {b : Bool} (h : streamBit s k = some b) :
    (wordAt s (k / s.params.W)).isSome = true := by
  rw [← Option.isSome_map, ← streamBit, h, Option.isSome_some]

/-- A field whose bits all stand in the stream is what a coherent reader sees there. -/
theorem readerField_of_streamBits {s : State} {pos n : Nat} {v : Word} (hcoh : cacheCoherent s = true)
    (hn : n ≤ s.params.W) (hv : v < 2 ^ n)
    (hbits : ∀ j, j < n → streamBit s (pos + j) = some (v.testBit j)) : readerField s pos n = v := by
  have hmem : readerField s pos n = memoryField s (pos / s.params.W) (pos % s.params.W) n := by
    rw [readerField, readerWord_of_cacheCoherent hcoh, readerWord_of_cacheCoherent hcoh, memoryField]
  have hpos := Nat.div_add_mod' pos s.params.W
  have ho := Nat.mod_lt pos s.params.W_pos
  rw [hmem]
  apply Nat.eq_of_testBit_eq
  intro j
  by_cases hj : j < n
  · have h0 : (wordAt s (pos / s.params.W)).isSome = true :=
      isSome_wordAt_of_streamBit (hbits 0 (by omega))
    have h1 : s.params.W < pos % s.params.W + n → (wordAt s (pos / s.params.W + 1)).isSome = true :=
      fun hlt => by
        have htop := isSome_wordAt_of_streamBit (hbits (s.params.W - pos % s.params.W) (by omega))
        rwa [show pos + (s.params.W - pos % s.params.W) = (pos / s.params.W + 1) * s.params.W by
          rw [Nat.succ_mul]; omega, Nat.mul_div_cancel _ s.params.W_pos] at htop
    have hbit := streamBit_eq_memoryField_testBit ho hn h0 h1 hj
    rw [hpos, hbits j hj] at hbit
    exact (Option.some.inj hbit).symm
  · rw [memoryField, Nat.testBit_mod_two_pow, decide_eq_false hj, Bool.false_and, testBit_above hv (by omega)]

/-- Fields that stand packed in the stream come back one by one, each with the fixup of its tag. -/
theorem readerResults_of_packedValue {s : State} {pos : Nat} {fs : List (Field × Word)}
    (hcoh : cacheCoherent s = true) (hfit : ∀ p ∈ fs, p.2 < 2 ^ p.1.bits)
    (hc : extractInContract s pos (fs.map Prod.fst) = true)
    (hbits : ∀ j, j < totalBits (fs.map Prod.fst) →
      streamBit s (pos + j) = some ((packedValue fs).testBit j)) :
    readerResults s pos (fs.map Prod.fst) =
      fs.map (fun p => fixup s.params.W p.2 p.1.bits p.1.sign) := by
  induction fs generalizing pos with
  | nil => rfl
  | cons p fs ih =>
    obtain ⟨f, v⟩ := p
    obtain ⟨hv, hfits⟩ : v < 2 ^ f.bits ∧ ∀ p ∈ fs, p.2 < 2 ^ p.1.bits := List.forall_mem_cons.mp hfit
    simp only [List.map_cons, totalBits_cons] at hbits
    rw [List.map_cons, extractInContract_cons] at hc
    obtain ⟨hfirst, hrest⟩ := hc
    have hwidth : f.bits ≤ s.params.W := by
      simp only [extractInContract, Bool.and_eq_true] at hfirst
      obtain ⟨⟨hwidth, -⟩, -⟩ := hfirst
      exact fieldFits_le hwidth
    have hfield : readerField s pos f.bits = v :=
      readerField_of_streamBits hcoh hwidth hv fun j hj => by
        rw [hbits j (by omega), packedValue_testBit hv, if_pos hj]
    have hrestBits : ∀ j, j < totalBits (fs.map Prod.fst) →
        streamBit s (pos + f.bits + j) = some ((packedValue fs).testBit j) := fun j hj => by
      rw [Nat.add_assoc, hbits _ (by omega), packedValue_testBit hv, if_neg (by omega), Nat.add_sub_cancel_left]
    rw [List.map_cons, List.map_cons, readerResults, readerResult, hfield, ih hfits hrest hrestBits]

/-- A run of single extracts returns the fields the reader sees and moves the bit address on by their total width. -/
theorem runExt1_completion {fs : List Field} {s t : State} {vs : List Word} (ho : s.rc.ofs < s.params.W)
    (h : runExt1 fs s = some (vs, t)) :
    extractInContract s (readerPos s) fs = true ∧ vs = readerResults s (readerPos s) fs ∧
      readerPos t = readerPos s + totalBits fs ∧ t.rc.ofs < s.params.W ∧ t.params = s.params ∧
      t.mem = s.mem := by
  obtain ⟨u, hu, ⟨hparams, hrc, -, hmem, -⟩, -⟩ := extractFields_of_runExt1 (.refl s) h
  obtain ⟨hc, hvs, rfl⟩ := (extractFields_eq_ok ho).mp hu
  obtain ⟨hparams', -, -, hmem', -⟩ := afterExtracts_frame fs s
  have hofs := afterExtracts_ofs_lt fs ho
  have hpos : readerPos t = readerPos (afterExtracts fs s) := by
    rw [readerPos, readerPos, hrc, hparams]
  rw [hparams', hrc] at hofs
  exact ⟨hc, hvs, hpos.trans (readerPos_afterExtracts fs s), hofs, hparams.symm.trans hparams',
    hmem.symm.trans hmem'⟩

theorem streamBit_congr {s t : State} (hp : t.params = s.params) (hm : t.mem = s.mem) (k : Nat) :
    streamBit t k = streamBit s k := by
  rw [streamBit, streamBit, hp, wordAt_congr hp hm]

/-- Two cursors at one bit address, both offsets below `W`, are at the same place (10_state.md R22, R23). -/
theorem cursors_eq_of_readerPos_eq_writerPos {r w : State} (hp : r.params = w.params)
    (hr : r.rc.ofs < r.params.W) (hw : w.wc.ofs < w.params.W) (h : readerPos r = writerPos w) :
    r.rc.idx = w.wc.idx ∧ r.rc.ofs = w.wc.ofs := by
  rw [← readerPos_div hr, ← readerPos_mod hr, h, hp, writerPos, Nat.add_comm,
    Nat.add_mul_div_right _ _ w.params.W_pos, Nat.div_eq_of_lt hw, Nat.zero_add, Nat.add_mul_mod_self_right,
    Nat.mod_eq_of_lt hw]
  exact ⟨rfl, rfl⟩

/-- Settles O35: the writes put one packed value into the stream, the bind leaves a coherent reader at its start, and the
extracts take it apart again. -/
theorem writerAndReaderAgree : Obligations.WriterAndReaderAgree := by
  intro fs s t u v vs hfit ho hwrites hbind hreads
  obtain ⟨hwritten, hposW, hpt, hofsW⟩ := runWr1_completion hfit ho hwrites
  obtain ⟨hposU, hofsU, hcoh, hput, hmu⟩ := bindr_completion hbind
  have hpu : u.params = s.params := hput.trans hpt
  have hstart : readerPos u = writerPos s := by rw [hposU, withP_params, hpt, writerPos, withP_ports]
  obtain ⟨hext, rfl, hposR, hofsR, hpv, hmv⟩ := runExt1_completion (by rwa [hofsU, hpu]) hreads
  rw [hstart] at hext hposR ⊢
  have hstream : ∀ k, streamBit u k = streamBit t k := streamBit_congr hput hmu
  have hbits : ∀ j, j < totalBits (fs.map Prod.fst) →
      streamBit u (writerPos s + j) = some ((packedValue fs).testBit j) := fun j hj => by
    rw [hstream, hwritten, if_pos (by omega), Nat.add_sub_cancel_left]
  obtain ⟨hidx, hofs⟩ := cursors_eq_of_readerPos_eq_writerPos (w := t) (hpv.trans hput)
    (by rwa [hpv]) (by rwa [hpt]) (hposR.trans hposW.symm)
  refine ⟨?_, hidx, hofs, fun k hk => ?_⟩
  · rw [readerResults_of_packedValue hcoh hfit hext hbits, hpu]
  · rw [streamBit_congr hpv hmv, hstream, hwritten, if_neg (by omega)]

end Sys2Proof.Machine
end

section
/-! SUPPORT. How many loads and stores each command adds to the record of requests (70_reset_and_hazards.md R244, R245): the
counts of the shared operations, of a run of extracts, and then of every command. -/

namespace Sys2Proof.Machine

open Sys2Proof

/-! ### Counting the requests added -/

/-- The requests of `t` are those of `s` and then so many loads and stores, in some order. -/
def RequestsAdded (s t : State) (loads stores : Nat) : Prop :=
  ∃ rs, t.trace = s.trace ++ rs ∧ rs.countP (fun r => r.isLoad) = loads ∧
    rs.countP (fun r => !r.isLoad) = stores

theorem requestsAdded_of_loads {s t : State} {is : List Nat} {n : Nat} (h : t.trace = s.trace ++ is.map .load)
    (hn : is.length = n) : RequestsAdded s t n 0 :=
  ⟨_, h, by simp [List.countP_map, Function.comp_def, MemReq.isLoad, hn],
    by simp [List.countP_map, Function.comp_def, MemReq.isLoad]⟩

theorem RequestsAdded.of_trace_eq {s t : State} (h : t.trace = s.trace) : RequestsAdded s t 0 0 :=
  requestsAdded_of_loads (is := []) (h.trans (List.append_nil _).symm) rfl

theorem RequestsAdded.trans {s t u : State} {l k l' k' : Nat} (h : RequestsAdded s t l k)
    (h' : RequestsAdded t u l' k') : RequestsAdded s u (l + l') (k + k') := by
  obtain ⟨rs, htrace, rfl, rfl⟩ := h
  obtain ⟨rs', htrace', rfl, rfl⟩ := h'
  exact ⟨rs ++ rs', by rw [htrace', htrace, List.append_assoc], List.countP_append, List.countP_append⟩

/-- A word that is changed is loaded and then stored (20_memory.md R47). -/
theorem requestsAdded_afterStore (i : Nat) (v : Word) (s : State) :
    RequestsAdded s (afterStore i v (afterLoads [i] s)) 1 1 :=
  ⟨[.load i, .store i v], List.append_assoc _ _ _, rfl, rfl⟩

/-- A set loads as many words as it stores: none, one, or two where the field straddles (40_primitives.md R111). -/
theorem requestsAdded_afterSet (p : Nat) (val : Word) (off n : Nat) (s : State) :
    RequestsAdded s (afterSet p val off n s) (storedWords (.sbr n off) s) (storedWords (.sbr n off) s) := by
  simp only [afterSet, storedWords]
  split_ifs
  · exact .of_trace_eq rfl
  · exact requestsAdded_afterStore _ _ s
  · exact (requestsAdded_afterStore _ _ s).trans (requestsAdded_afterStore _ _ _)

/-! ### The loads of the reader's procedures and of XBRM -/

theorem xbrmLoads_length (s : State) (off n : Nat) :
    (xbrmLoads s off n).length = loadCount (.xbrm n off) s := by
  simp only [xbrmLoads, loadCount]
  cases s.params.word1Policy with
  | unconditional => rfl
  | conditional =>
    simp only [gt_iff_lt, ← Nat.not_le]
    split_ifs <;> rfl

theorem bindLoads_length (s : State) (p off : Nat) :
    (bindLoads s p).length = loadCount (.bindr off) s := by
  simp only [bindLoads, loadCount]
  cases s.params.strategy <;> rfl

/-- CURR and NEXT issue the same number of loads. -/
theorem viewLoads_length (s : State) (i : Nat) : (viewLoads s i).length = loadCount .curr s := by
  simp only [viewLoads, loadCount]
  cases s.params.strategy <;> rfl

theorem advanceLoads_length (s : State) (k : Nat) : (advanceLoads s k).length = advanceLoadCount s k := by
  simp only [advanceLoads, advanceLoadCount]
  cases s.params.strategy with
  | direct => rfl
  | cached => split_ifs <;> rfl

/-! ### The loads of a run of extracts -/

/-- The contract of a run is that of its first extract, and that of the others from the state it leaves. -/
theorem extractInContract_cons_afterExtract {s : State} {f : Field} {fs : List Field} :
    extractInContract s (readerPos s) (f :: fs) = true ↔
      extractInContract s (readerPos s) [f] = true ∧
        extractInContract (afterExtract f.bits s) (readerPos (afterExtract f.bits s)) fs = true := by
  rw [extractInContract_cons, readerPos_afterExtract,
    extractInContract_congr (s := s) (t := afterExtract f.bits s) rfl rfl rfl]

/-- One extract crosses at most one word boundary, so what it loads on its way is what the table counts
(42_cursor_extractor.md R152). -/
theorem extract_loads_length {s : State} {n : Nat} (ho : s.rc.ofs < s.params.W) (hn : n ≤ s.params.W) :
    (extractViewLoads s ++ advanceLoads s ((s.rc.ofs + n) / s.params.W)).length = extractLoadCount s 1 n ∧
      extractLoadCount s 1 n ≤ 2 := by
  rw [List.length_append, advanceLoads_length]
  unfold extractLoadCount advanceLoadCount
  cases hs : s.params.strategy with
  | direct =>
    rw [extractViewLoads_direct hs]
    exact ⟨rfl, le_refl _⟩
  | cached =>
    rw [extractViewLoads_cached hs, readerPos_add_div, readerPos_div ho]
    rcases extract_wordDelta s.params.W_pos ho hn with hd | hd <;> simp [hd]

theorem requestsAdded_afterExtract {s : State} {n : Nat} (ho : s.rc.ofs < s.params.W) (hn : n ≤ s.params.W) :
    RequestsAdded s (afterExtract n s) (extractLoadCount s 1 n) 0 := by
  refine requestsAdded_of_loads ?_ (extract_loads_length ho hn).1
  rw [List.map_append, ← List.append_assoc]
  rfl

/-- The boundaries a run crosses are those its first extract crosses and those the others cross after it. -/
theorem extractLoadCount_cons (s : State) (f : Field) (fs : List Field) :
    extractLoadCount s (f :: fs).length (totalBits (f :: fs)) =
      extractLoadCount s 1 f.bits +
        extractLoadCount (afterExtract f.bits s) fs.length (totalBits fs) := by
  have hparams : (afterExtract f.bits s).params = s.params := rfl
  simp only [extractLoadCount, hparams, readerPos_afterExtract, totalBits_cons, List.length_cons]
  cases s.params.strategy with
  | direct => simp only; omega
  | cached =>
    have h1 : readerPos s / s.params.W ≤ (readerPos s + f.bits) / s.params.W :=
      Nat.div_le_div_right (Nat.le_add_right _ _)
    have h2 : (readerPos s + f.bits) / s.params.W ≤ (readerPos s + f.bits + totalBits fs) / s.params.W :=
      Nat.div_le_div_right (Nat.le_add_right _ _)
    simp only [← Nat.add_assoc]
    omega

/-- A run of extracts issues two loads each under DIRECT and one per word boundary crossed under CACHED, so never more than
two each. -/
theorem requestsAdded_afterExtracts {fs : List Field} {s : State} (ho : s.rc.ofs < s.params.W)
    (hc : extractInContract s (readerPos s) fs = true) :
    RequestsAdded s (afterExtracts fs s) (extractLoadCount s fs.length (totalBits fs)) 0 ∧
      extractLoadCount s fs.length (totalBits fs) ≤ 2 * fs.length := by
  induction fs generalizing s with
  | nil =>
    have hzero : extractLoadCount s 0 0 = 0 := by
      unfold extractLoadCount
      cases s.params.strategy with
      | direct => rfl
      | cached => exact Nat.sub_self _
    change RequestsAdded s s (extractLoadCount s 0 0) 0 ∧ extractLoadCount s 0 0 ≤ 0
    rw [hzero]
    exact ⟨.of_trace_eq rfl, le_refl 0⟩
  | cons f fs ih =>
    obtain ⟨hfirst, hrest⟩ := extractInContract_cons_afterExtract.mp hc
    have hn := fieldFits_le ((extractInContract_one ho).mp hfirst).1
    obtain ⟨hadded, hle⟩ := ih (afterExtract_ofs_lt f.bits s) hrest
    have hone := (extract_loads_length ho hn).2
    rw [extractLoadCount_cons, List.length_cons]
    exact ⟨(requestsAdded_afterExtract ho hn).trans hadded, by omega⟩

/-! ### Every command -/

theorem extractInContract_of_exec_eq_next {i : Instr} {s t : State} (ho : s.rc.ofs < s.params.W)
    (h : exec i s = .next t) : extractInContract s (readerPos s) (extractedFields i) = true := by
  by_cases hi : extractedFields i = []
  · rw [hi]
    rfl
  · obtain ⟨-, vs, s1, hfields, -⟩ := (exec_extract_eq_next hi).mp h
    exact ((extractFields_eq_ok ho).mp hfields).1

/-- The table's row for EXT1 to EXT4 in terms of the list of destinations. -/
theorem loadCount_extract {i : Instr} (hi : extractedFields i ≠ []) (s : State) :
    loadCount i s = extractLoadCount s (extractedFields i).length (totalBits (extractedFields i)) := by
  cases i with
  | ext1 _ | ext2 _ _ | ext3 _ _ _ | ext4 _ _ _ _ =>
    simp [loadCount, extractedFields, totalBits, Nat.add_assoc]
  | shw _ | xbr _ _ | xbrm _ _ | sbr _ _ | sxt _ | bindr _ | curr | next | advw | skip | bindw _ | wr1 _ | wskip =>
    exact absurd rfl hi

theorem storedWords_le (i : Instr) (s : State) : storedWords i s ≤ 2 := by
  cases i with
  | sbr _ _ | wr1 _ =>
    simp only [storedWords]
    split_ifs <;> omega
  | shw _ | xbr _ _ | xbrm _ _ | sxt _ | bindr _ | curr | next | advw | skip | ext1 _ | ext2 _ _ | ext3 _ _ _
  | ext4 _ _ _ _ | bindw _ | wskip => exact Nat.zero_le _

theorem advanceLoadCount_le (s : State) (k : Nat) : advanceLoadCount s k ≤ 2 := by
  unfold advanceLoadCount
  cases s.params.strategy with
  | direct => exact Nat.zero_le _
  | cached => dsimp only; split_ifs <;> omega

/-- Only an extract needs its contract here: without it a field could cross several boundaries. -/
theorem requestsAdded_bodyAfter {i : Instr} {s : State} (ho : s.rc.ofs < s.params.W)
    (hc : extractInContract s (readerPos s) (extractedFields i) = true) :
    RequestsAdded s (bodyAfter i s) (loadCount i s) (storedWords i s) := by
  cases i with
  | sbr n off => exact requestsAdded_afterSet _ _ off n s
  | wr1 n => exact requestsAdded_afterSet _ _ s.wc.ofs n s
  | xbrm n off => exact requestsAdded_of_loads rfl (xbrmLoads_length s off n)
  | bindr off => exact requestsAdded_of_loads rfl (bindLoads_length s s.ports.p off)
  | curr | next => exact requestsAdded_of_loads rfl (viewLoads_length s _)
  | advw | skip => exact requestsAdded_of_loads rfl (advanceLoads_length s _)
  | ext1 _ | ext2 _ _ | ext3 _ _ _ | ext4 _ _ _ _ =>
    rw [loadCount_extract]
    · exact (requestsAdded_afterExtracts ho hc).1
    · exact List.cons_ne_nil _ _
  | shw _ | xbr _ _ | sxt _ | bindw _ | wskip => exact .of_trace_eq rfl

/-- The most is eight, for EXT4 under DIRECT (R244). -/
theorem loadCount_le {i : Instr} {s : State} (ho : s.rc.ofs < s.params.W)
    (hc : extractInContract s (readerPos s) (extractedFields i) = true) : loadCount i s ≤ 8 := by
  cases i with
  | ext1 _ | ext2 _ _ | ext3 _ _ _ | ext4 _ _ _ _ =>
    rw [loadCount_extract]
    · exact (requestsAdded_afterExtracts ho hc).2.trans (by simp [extractedFields])
    · exact List.cons_ne_nil _ _
  | sbr n off => exact (storedWords_le (.sbr n off) s).trans (by omega)
  | wr1 n => exact (storedWords_le (.wr1 n) s).trans (by omega)
  | advw | skip => exact (advanceLoadCount_le s _).trans (by omega)
  | xbrm _ _ =>
    simp only [loadCount]
    cases s.params.word1Policy with
    | unconditional => dsimp only; omega
    | conditional => dsimp only; split_ifs <;> omega
  | bindr _ | curr | next =>
    simp only [loadCount]
    split <;> omega
  | shw _ | xbr _ _ | sxt _ | bindw _ | wskip => exact Nat.zero_le _

/-- Settles O43: the state after a command is explicit, and so are the requests it adds; an extract that completes is inside
its contract, which bounds the word boundaries it crosses. -/
theorem memoryRequestsPerCommand : Obligations.MemoryRequestsPerCommand := by
  intro i s t ho h
  have hc := extractInContract_of_exec_eq_next ho h
  obtain ⟨vs, rfl⟩ := exec_next_state h
  obtain ⟨rs, htrace, hloads, hstores⟩ := requestsAdded_bodyAfter ho hc
  exact ⟨rs, htrace, hloads, hstores, loadCount_le ho hc, storedWords_le i s⟩

end Sys2Proof.Machine
end

section
/-! SUPPORT. The command word (30_encoding.md R74 to R79): what the decoder answers in terms of the fields of the word, read
row by row of the opcode table, and the statements about decoder, encoder and table. -/

namespace Sys2Proof.Machine

open Sys2Proof Sys2Proof.Laws

/-! ### Rows of the opcode table -/

/-- The fields, as `(lowest bit, width)`, that a command leaves unused beside RSV (30_encoding.md R74, R76). -/
def unusedFields : Instr → List (Nat × Nat)
  | .shw _ | .wr1 _ => [(15, 1), (16, 8), (24, 8), (32, 8), (40, 6)]
  | .xbr _ _ | .xbrm _ _ | .sbr _ _ => [(15, 1), (16, 8), (24, 8), (32, 8)]
  | .sxt _ | .ext1 _ => [(16, 8), (24, 8), (32, 8), (40, 6)]
  | .bindr _ | .bindw _ => [(8, 8), (16, 8), (24, 8), (32, 8)]
  | .curr | .next | .advw | .skip | .wskip => [(8, 8), (16, 8), (24, 8), (32, 8), (40, 6)]
  | .ext2 _ _ => [(24, 8), (32, 8), (40, 6)]
  | .ext3 _ _ _ => [(32, 8), (40, 6)]
  | .ext4 _ _ _ _ => [(40, 6)]

/-- The command of the row of `i` with its fields read off the word `w` (30_encoding.md R74, R75). -/
def readFields (w : Nat) : Instr → Instr
  | .shw _ => .shw (bitsAt w 8 7)
  | .xbr _ _ => .xbr (bitsAt w 8 7) (bitsAt w 40 6)
  | .xbrm _ _ => .xbrm (bitsAt w 8 7) (bitsAt w 40 6)
  | .sbr _ _ => .sbr (bitsAt w 8 7) (bitsAt w 40 6)
  | .sxt _ => .sxt (descriptorAt w 0)
  | .bindr _ => .bindr (bitsAt w 40 6)
  | .curr => .curr
  | .next => .next
  | .advw => .advw
  | .skip => .skip
  | .ext1 _ => .ext1 (descriptorAt w 0)
  | .ext2 _ _ => .ext2 (descriptorAt w 0) (descriptorAt w 1)
  | .ext3 _ _ _ => .ext3 (descriptorAt w 0) (descriptorAt w 1) (descriptorAt w 2)
  | .ext4 _ _ _ _ => .ext4 (descriptorAt w 0) (descriptorAt w 1) (descriptorAt w 2) (descriptorAt w 3)
  | .bindw _ => .bindw (bitsAt w 40 6)
  | .wr1 _ => .wr1 (bitsAt w 8 7)
  | .wskip => .wskip

/-- RSV and every field that the row of `i` does not use are 0 in `w` (30_encoding.md R77, R79). -/
def UnusedZero (w : Nat) (i : Instr) : Prop :=
  bitsAt w 46 18 = 0 ∧ ∀ r ∈ unusedFields i, bitsAt w r.1 r.2 = 0

theorem opcode_readFields (w : Nat) (i : Instr) : (readFields w i).opcode = i.opcode := by
  cases i <;> rfl

/-- The decoder on a word with the opcode of a row. -/
theorem decodeNat_of_opcode {w : Nat} {i : Instr} (h : bitsAt w 0 8 = i.opcode) :
    decodeNat w = admitCommand w ((unusedFields i).map fun r => bitsAt w r.1 r.2) (readFields w i) := by
  unfold decodeNat
  rw [h]
  cases i <;> rfl

theorem admitCommand_eq_ok {w : Nat} {unused : List Nat} {i j : Instr} :
    admitCommand w unused i = .ok j ↔ bitsAt w 46 18 = 0 ∧ (∀ x ∈ unused, x = 0) ∧ i = j := by
  unfold admitCommand
  split_ifs with hrsv hunused
  · simp [hrsv]
  · simp only [List.all_eq_true, beq_iff_eq] at hunused
    simp only [not_not.mp hrsv, Except.ok.injEq, true_and, and_iff_right hunused]
  · simp only [List.all_eq_true, beq_iff_eq] at hunused
    simp [hunused]

theorem decodeNat_eq_ok_of_opcode {w : Nat} {i j : Instr} (h : bitsAt w 0 8 = i.opcode) :
    decodeNat w = .ok j ↔ UnusedZero w i ∧ readFields w i = j := by
  rw [decodeNat_of_opcode h, admitCommand_eq_ok, UnusedZero, and_assoc, List.forall_mem_map]

/-- A word that decodes has the opcode of the command it decodes to. -/
theorem opcode_of_decodeNat {w : Nat} {j : Instr} (h : decodeNat w = .ok j) : bitsAt w 0 8 = j.opcode := by
  unfold decodeNat at h
  split at h
  case h_18 => cases h
  all_goals
    rename_i hop
    obtain ⟨-, -, rfl⟩ := admitCommand_eq_ok.mp h
    exact hop

/-- Everything the decoder can answer (30_encoding.md R74 to R79). -/
theorem decodeNat_eq_ok {w : Nat} {j : Instr} :
    decodeNat w = .ok j ↔ bitsAt w 0 8 = j.opcode ∧ UnusedZero w j ∧ readFields w j = j := by
  constructor
  · intro h
    have hop := opcode_of_decodeNat h
    exact ⟨hop, (decodeNat_eq_ok_of_opcode hop).mp h⟩
  · rintro ⟨hop, hfields⟩
    exact (decodeNat_eq_ok_of_opcode hop).mpr hfields

/-! ### Decode of encode -/

/-- The number the encoder writes fits the command word and has the opcode in its low byte. -/
theorem encodeFits (i : Instr) : EncodeFits.Statement i := by
  cases i with
  | shw n => exact EncodeFits.shw n
  | xbr n off => exact EncodeFits.xbr n off
  | xbrm n off => exact EncodeFits.xbrm n off
  | sbr n off => exact EncodeFits.sbr n off
  | sxt f => exact EncodeFits.sxt f
  | bindr off => exact EncodeFits.bindr off
  | curr => exact EncodeFits.curr
  | next => exact EncodeFits.next
  | advw => exact EncodeFits.advw
  | skip => exact EncodeFits.skip
  | ext1 f0 => exact EncodeFits.ext1 f0
  | ext2 f0 f1 => exact EncodeFits.ext2 f0 f1
  | ext3 f0 f1 f2 => exact EncodeFits.ext3 f0 f1 f2
  | ext4 f0 f1 f2 f3 => exact EncodeFits.ext4 f0 f1 f2 f3
  | bindw off => exact EncodeFits.bindw off
  | wr1 n => exact EncodeFits.wr1 n
  | wskip => exact EncodeFits.wskip

/-- The fields of the command word above OP, as the encoder writes them: the four descriptor bytes and OFF (30_encoding.md
R74). -/
structure WordFields where
  d0 : Nat
  d1 : Nat
  d2 : Nat
  d3 : Nat
  off : Nat

/-- The number with these fields above OP. -/
def WordFields.value (x : WordFields) : Nat :=
  x.d0 * 2 ^ 8 + x.d1 * 2 ^ 16 + x.d2 * 2 ^ 24 + x.d3 * 2 ^ 32 + x.off * 2 ^ 40

/-- The fields of a command's word. -/
def wordFields : Instr → WordFields
  | .shw n | .wr1 n => ⟨n, 0, 0, 0, 0⟩
  | .xbr n off | .xbrm n off | .sbr n off => ⟨n, 0, 0, 0, off⟩
  | .sxt f | .ext1 f => ⟨f.byte, 0, 0, 0, 0⟩
  | .bindr off | .bindw off => ⟨0, 0, 0, 0, off⟩
  | .curr | .next | .advw | .skip | .wskip => ⟨0, 0, 0, 0, 0⟩
  | .ext2 f0 f1 => ⟨f0.byte, f1.byte, 0, 0, 0⟩
  | .ext3 f0 f1 f2 => ⟨f0.byte, f1.byte, f2.byte, 0, 0⟩
  | .ext4 f0 f1 f2 f3 => ⟨f0.byte, f1.byte, f2.byte, f3.byte, 0⟩

theorem fieldBits_eq_value (i : Instr) : i.fieldBits = (wordFields i).value := by
  cases i <;> simp [Instr.fieldBits, wordFields, WordFields.value]

/-- The fields that stand in a word. -/
def wordFieldsAt (w : Nat) : WordFields :=
  ⟨bitsAt w 8 8, bitsAt w 16 8, bitsAt w 24 8, bitsAt w 32 8, bitsAt w 40 6⟩

/-- A word is its fields, OP at the bottom and RSV at the top (30_encoding.md R74). -/
theorem word_eq_fields {w : Nat} (h : w < 2 ^ 64) :
    w = bitsAt w 0 8 + (wordFieldsAt w).value + bitsAt w 46 18 * 2 ^ 46 := by
  simp only [wordFieldsAt, WordFields.value, bitsAt]
  omega

/-- The width and the tag of a descriptor are the low seven bits and the top bit of its byte. -/
theorem bitsAt_descriptor (w k : Nat) :
    bitsAt w (8 + 8 * k) 7 = bitsAt w (8 + 8 * k) 8 % 2 ^ 7 ∧
      bitsAt w (15 + 8 * k) 1 = bitsAt w (8 + 8 * k) 8 / 2 ^ 7 := by
  have htag : w / 2 ^ (15 + 8 * k) = w / 2 ^ (8 + 8 * k) / 2 ^ 7 := by
    rw [Nat.div_div_eq_div_mul, ← pow_add, show 8 + 8 * k + 7 = 15 + 8 * k by omega]
  simp only [bitsAt, htag]
  omega

theorem byte_descriptorAt (w k : Nat) : (descriptorAt w k).byte = bitsAt w (8 + 8 * k) 8 := by
  obtain ⟨hwidth, htag⟩ := bitsAt_descriptor w k
  have hbyte : bitsAt w (8 + 8 * k) 8 < 2 ^ 8 := Nat.mod_lt _ (by norm_num)
  simp only [descriptorAt, Field.byte, hwidth, htag, signOf]
  split_ifs <;> simp only [Signedness.bit] <;> omega

theorem signOf_bit (sign : Signedness) : signOf sign.bit = sign := by cases sign <;> rfl

theorem descriptorAt_of_byte {w k : Nat} {f : Field} (hf : f.wf = true) (h : f.byte = bitsAt w (8 + 8 * k) 8) :
    descriptorAt w k = f := by
  obtain ⟨hwidth, htag⟩ := bitsAt_descriptor w k
  have hn : f.bits < 128 := of_decide_eq_true hf
  have hbits : f.byte % 2 ^ 7 = f.bits := by rw [Field.byte]; omega
  have hsign : f.byte / 2 ^ 7 = f.sign.bit := by rw [Field.byte]; omega
  rw [descriptorAt, hwidth, htag, ← h, hbits, hsign, signOf_bit]

/-- A width stands alone in its descriptor byte where the bit of the tag is unused. -/
theorem bitsAt_width (w : Nat) : bitsAt w 8 8 = bitsAt w 8 7 + bitsAt w 15 1 * 2 ^ 7 := by
  obtain ⟨hwidth, htag⟩ : bitsAt w 8 7 = bitsAt w 8 8 % 2 ^ 7 ∧ bitsAt w 15 1 = bitsAt w 8 8 / 2 ^ 7 :=
    bitsAt_descriptor w 0
  omega

theorem readFields_wf (w : Nat) (i : Instr) : (readFields w i).wf = true := by
  have hbits : ∀ lo n, bitsAt w lo n < 2 ^ n := fun lo n => Nat.mod_lt _ (Nat.two_pow_pos n)
  have hdescriptor : ∀ k, (descriptorAt w k).wf = true := fun k => decide_eq_true (hbits _ 7)
  have hwidth : widthFits (bitsAt w 8 7) = true := decide_eq_true (hbits _ 7)
  have hoff : offsetFits (bitsAt w 40 6) = true := decide_eq_true (hbits _ 6)
  cases i <;> simp only [readFields, Instr.wf, hdescriptor, hwidth, hoff, Bool.and_self]

/-- The command read off a word has the fields that stand in the word, if the row uses them all. -/
theorem wordFields_readFields {w : Nat} {i : Instr} (h : UnusedZero w i) :
    wordFields (readFields w i) = wordFieldsAt w := by
  obtain ⟨-, hunused⟩ := h
  have hbyte : ∀ k, (descriptorAt w k).byte = bitsAt w (8 + 8 * k) 8 := byte_descriptorAt w
  cases i with
  | shw _ | wr1 _ | xbr _ _ | xbrm _ _ | sbr _ _ =>
    simp only [unusedFields, List.forall_mem_cons] at hunused
    simp [readFields, wordFields, wordFieldsAt, bitsAt_width w, hunused]
  | sxt _ | ext1 _ | ext2 _ _ | ext3 _ _ _ | ext4 _ _ _ _ =>
    simp only [unusedFields, List.forall_mem_cons] at hunused
    simp [readFields, wordFields, wordFieldsAt, hbyte, hunused]
  | bindr _ | bindw _ | curr | next | advw | skip | wskip =>
    simp only [unusedFields, List.forall_mem_cons] at hunused
    simp [readFields, wordFields, wordFieldsAt, hunused]

/-- A well-formed command whose fields stand in the word is read off it, and no bit of the word is left over. -/
theorem readFields_of_wordFields {w : Nat} {i : Instr} (hi : i.wf = true) (hrsv : bitsAt w 46 18 = 0)
    (h : wordFieldsAt w = wordFields i) : UnusedZero w i ∧ readFields w i = i := by
  have hwidth : ∀ n, widthFits n = true → bitsAt w 8 8 = n → bitsAt w 8 7 = n ∧ bitsAt w 15 1 = 0 :=
    fun n hn h8 => by
      have hn : n < 128 := of_decide_eq_true hn
      have := bitsAt_width w
      have : bitsAt w 8 7 < 2 ^ 7 := Nat.mod_lt _ (by norm_num)
      omega
  cases i with
  | shw n | wr1 n =>
    obtain ⟨hn, h1, h2, h3, ho⟩ := WordFields.mk.inj h
    obtain ⟨hbits, htag⟩ := hwidth n hi hn
    simp [UnusedZero, unusedFields, readFields, *]
  | xbr n off | xbrm n off | sbr n off =>
    obtain ⟨hn, h1, h2, h3, ho⟩ := WordFields.mk.inj h
    obtain ⟨hbits, htag⟩ := hwidth n (Bool.and_eq_true_iff.mp hi).1 hn
    simp [UnusedZero, unusedFields, readFields, *]
  | sxt f | ext1 f =>
    obtain ⟨h0, h1, h2, h3, ho⟩ := WordFields.mk.inj h
    have hd0 : descriptorAt w 0 = f := descriptorAt_of_byte hi h0.symm
    simp [UnusedZero, unusedFields, readFields, *]
  | bindr off | bindw off | curr | next | advw | skip | wskip =>
    obtain ⟨h0, h1, h2, h3, ho⟩ := WordFields.mk.inj h
    simp [UnusedZero, unusedFields, readFields, *]
  | ext2 f0 f1 =>
    simp only [Instr.wf, Bool.and_eq_true] at hi
    obtain ⟨h0, h1, h2, h3, ho⟩ := WordFields.mk.inj h
    have hd0 : descriptorAt w 0 = f0 := descriptorAt_of_byte hi.1 h0.symm
    have hd1 : descriptorAt w 1 = f1 := descriptorAt_of_byte hi.2 h1.symm
    simp [UnusedZero, unusedFields, readFields, *]
  | ext3 f0 f1 f2 =>
    simp only [Instr.wf, Bool.and_eq_true, and_assoc] at hi
    obtain ⟨h0, h1, h2, h3, ho⟩ := WordFields.mk.inj h
    obtain ⟨hf0, hf1, hf2⟩ := hi
    have hd0 : descriptorAt w 0 = f0 := descriptorAt_of_byte hf0 h0.symm
    have hd1 : descriptorAt w 1 = f1 := descriptorAt_of_byte hf1 h1.symm
    have hd2 : descriptorAt w 2 = f2 := descriptorAt_of_byte hf2 h2.symm
    simp [UnusedZero, unusedFields, readFields, *]
  | ext4 f0 f1 f2 f3 =>
    simp only [Instr.wf, Bool.and_eq_true, and_assoc] at hi
    obtain ⟨h0, h1, h2, h3, ho⟩ := WordFields.mk.inj h
    obtain ⟨hf0, hf1, hf2, hf3⟩ := hi
    have hd0 : descriptorAt w 0 = f0 := descriptorAt_of_byte hf0 h0.symm
    have hd1 : descriptorAt w 1 = f1 := descriptorAt_of_byte hf1 h1.symm
    have hd2 : descriptorAt w 2 = f2 := descriptorAt_of_byte hf2 h2.symm
    have hd3 : descriptorAt w 3 = f3 := descriptorAt_of_byte hf3 h3.symm
    simp [UnusedZero, unusedFields, readFields, *]

/-- Each field has the width of its place. -/
def WordFields.Fits (x : WordFields) : Prop :=
  x.d0 < 2 ^ 8 ∧ x.d1 < 2 ^ 8 ∧ x.d2 < 2 ^ 8 ∧ x.d3 < 2 ^ 8 ∧ x.off < 2 ^ 6

theorem fits_wordFields {i : Instr} (h : i.wf = true) : (wordFields i).Fits := by
  have hbyte : ∀ f : Field, f.wf = true → f.byte < 256 := fun f => EncodeFits.byte_lt
  have hwidth : ∀ n, widthFits n = true → n < 256 := fun n hn => by
    have := of_decide_eq_true hn
    omega
  have hoff : ∀ n, offsetFits n = true → n < 64 := fun n hn => of_decide_eq_true hn
  simp only [wordFields, WordFields.Fits]
  cases i with
  | shw n | wr1 n => simp [hwidth n h]
  | xbr n off | xbrm n off | sbr n off =>
    obtain ⟨hn, ho⟩ := Bool.and_eq_true_iff.mp h
    simp [hwidth n hn, hoff off ho]
  | sxt f | ext1 f => simp [hbyte f h]
  | bindr off | bindw off => simp [hoff off h]
  | curr | next | advw | skip | wskip => simp
  | ext2 _ _ | ext3 _ _ _ | ext4 _ _ _ _ =>
    simp only [Instr.wf, Bool.and_eq_true] at h
    simp [hbyte, h]

/-- Fields that fit their places are read back from the number they make up. -/
theorem wordFieldsAt_value {op : Nat} {x : WordFields} (hop : op < 2 ^ 8) (hx : x.Fits) :
    wordFieldsAt (op + x.value) = x ∧ bitsAt (op + x.value) 46 18 = 0 := by
  obtain ⟨d0, d1, d2, d3, off⟩ := x
  obtain ⟨h0, h1, h2, h3, ho⟩ := hx
  simp only [wordFieldsAt, WordFields.value, bitsAt, WordFields.mk.injEq] at *
  omega

/-- Settles O2: the fields of the encoded word are those of the command, and the row reads them all back. -/
theorem decodeGivesBackEveryEncodedCommand : Obligations.DecodeGivesBackEveryEncodedCommand := by
  intro i hi
  obtain ⟨-, hop, hnat⟩ := encodeFits i hi
  have hop8 : i.opcode < 2 ^ 8 := by rw [← hop]; exact Nat.mod_lt _ (by norm_num)
  rw [fieldBits_eq_value] at hop hnat
  obtain ⟨hfields, hrsv⟩ := wordFieldsAt_value hop8 (fits_wordFields hi)
  rw [decode, hnat, decodeNat_eq_ok]
  exact ⟨hop, readFields_of_wordFields hi hrsv hfields⟩

/-! ### Encode of decode -/

theorem decode_eq_ok {c : BitVec 64} {i : Instr} :
    decode c = .ok i ↔
      bitsAt c.toNat 0 8 = i.opcode ∧ UnusedZero c.toNat i ∧ readFields c.toNat i = i := decodeNat_eq_ok

/-- Settles O3: with RSV and the unused fields 0, the word is its opcode and the fields that the row reads. -/
theorem everyDecodedWordIsItsEncoding : Obligations.EveryDecodedWordIsItsEncoding := by
  intro c i h
  obtain ⟨hop, hunused, hread⟩ := decode_eq_ok.mp h
  have hfields := wordFields_readFields hunused
  rw [hread] at hfields
  refine ⟨hread ▸ readFields_wf c.toNat i, BitVec.eq_of_toNat_eq ?_⟩
  have hword := word_eq_fields c.isLt
  rw [hop, hunused.1, Nat.zero_mul, Nat.add_zero, ← hfields, ← fieldBits_eq_value] at hword
  rw [encode, BitVec.toNat_ofNat, ← hword, Nat.mod_eq_of_lt c.isLt]

/-- The step on a command word that does not decode (30_encoding.md R79). -/
theorem step_of_decode_error {s : State} {c : Command} {rest : List HostEvent} {why : Reject}
    (hs : s.inputs = .command c :: rest) (h : decode c.cmd = .error why) :
    step s = .refused (.invalidCommand c.cmd why) := by
  rw [step, hs]
  simp only [h]

/-- Settles O5: a word that decodes is the encoding of a well-formed command, so this one does not decode. -/
theorem invalidCommandWordsAreRefused : Obligations.InvalidCommandWordsAreRefused := by
  intro s c rest hs hnone
  cases h : decode c.cmd with
  | ok i =>
    obtain ⟨hi, henc⟩ := everyDecodedWordIsItsEncoding c.cmd i h
    exact absurd henc (hnone i hi)
  | error why => exact ⟨why, step_of_decode_error hs h⟩

/-! ### Match and mask (R77) -/

/-- The mask of a list of fields, as `(lowest bit, width)`. -/
def maskOf : List (Nat × Nat) → Nat
  | [] => 0
  | r :: rs => (lowMask r.2 <<< r.1) ||| maskOf rs

theorem and_maskOf_eq_zero {w : Nat} {rs : List (Nat × Nat)} :
    w &&& maskOf rs = 0 ↔ ∀ r ∈ rs, bitsAt w r.1 r.2 = 0 := by
  induction rs with
  | nil => simp [maskOf]
  | cons r rs ih =>
    rw [maskOf, Nat.and_or_distrib_left, Nat.or_eq_zero_iff, ih, and_fieldMask, Nat.shiftLeft_eq_zero_iff]
    simp

/-- A masked word is the opcode exactly when the word has it and the other fields under the mask are 0. -/
theorem and_mask_eq_opcode {w op m : Nat} (hop : op < 2 ^ 8) (hm : lowMask 8 &&& m = 0) :
    w &&& (lowMask 8 ||| m) = op ↔ bitsAt w 0 8 = op ∧ w &&& m = 0 := by
  have hlow : w &&& lowMask 8 = bitsAt w 0 8 := by rw [lowMask_and, bitsAt, pow_zero, Nat.div_one]
  have hopLow : op &&& lowMask 8 = op := by rw [lowMask_and, Nat.mod_eq_of_lt hop]
  rw [← hlow]
  constructor
  · intro h
    have hwLow : w &&& lowMask 8 = op := by
      calc w &&& lowMask 8 = w &&& (lowMask 8 ||| m) &&& lowMask 8 := by
            rw [Nat.and_assoc, Nat.and_or_distrib_right, Nat.and_self, Nat.and_comm m, hm, Nat.or_zero]
        _ = op := by rw [h, hopLow]
    have hwRest : w &&& m = 0 := by
      calc w &&& m = w &&& (lowMask 8 ||| m) &&& m := by
            rw [Nat.and_assoc, Nat.and_or_distrib_right, Nat.and_self, hm, Nat.zero_or]
        _ = 0 := by rw [h, ← hopLow, Nat.and_assoc, hm, Nat.and_zero]
    exact ⟨hwLow, hwRest⟩
  · rintro ⟨hwLow, hwRest⟩
    rw [Nat.and_or_distrib_left, hwLow, hwRest, Nat.or_zero]

/-- The masks of spec/opcode_table.json cover OP, RSV and the unused fields of each row. -/
theorem toNat_tableMask (i : Instr) :
    i.tableMask.toNat = lowMask 8 ||| maskOf ((46, 18) :: unusedFields i) := by
  cases i <;> simp [Instr.tableMask, unusedFields, maskOf, lowMask]

theorem opcode_lt (i : Instr) : i.opcode < 2 ^ 8 := by
  cases i <;> simp [Instr.opcode]

/-- `CMD & mask = match` says that OP is the row's and that RSV and the row's unused fields are 0. -/
theorem and_tableMask_eq_opcode {c : BitVec 64} {i : Instr} :
    c &&& i.tableMask = BitVec.ofNat 64 i.opcode ↔ bitsAt c.toNat 0 8 = i.opcode ∧ UnusedZero c.toNat i := by
  have hop := opcode_lt i
  have hdisjoint : lowMask 8 &&& maskOf ((46, 18) :: unusedFields i) = 0 := by
    cases i <;> simp [unusedFields, maskOf, lowMask]
  rw [← BitVec.toNat_inj, BitVec.toNat_and, BitVec.toNat_ofNat, Nat.mod_eq_of_lt (by omega), toNat_tableMask,
    and_mask_eq_opcode hop hdisjoint, and_maskOf_eq_zero, List.forall_mem_cons, UnusedZero]

/-- Settles O4: the decoder chooses the row by OP and admits the word when RSV and the row's unused fields are 0. -/
theorem decodingIsTheMatchAndMaskOfTheTable : Obligations.DecodingIsTheMatchAndMaskOfTheTable := by
  intro c row
  rw [and_tableMask_eq_opcode]
  constructor
  · rintro ⟨hop, hunused⟩
    exact ⟨readFields c.toNat row, (decodeNat_eq_ok_of_opcode hop).mpr ⟨hunused, rfl⟩,
      opcode_readFields c.toNat row⟩
  · rintro ⟨i, hi, hrow⟩
    have hop : bitsAt c.toNat 0 8 = row.opcode := (opcode_of_decodeNat hi).trans hrow
    exact ⟨hop, ((decodeNat_eq_ok_of_opcode hop).mp hi).1⟩

/-- Settles O1: nine words, each decoded by evaluation. -/
theorem commandWordsOfTheSpecDecode : Obligations.CommandWordsOfTheSpecDecode := by
  refine ⟨?_, ?_, ?_, ?_, ?_, ?_, ?_, ?_, ?_⟩ <;> rfl

end Sys2Proof.Machine
end

section
/-! SUPPORT. Every command in one equation: the contract it completes in, the values it drives and the state it leaves
(60_exceptions.md R201, 30_encoding.md R71, R73), and the statements that can be read off it. -/

namespace Sys2Proof.Machine

open Sys2Proof

/-! ### One equation for all commands -/

/-- The values a command drives on `r0`, `r1`, … (30_encoding.md R73). -/
def drivenValues (i : Instr) (s : State) : List Word :=
  match i with
  | .shw n => [shiftWindow s.params.W s.ports.a s.ports.b n]
  | .xbr n off => [(doubleWord s.params.W s.ports.a s.ports.b >>> off) % 2 ^ n]
  | .xbrm n off => [memoryField s s.ports.p off n]
  | .sxt f => [fixup s.params.W s.ports.a f.bits f.sign]
  | .curr => [(readerWord s s.rc.idx).getD 0]
  | .next => [(readerWord s (s.rc.idx + 1)).getD 0]
  | .ext1 f0 => readerResults s (readerPos s) [f0]
  | .ext2 f0 f1 => readerResults s (readerPos s) [f0, f1]
  | .ext3 f0 f1 f2 => readerResults s (readerPos s) [f0, f1, f2]
  | .ext4 f0 f1 f2 f3 => readerResults s (readerPos s) [f0, f1, f2, f3]
  | .sbr _ _ | .bindr _ | .advw | .skip | .bindw _ | .wr1 _ | .wskip => []

theorem drivenValues_length (i : Instr) (s : State) : (drivenValues i s).length = drivenCount i := by
  cases i <;> rfl

/-- A command answers a next state exactly inside its contract, and then this one. -/
theorem exec_eq_next {i : Instr} {s t : State} (ho : s.rc.ofs < s.params.W) :
    exec i s = .next t ↔
      inContract i s = true ∧ t = respond (drivenValues i s) (bodyAfter i s) := by
  cases i with
  | shw n => exact exec_shw_eq_next
  | xbr n off => exact exec_xbr_eq_next
  | xbrm n off => exact exec_xbrm_eq_next
  | sbr n off => exact exec_sbr_eq_next
  | sxt f => exact exec_sxt_eq_next
  | bindr off => exact exec_bindr_eq_next
  | curr => exact exec_curr_eq_next
  | next => exact exec_next_eq_next
  | advw => exact exec_advw_eq_next
  | skip => exact exec_skip_eq_next
  | ext1 f0 => exact exec_ext1_eq_next ho
  | ext2 f0 f1 => exact exec_ext2_eq_next ho
  | ext3 f0 f1 f2 => exact exec_ext3_eq_next ho
  | ext4 f0 f1 f2 f3 => exact exec_ext4_eq_next ho
  | bindw off => exact exec_bindw_eq_next
  | wr1 n => exact exec_wr1_eq_next
  | wskip => exact exec_wskip_eq_next

/-- Settles O36: the contract is the condition of the equation. -/
theorem commandsCompleteExactlyInContract : Obligations.CommandsCompleteExactlyInContract := by
  intro i s ho
  simp only [exec_eq_next ho, exists_and_left, exists_eq, and_true]

/-! ### What every command leaves alone -/

/-- The host's side of the state (30_encoding.md R70, R71). -/
theorem bodyAfter_hostSide (i : Instr) (s : State) :
    (bodyAfter i s).ports = s.ports ∧ (bodyAfter i s).inputs = s.inputs ∧
      (bodyAfter i s).rivals = s.rivals ∧ (bodyAfter i s).completions = s.completions := by
  cases i with
  | sbr _ _ | wr1 _ => simp [bodyAfter, afterWriterAdvance]
  | ext1 _ | ext2 _ _ | ext3 _ _ _ | ext4 _ _ _ _ => simp [bodyAfter, afterExtracts_frame]
  | shw _ | xbr _ _ | xbrm _ _ | sxt _ | bindr _ | curr | next | advw | skip | bindw _ | wskip =>
    exact ⟨rfl, rfl, rfl, rfl⟩

/-- Settles O41: a command's next state is one completion of the state that `bodyAfter` names, which has the host's side of
the state before. -/
theorem everyCommandCompletesOnce : Obligations.EveryCommandCompletesOnce := by
  intro i s t h
  obtain ⟨vs, rfl⟩ := exec_next_state h
  obtain ⟨hports, hinputs, hrivals, hcompletions⟩ := bodyAfter_hostSide i s
  exact ⟨bodyAfter_params i s, hports, hinputs, hrivals, congrArg (· + 1) hcompletions⟩

/-- Settles O39: the registers of a command's next state are those of `bodyAfter`. -/
theorem registersAreWrittenOnlyByTheirCommands : Obligations.RegistersAreWrittenOnlyByTheirCommands := by
  intro i s t h
  obtain ⟨vs, rfl⟩ := exec_next_state h
  refine ⟨fun hr => bodyAfter_rc_of_not_writesReader s hr, ?_, fun hw => bodyAfter_wc_of_not_usesWriter s hw⟩
  rintro rfl
  exact advancedReader_ofs s s.ports.p

/-- The memory of a command that does not store (20_memory.md R41). -/
theorem bodyAfter_mem_of_not_stores {i : Instr} (s : State) (h : storesToMemory i = false) :
    (bodyAfter i s).mem = s.mem := by
  cases i with
  | sbr _ _ | wr1 _ => cases h
  | ext1 _ | ext2 _ _ | ext3 _ _ _ | ext4 _ _ _ _ => simp [bodyAfter, afterExtracts_frame]
  | shw _ | xbr _ _ | xbrm _ _ | sxt _ | bindr _ | curr | next | advw | skip | bindw _ | wskip => rfl

/-! ### Single commands -/

/-- Settles O10: bit by bit, both shifts bring bit `j + n` of `{high : low}` to bit `j`. -/
theorem emulatedShiftEqualsTheWindow : Obligations.EmulatedShiftEqualsTheWindow := by
  intro w low high n hlow hn
  apply Nat.eq_of_testBit_eq
  intro j
  by_cases hj : j < w
  · rw [shiftWindow_testBit hlow hj, shiftWindowEmulated, Nat.testBit_mod_two_pow, Nat.testBit_or,
      Nat.testBit_shiftRight, Nat.testBit_mod_two_pow, Nat.testBit_shiftLeft, decide_eq_true hj,
      Nat.add_comm n j]
    by_cases hlo : j + n < w
    · have hnot : ¬j ≥ w - n := by omega
      simp [hlo, hnot]
    · have hge : j ≥ w - n := by omega
      rw [if_neg hlo, testBit_above hlow (Nat.le_of_not_lt hlo), show j - (w - n) = j + n - w by omega]
      simp [hge]
  · have hj : w ≤ j := Nat.le_of_not_lt hj
    rw [shiftWindowEmulated, shiftWindow, testBit_above (Nat.mod_lt _ (Nat.two_pow_pos w)) hj,
      testBit_above (Nat.mod_lt _ (Nat.two_pow_pos w)) hj]

/-- Settles O14: a set of width 0 is the state itself, and an advance by 0 leaves a cursor whose offset is below `W`. -/
theorem zeroWidthWritesTouchNothing : Obligations.ZeroWidthWritesTouchNothing := by
  refine ⟨fun off s => ⟨_, exec_sbr_eq_next.mpr ⟨rfl, rfl⟩, keepsAllButResults_respond _ s⟩,
    fun s hb hidx ho => ?_⟩
  have hdelta : (s.wc.ofs + 0) / s.params.W = 0 := Nat.div_eq_of_lt ho
  have hc : inContract (.wr1 0) s = true :=
    inContract_wr1_iff.mpr ⟨hb, rfl, by rwa [hdelta]⟩
  have hstays : afterWriterAdvance 0 s = s := by
    rw [afterWriterAdvance, hdelta, Nat.add_zero, Nat.add_zero, Nat.mod_eq_of_lt ho]
  refine ⟨_, exec_wr1_eq_next.mpr ⟨hc, rfl⟩, ?_⟩
  rw [show afterSet s.wc.idx s.ports.a s.wc.ofs 0 s = s from rfl, hstays]
  exact keepsAllButResults_respond _ s

/-- Settles O16: the contracts and the values of the three commands name the parameters and the operand ports only. -/
theorem pureCommandsReadNoRegisterAndNoMemory : Obligations.PureCommandsReadNoRegisterAndNoMemory := by
  intro i s s' t hi hparams hports h
  rcases hi with ⟨n, rfl⟩ | ⟨n, off, rfl⟩ | ⟨f, rfl⟩
  · obtain ⟨hc, rfl⟩ := exec_shw_eq_next.mp h
    have hc' : inContract (.shw n) s' = true := by rwa [inContract, hparams]
    exact ⟨_, exec_shw_eq_next.mpr ⟨hc', rfl⟩, by simp [hparams, hports]⟩
  · obtain ⟨hc, rfl⟩ := exec_xbr_eq_next.mp h
    have hc' : inContract (.xbr n off) s' = true := by rwa [inContract, hparams]
    exact ⟨_, exec_xbr_eq_next.mpr ⟨hc', rfl⟩, by simp [hparams, hports]⟩
  · obtain ⟨hc, rfl⟩ := exec_sxt_eq_next.mp h
    have hc' : inContract (.sxt f) s' = true := by rwa [inContract, hparams, hports]
    exact ⟨_, exec_sxt_eq_next.mpr ⟨hc', rfl⟩, by simp [hparams, hports]⟩

/-! ### Fused extracts in order (R155 to R157) -/

/-- What a fused extract leaves beside its results: the cursor behind the last field, everything else as before. -/
theorem fusedExtract_frame {s : State} (vs : List Word) (fs : List Field) (ho : s.rc.ofs < s.params.W)
    (hb : s.rc.bound = true) :
    readerPos (respond vs (afterExtracts fs s)) = readerPos s + totalBits fs ∧
      (respond vs (afterExtracts fs s)).rc.ofs < s.params.W ∧
      (respond vs (afterExtracts fs s)).rc.bound = true ∧ (respond vs (afterExtracts fs s)).wc = s.wc ∧
      (respond vs (afterExtracts fs s)).mem = s.mem ∧ KeepsHostSide s (respond vs (afterExtracts fs s)) := by
  obtain ⟨hparams, hwc, hports, hmem, hinputs, hrivals, hcompletions, hbound⟩ := afterExtracts_frame fs s
  have hofs := afterExtracts_ofs_lt fs ho
  rw [hparams] at hofs
  exact ⟨readerPos_afterExtracts fs s, hofs, hbound.trans hb, hwc, hmem, hparams, hports, hinputs, hrivals,
    congrArg (· + 1) hcompletions⟩

/-- Settles O22: the values are the reader's fields one behind the other, and the frame is that of any run of extracts. -/
theorem fusedExtractsReturnTheirFieldsInOrder : Obligations.FusedExtractsReturnTheirFieldsInOrder := by
  intro f0 f1 f2 f3 s ho
  refine ⟨fun hc => ?_, fun hc => ?_, fun hc => ?_⟩
  · obtain ⟨hpos, hframe⟩ := fusedExtract_frame (readerResults s (readerPos s) [f0, f1]) [f0, f1] ho
      (Bool.and_eq_true_iff.mp hc).1
    refine ⟨_, (exec_ext2_eq_next ho).mpr ⟨hc, rfl⟩, rfl, rfl, hpos.trans ?_, hframe⟩
    simp [totalBits, Nat.add_assoc]
  · obtain ⟨hpos, hframe⟩ := fusedExtract_frame (readerResults s (readerPos s) [f0, f1, f2]) [f0, f1, f2] ho
      (Bool.and_eq_true_iff.mp hc).1
    refine ⟨_, (exec_ext3_eq_next ho).mpr ⟨hc, rfl⟩, rfl, rfl, rfl, hpos.trans ?_, hframe⟩
    simp [totalBits, Nat.add_assoc]
  · obtain ⟨hpos, hframe⟩ := fusedExtract_frame (readerResults s (readerPos s) [f0, f1, f2, f3]) [f0, f1, f2, f3]
      ho (Bool.and_eq_true_iff.mp hc).1
    refine ⟨_, (exec_ext4_eq_next ho).mpr ⟨hc, rfl⟩, rfl, rfl, rfl, rfl, hpos.trans ?_, hframe⟩
    simp [totalBits, Nat.add_assoc]

end Sys2Proof.Machine
end

section
/-! SUPPORT. The step: what it does with each event of the host, and the invariants that every step keeps (10_state.md R21,
R22; 20_memory.md R40). -/

namespace Sys2Proof.Machine

open Sys2Proof

/-! ### The host's events -/

/-- The state after a store of the host inside the index space (20_memory.md R56). -/
def afterHostStore (j v : Nat) (s : State) : State :=
  { s with mem := s.mem.storeWord s.params j (v % 2 ^ s.params.W) }

theorem hostStore_eq_next {j v : Nat} {s t : State} :
    hostStore j v s = .next t ↔ j < s.params.indexCount ∧ t = afterHostStore j v s := by
  unfold hostStore afterHostStore
  split_ifs with h <;> simp [h, eq_comm]

/-- Everything a step that answers a next state can have done. -/
theorem step_cases {s t : State} (h : step s = .next t) :
    (s.inputs = [] ∧ t = s) ∨
      (∃ c rest i, s.inputs = .command c :: rest ∧ decode c.cmd = .ok i ∧
        exec i (acceptCommand c rest s) = .next t) ∨
      (∃ j v rest, s.inputs = .store j v :: rest ∧ hostStore j v { s with inputs := rest } = .next t) ∨
      ∃ rest, s.inputs = .reset :: rest ∧ t = resetBlock { s with inputs := rest } := by
  unfold step at h
  split at h
  next hin => exact .inl ⟨hin, by cases h; rfl⟩
  next c rest hin =>
    split at h
    next i hi => exact .inr (.inl ⟨c, rest, i, hin, hi, h⟩)
    next => cases h
  next j v rest hin => exact .inr (.inr (.inl ⟨j, v, rest, hin, h⟩))
  next rest hin => exact .inr (.inr (.inr ⟨rest, hin, by cases h; rfl⟩))

theorem step_command {s : State} {c : Command} {rest : List HostEvent} {i : Instr}
    (hs : s.inputs = .command c :: rest) (hi : decode c.cmd = .ok i) :
    step s = exec i (acceptCommand c rest s) := by
  rw [step, hs]
  simp only [hi]

/-- Settles O6: the step is `exec` on the accepted command. -/
theorem stepRunsTheDecodedCommand : Obligations.StepRunsTheDecodedCommand :=
  fun _ _ _ _ hs hi => step_command hs hi

/-- Settles O7: one word of the backing store is written, and a word written is read back. -/
theorem hostStoreSetsOneWord : Obligations.HostStoreSetsOneWord := by
  intro s j v rest hs hj
  have hstep : step s = .next (afterHostStore j v { s with inputs := rest }) := by
    rw [step, hs]
    exact hostStore_eq_next.mpr ⟨hj, rfl⟩
  have hword : ∀ k, wordAt (afterHostStore j v { s with inputs := rest }) k =
      if k = j then some (v % 2 ^ s.params.W % 2 ^ s.params.W) else wordAt s k := fun k =>
    Memory.loadWord_storeWord _ _ _ _ _
  refine ⟨_, hstep, ?_, fun k hk => ?_, rfl, rfl, rfl, rfl, rfl, rfl, rfl, rfl, rfl⟩
  · rw [hword, if_pos rfl, Nat.mod_mod]
  · rw [hword, if_neg hk]

/-- Settles O8: the state after a reset is explicit. -/
theorem resetUnbindsAndLeavesMemory : Obligations.ResetUnbindsAndLeavesMemory := by
  intro s rest hs
  exact ⟨resetBlock { s with inputs := rest }, by rw [step, hs], rfl, rfl, rfl, rfl, rfl⟩

/-- Settles O50: no command, no store of the host and no reset writes the parameters. -/
theorem stepKeepsTheParameters : Obligations.StepKeepsTheParameters := by
  intro s t h
  rcases step_cases h with ⟨-, rfl⟩ | ⟨c, rest, i, -, -, hexec⟩ | ⟨j, v, rest, -, hstore⟩ | ⟨rest, -, rfl⟩
  · rfl
  · obtain ⟨vs, rfl⟩ := exec_next_state hexec
    exact bodyAfter_params i _
  · obtain ⟨-, rfl⟩ := hostStore_eq_next.mp hstore
    rfl
  · rfl

/-! ### Registers in range (10_state.md R21, R22) -/

/-- The reader's registers hold values of their widths. -/
def ReaderInRange (p : Params) (c : ReaderCtx) : Prop :=
  c.idx < p.indexCount ∧ c.ofs < p.W ∧ c.c0 < 2 ^ p.W ∧ c.c1 < 2 ^ p.W

/-- The writer's registers hold values of their widths. -/
def WriterInRange (p : Params) (c : WriterCtx) : Prop := c.idx < p.indexCount ∧ c.ofs < p.W

/-- The operand ports hold values of their widths (30_encoding.md R70). -/
def PortsInRange (p : Params) (x : Ports) : Prop := x.a < 2 ^ p.W ∧ x.b < 2 ^ p.W ∧ x.p < 2 ^ p.PW

/-- The result ports hold values of their widths (30_encoding.md R71). -/
def ResultsInRange (p : Params) (r : Results) : Prop :=
  r.r0 < 2 ^ p.W ∧ r.r1 < 2 ^ p.W ∧ r.r2 < 2 ^ p.W ∧ r.r3 < 2 ^ p.W

theorem ReaderInRange.ofs_lt {p : Params} {c : ReaderCtx} (h : ReaderInRange p c) : c.ofs < p.W := by
  obtain ⟨-, hofs, -⟩ := h
  exact hofs

theorem registersInRange_iff {s : State} :
    registersInRange s = true ↔
      s.params.wf = true ∧ ReaderInRange s.params s.rc ∧ WriterInRange s.params s.wc ∧
        PortsInRange s.params s.ports ∧ ResultsInRange s.params s.results := by
  simp only [registersInRange, Bool.and_eq_true, decide_eq_true_eq, ReaderInRange, WriterInRange, PortsInRange,
    ResultsInRange, and_assoc]

theorem getD_wordAt_lt (s : State) (i : Nat) : (wordAt s i).getD 0 < 2 ^ s.params.W := by
  cases h : wordAt s i with
  | none => exact Nat.two_pow_pos _
  | some v => exact Memory.loadWord_lt h

theorem getD_readerWord_lt {s : State} (h : ReaderInRange s.params s.rc) (i : Nat) :
    (readerWord s i).getD 0 < 2 ^ s.params.W := by
  obtain ⟨-, -, hc0, hc1⟩ := h
  unfold readerWord
  cases s.params.strategy with
  | direct => exact getD_wordAt_lt s i
  | cached =>
    dsimp only
    split_ifs
    · exact hc0
    · exact hc1
    · exact getD_wordAt_lt s i

theorem mod_two_pow_lt {n w : Nat} (x : Nat) (h : n ≤ w) : x % 2 ^ n < 2 ^ w :=
  (Nat.mod_lt _ (Nat.two_pow_pos n)).trans_le (Nat.pow_le_pow_right (by norm_num) h)

/-- The first width of a run of extracts in its contract fits its offset. -/
theorem fieldFits_of_extractInContract {s : State} {pos : Nat} {f : Field} {fs : List Field}
    (h : extractInContract s pos (f :: fs) = true) : fieldFits s.params.W (pos % s.params.W) f.bits = true := by
  simp only [extractInContract, Bool.and_eq_true] at h
  obtain ⟨⟨hfits, -⟩, -⟩ := h
  exact hfits

theorem readerResults_lt {s : State} {pos : Nat} {fs : List Field} (h : extractInContract s pos fs = true) :
    ∀ v ∈ readerResults s pos fs, v < 2 ^ s.params.W := by
  induction fs generalizing pos with
  | nil => nofun
  | cons f fs ih =>
    have hrest := (extractInContract_cons.mp h).2
    refine List.forall_mem_cons.mpr ⟨?_, ih hrest⟩
    exact fixup_lt (Nat.mod_lt _ (Nat.two_pow_pos _)) (fieldFits_le (fieldFits_of_extractInContract h))

/-- Every driven value has the width of its port. -/
theorem drivenValues_lt {i : Instr} {s : State} (hr : ReaderInRange s.params s.rc) (hc : inContract i s = true) :
    ∀ v ∈ drivenValues i s, v < 2 ^ s.params.W := by
  cases i with
  | shw n => exact List.forall_mem_singleton.mpr (Nat.mod_lt _ (Nat.two_pow_pos _))
  | xbr n off =>
    simp only [inContract, Bool.or_eq_true, Bool.and_eq_true, decide_eq_true_eq] at hc
    refine List.forall_mem_singleton.mpr (mod_two_pow_lt _ ?_)
    rcases hc with rfl | ⟨-, hfits⟩
    · exact Nat.zero_le _
    · exact fieldFits_le hfits
  | xbrm n off =>
    obtain ⟨-, hfield, -⟩ := inContract_xbrm_iff.mp hc
    refine List.forall_mem_singleton.mpr (mod_two_pow_lt _ ?_)
    rcases hfield with rfl | ⟨-, hfits⟩
    · exact Nat.zero_le _
    · exact fieldFits_le hfits
  | sxt f =>
    simp only [inContract, Bool.and_eq_true, decide_eq_true_eq] at hc
    exact List.forall_mem_singleton.mpr (fixup_lt hc.2 hc.1)
  | curr | next => exact List.forall_mem_singleton.mpr (getD_readerWord_lt hr _)
  | ext1 _ | ext2 _ _ | ext3 _ _ _ | ext4 _ _ _ _ => exact readerResults_lt (Bool.and_eq_true_iff.mp hc).2
  | sbr _ _ | bindr _ | advw | skip | bindw _ | wr1 _ | wskip => nofun

theorem readerInRange_advancedReader {s : State} {k : Nat} (hr : ReaderInRange s.params s.rc)
    (hc : advanceInContract s k = true) : ReaderInRange s.params (advancedReader s k) := by
  have hidx : s.rc.idx + k < s.params.indexCount := of_decide_eq_true (Bool.and_eq_true_iff.mp hc).1
  obtain ⟨hidx0, hofs, hc0, hc1⟩ := hr
  unfold advancedReader
  cases s.params.strategy with
  | direct => exact ⟨hidx, hofs, hc0, hc1⟩
  | cached =>
    dsimp only
    split_ifs
    · exact ⟨hidx0, hofs, hc0, hc1⟩
    · exact ⟨hidx, hofs, hc1, getD_wordAt_lt s _⟩
    · exact ⟨hidx, hofs, getD_wordAt_lt s _, getD_wordAt_lt s _⟩

theorem readerInRange_afterCursorAdvance {s : State} {n : Nat} (hr : ReaderInRange s.params s.rc)
    (hc : advanceInContract s ((s.rc.ofs + n) / s.params.W) = true) :
    ReaderInRange s.params (afterCursorAdvance n s).rc := by
  obtain ⟨hidx, -, hc0, hc1⟩ := readerInRange_advancedReader hr hc
  exact ⟨hidx, Nat.mod_lt _ s.params.W_pos, hc0, hc1⟩

theorem readerInRange_afterExtracts {fs : List Field} {s : State} (hr : ReaderInRange s.params s.rc)
    (hc : extractInContract s (readerPos s) fs = true) : ReaderInRange s.params (afterExtracts fs s).rc := by
  induction fs generalizing s with
  | nil => exact hr
  | cons f fs ih =>
    obtain ⟨hfirst, hrest⟩ := extractInContract_cons_afterExtract.mp hc
    obtain ⟨-, -, -, hadvance⟩ := (extractInContract_one hr.ofs_lt).mp hfirst
    have hone : ReaderInRange s.params (afterExtract f.bits s).rc :=
      readerInRange_afterCursorAdvance (s := afterLoads (extractViewLoads s) s) hr hadvance
    exact ih hone hrest

theorem readerInRange_boundReader {s : State} {p off : Nat} (hr : ReaderInRange s.params s.rc)
    (hp : p < s.params.indexCount) (ho : off < s.params.W) : ReaderInRange s.params (boundReader s p off) := by
  obtain ⟨-, -, hc0, hc1⟩ := hr
  unfold boundReader
  cases s.params.strategy with
  | direct => exact ⟨hp, ho, hc0, hc1⟩
  | cached => exact ⟨hp, ho, getD_wordAt_lt s _, getD_wordAt_lt s _⟩

theorem readerInRange_bodyAfter {i : Instr} {s : State} (hr : ReaderInRange s.params s.rc)
    (hc : inContract i s = true) : ReaderInRange s.params (bodyAfter i s).rc := by
  cases i with
  | bindr off =>
    obtain ⟨hp, ho, -⟩ := inContract_bindr_iff.mp hc
    exact readerInRange_boundReader hr hp ho
  | advw => exact readerInRange_advancedReader hr (Bool.and_eq_true_iff.mp hc).2
  | skip => exact readerInRange_afterCursorAdvance hr (Bool.and_eq_true_iff.mp hc).2
  | ext1 _ | ext2 _ _ | ext3 _ _ _ | ext4 _ _ _ _ =>
    exact readerInRange_afterExtracts hr (Bool.and_eq_true_iff.mp hc).2
  | shw _ | xbr _ _ | xbrm _ _ | sbr _ _ | sxt _ | curr | next | bindw _ | wr1 _ | wskip =>
    rwa [bodyAfter_rc_of_not_writesReader s rfl]

theorem writerInRange_bodyAfter {i : Instr} {s : State} (hw : WriterInRange s.params s.wc)
    (hc : inContract i s = true) : WriterInRange s.params (bodyAfter i s).wc := by
  cases i with
  | bindw off =>
    simp only [inContract, Bool.and_eq_true, decide_eq_true_eq] at hc
    exact hc
  | wr1 n =>
    obtain ⟨-, -, hidx⟩ := inContract_wr1_iff.mp hc
    simp only [bodyAfter, afterWriterAdvance, afterSet_wc, afterSet_params]
    exact ⟨hidx, Nat.mod_lt _ s.params.W_pos⟩
  | wskip => exact ⟨of_decide_eq_true (Bool.and_eq_true_iff.mp hc).2, Nat.mod_lt _ s.params.W_pos⟩
  | shw _ | xbr _ _ | xbrm _ _ | sbr _ _ | sxt _ | bindr _ | curr | next | advw | skip | ext1 _
  | ext2 _ _ | ext3 _ _ _ | ext4 _ _ _ _ => rwa [bodyAfter_wc_of_not_usesWriter s rfl]

theorem resultsInRange_respond {vs : List Word} {s : State} (h : ∀ v ∈ vs, v < 2 ^ s.params.W) :
    ResultsInRange s.params (respond vs s).results :=
  ⟨portAfter_lt _ _ _ _ h, portAfter_lt _ _ _ _ h, portAfter_lt _ _ _ _ h, portAfter_lt _ _ _ _ h⟩

/-- Every command keeps every register and port in its width. -/
theorem exec_keeps_registersInRange {i : Instr} {s t : State} (hs : registersInRange s = true)
    (h : exec i s = .next t) : registersInRange t = true := by
  obtain ⟨hwf, hr, hw, hports, -⟩ := registersInRange_iff.mp hs
  obtain ⟨hc, rfl⟩ := (exec_eq_next hr.ofs_lt).mp h
  have hparams := bodyAfter_params i s
  have hvalues := drivenValues_lt hr hc
  rw [← hparams] at hvalues
  have hresults := resultsInRange_respond hvalues
  rw [hparams] at hresults
  rw [registersInRange_iff, respond_params, respond_rc, respond_wc, respond_ports, hparams,
    (bodyAfter_hostSide i s).1]
  exact ⟨hwf, readerInRange_bodyAfter hr hc, writerInRange_bodyAfter hw hc, hports, hresults⟩

/-- The operands of an accepted command have the widths of their ports (30_encoding.md R70). -/
theorem acceptCommand_keeps_registersInRange {s : State} (c : Command) (rest : List HostEvent)
    (hs : registersInRange s = true) : registersInRange (acceptCommand c rest s) = true := by
  obtain ⟨hwf, hr, hw, -, hresults⟩ := registersInRange_iff.mp hs
  exact registersInRange_iff.mpr ⟨hwf, hr, hw,
    ⟨Nat.mod_lt _ (Nat.two_pow_pos _), Nat.mod_lt _ (Nat.two_pow_pos _), Nat.mod_lt _ (Nat.two_pow_pos _)⟩, hresults⟩

/-- The values that the registers and ports hold after a reset fit every width (log 3, log 4). -/
theorem registersInRange_of_reset {s : State} (hwf : s.params.wf = true) (hr : s.rc = .reset) (hw : s.wc = .reset)
    (hp : s.ports = .reset) (hres : s.results = .reset) : registersInRange s = true := by
  have hidx : 0 < s.params.indexCount := Nat.two_pow_pos _
  have hword : 0 < 2 ^ s.params.W := Nat.two_pow_pos _
  rw [registersInRange_iff, hr, hw, hp, hres]
  exact ⟨hwf, ⟨hidx, s.params.W_pos, hword, hword⟩, ⟨hidx, s.params.W_pos⟩, ⟨hword, hword, Nat.two_pow_pos _⟩,
    hword, hword, hword, hword⟩

/-- Settles O51: each event of the host keeps the widths, a command by what it drives and by its cursors' checks. -/
theorem stepKeepsRegistersInRange : Obligations.StepKeepsRegistersInRange := by
  intro s t hs h
  rcases step_cases h with ⟨-, rfl⟩ | ⟨c, rest, i, -, -, hexec⟩ | ⟨j, v, rest, -, hstore⟩ | ⟨rest, -, rfl⟩
  · exact hs
  · exact exec_keeps_registersInRange (acceptCommand_keeps_registersInRange c rest hs) hexec
  · obtain ⟨-, rfl⟩ := hostStore_eq_next.mp hstore
    exact hs
  · exact registersInRange_of_reset (registersInRange_iff.mp hs).1 rfl rfl rfl rfl

/-! ### The memory's form (20_memory.md R40) -/

/-- `memoryLegal`, of the parameters and the memory alone. -/
def MemoryInSpace (p : Params) (m : Memory) : Prop :=
  m.wf ∧ ∀ c ∈ m, c.1 < byteAddress p p.indexCount

theorem memoryLegal_iff {s : State} : memoryLegal s = true ↔ MemoryInSpace s.params s.mem := by
  simp only [memoryLegal, Bool.and_eq_true, decide_eq_true_eq, List.all_eq_true, MemoryInSpace]

theorem memoryInSpace_storeWord {p : Params} {m : Memory} {i : Nat} (v : Nat) (h : MemoryInSpace p m)
    (hi : i < p.indexCount) : MemoryInSpace p (m.storeWord p i v) := by
  obtain ⟨hwf, hcells⟩ := h
  refine ⟨Memory.wf_storeWord hwf p i v, fun c hc => ?_⟩
  rcases Memory.mem_storeWord hc with hlt | hc
  · exact hlt.trans_le (Nat.mul_le_mul_right _ hi)
  · exact hcells c hc

theorem index_of_writable {s : State} {i : Nat} (h : writable s i = true) : i < s.params.indexCount :=
  index_of_readable (readable_of_writable h)

theorem memoryInSpace_afterSet {s : State} {p val off n : Nat} (h : MemoryInSpace s.params s.mem)
    (hc : writeInContract s p val off n = true) : MemoryInSpace s.params (afterSet p val off n s).mem := by
  rcases Nat.eq_zero_or_pos n with rfl | hn
  · exact h
  obtain ⟨-, -, -, hp, hp1⟩ := (writeInContract_iff hn).mp hc
  rw [afterSet, if_neg hn.ne']
  split_ifs with hf
  · exact memoryInSpace_storeWord _ h (index_of_writable hp)
  · exact memoryInSpace_storeWord _ (memoryInSpace_storeWord _ h (index_of_writable hp))
      (index_of_writable (hp1 (Nat.lt_of_not_le hf)))

theorem exec_keeps_memoryLegal {i : Instr} {s t : State} (hs : memoryLegal s = true)
    (h : exec i s = .next t) : memoryLegal t = true := by
  rw [memoryLegal_iff] at hs ⊢
  cases i with
  | sbr n off =>
    obtain ⟨hc, rfl⟩ := exec_sbr_eq_next.mp h
    rw [respond_params, respond_mem, afterSet_params]
    exact memoryInSpace_afterSet hs hc
  | wr1 n =>
    obtain ⟨hc, rfl⟩ := exec_wr1_eq_next.mp h
    obtain ⟨-, hwrite, -⟩ := inContract_wr1_iff.mp hc
    have hset := memoryInSpace_afterSet hs hwrite
    simpa [afterWriterAdvance] using hset
  | shw _ | xbr _ _ | xbrm _ _ | sxt _ | bindr _ | curr | next | advw | skip | ext1 _ | ext2 _ _ | ext3 _ _ _
  | ext4 _ _ _ _ | bindw _ | wskip =>
    obtain ⟨vs, rfl⟩ := exec_next_state h
    rwa [respond_params, respond_mem, bodyAfter_params, bodyAfter_mem_of_not_stores s rfl]

/-- Settles O52: every store, of a command or of the host, is checked against the index space and keeps the form. -/
theorem stepKeepsTheMemoryLegal : Obligations.StepKeepsTheMemoryLegal := by
  intro s t hs h
  rcases step_cases h with ⟨-, rfl⟩ | ⟨c, rest, i, -, -, hexec⟩ | ⟨j, v, rest, -, hstore⟩ | ⟨rest, -, rfl⟩
  · exact hs
  · exact exec_keeps_memoryLegal (s := acceptCommand c rest s) hs hexec
  · obtain ⟨hj, rfl⟩ := hostStore_eq_next.mp hstore
    exact memoryLegal_iff.mpr (memoryInSpace_storeWord _ (memoryLegal_iff.mp hs) hj)
  · exact hs

/-- Settles O53: the reset values fit every width, and reset memory lists nothing. -/
theorem resetMeetsTheInvariants : Obligations.ResetMeetsTheInvariants := by
  intro p hp
  exact ⟨registersInRange_of_reset hp rfl rfl rfl rfl, memoryLegal_iff.mpr ⟨reset_mem_wf p, nofun⟩⟩

end Sys2Proof.Machine
end

section
/-! SUPPORT. The reader against the memory: coherent cached words (10_state.md R24), the two strategies side by side
(41_buffer_strategy.md R139), extracted bits as stream bits (20_memory.md R42), and runs of extracts (42_cursor_extractor.md
R159, 30_encoding.md R83). -/

namespace Sys2Proof.Machine

open Sys2Proof

/-! ### Coherent cached words (10_state.md R24) -/

theorem cacheCoherent_iff {s : State} :
    cacheCoherent s = true ↔
      (s.params.strategy = .cached →
        wordAt s s.rc.idx = some s.rc.c0 ∧ wordAt s (s.rc.idx + 1) = some s.rc.c1) := by
  unfold cacheCoherent
  cases s.params.strategy <;> simp

/-- An advance inside its contract takes its words from the memory or from `C1`, which is the memory's too. -/
theorem cacheCoherent_afterAdvance {s : State} {k : Nat} (hcoh : cacheCoherent s = true)
    (hc : advanceInContract s k = true) : cacheCoherent (afterAdvance k s) = true := by
  rw [cacheCoherent_iff] at hcoh ⊢
  intro hs
  obtain ⟨h0, h1⟩ := hcoh hs
  obtain ⟨-, hidx, -, hzero, hone, hmore⟩ := advancedBy_afterAdvance hc
  have hword : ∀ i, wordAt (afterAdvance k s) i = wordAt s i := fun _ => rfl
  rw [hword, hword, hidx]
  rcases Nat.lt_trichotomy k 1 with hk | hk | hk
  · obtain rfl : k = 0 := by omega
    obtain ⟨hc0, hc1, -⟩ := hzero hs rfl
    rw [hc0, hc1]
    exact ⟨h0, h1⟩
  · obtain ⟨hc0, hc1, -⟩ := hone hs hk
    subst hk
    rw [hc0]
    exact ⟨h1, hc1⟩
  · obtain ⟨hc0, hc1, -⟩ := hmore hs hk
    exact ⟨hc0, hc1⟩

theorem cacheCoherent_afterCursorAdvance {s : State} {n : Nat} (hcoh : cacheCoherent s = true)
    (hc : advanceInContract s ((s.rc.ofs + n) / s.params.W) = true) :
    cacheCoherent (afterCursorAdvance n s) = true :=
  cacheCoherent_afterAdvance hcoh hc

theorem cacheCoherent_afterExtracts {fs : List Field} {s : State} (ho : s.rc.ofs < s.params.W)
    (hcoh : cacheCoherent s = true) (hc : extractInContract s (readerPos s) fs = true) :
    cacheCoherent (afterExtracts fs s) = true := by
  induction fs generalizing s with
  | nil => exact hcoh
  | cons f fs ih =>
    obtain ⟨hfirst, hrest⟩ := extractInContract_cons_afterExtract.mp hc
    obtain ⟨-, -, -, hadvance⟩ := (extractInContract_one ho).mp hfirst
    have hone : cacheCoherent (afterExtract f.bits s) = true :=
      cacheCoherent_afterCursorAdvance (s := afterLoads (extractViewLoads s) s) hcoh hadvance
    exact ih (afterExtract_ofs_lt f.bits s) hone hrest

/-- A command that writes the reader inside its contract keeps its words coherent, or binds them coherent. -/
theorem cacheCoherent_bodyAfter {i : Instr} {s : State} (ho : s.rc.ofs < s.params.W)
    (hw : writesReader i = true) (hcoh : cacheCoherent s = true) (hc : inContract i s = true) :
    cacheCoherent (bodyAfter i s) = true := by
  cases i with
  | bindr off =>
    obtain ⟨-, -, hready⟩ := inContract_bindr_iff.mp hc
    exact cacheCoherent_afterBind off hready
  | advw => exact cacheCoherent_afterAdvance hcoh (Bool.and_eq_true_iff.mp hc).2
  | skip => exact cacheCoherent_afterCursorAdvance hcoh (Bool.and_eq_true_iff.mp hc).2
  | ext1 _ | ext2 _ _ | ext3 _ _ _ | ext4 _ _ _ _ =>
    exact cacheCoherent_afterExtracts ho hcoh (Bool.and_eq_true_iff.mp hc).2
  | shw _ | xbr _ _ | xbrm _ _ | sbr _ _ | sxt _ | curr | next | bindw _ | wr1 _ | wskip => cases hw

/-- Settles O46: a command that writes the reader loads its words anew, and any other leaves `C0` and `C1` as they are. -/
theorem cachedWordsStayCoherent : Obligations.CachedWordsStayCoherent := by
  intro i s t ho h
  refine ⟨?_, fun hcoh h0 h1 => ?_⟩
  · rintro ⟨off, rfl⟩
    obtain ⟨-, -, hcoh, -⟩ := bindr_completion h
    exact hcoh
  · obtain ⟨hc, rfl⟩ := (exec_eq_next ho).mp h
    cases hw : writesReader i with
    | true => exact cacheCoherent_bodyAfter ho hw hcoh hc
    | false =>
      rw [cacheCoherent_iff] at hcoh ⊢
      rw [respond_params, bodyAfter_params, respond_rc, bodyAfter_rc_of_not_writesReader s hw, h0, h1]
      exact hcoh

/-- A store leaves a bound CACHED reader with the words it had loaded: CURR and NEXT return them, whatever the memory holds. -/
theorem curr_next_of_cached {s t : State} (hs : s.params.strategy = .cached) (hb : s.rc.bound = true)
    (hparams : t.params = s.params) (hrc : t.rc = s.rc) :
    (∃ u, exec .curr t = .next u ∧ u.results.r0 = s.rc.c0) ∧
      ∃ u, exec .next t = .next u ∧ u.results.r0 = s.rc.c1 := by
  have ht : t.params.strategy = .cached := by rw [hparams, hs]
  have hready : ∀ i, viewReady t i = true := fun i => by rw [viewReady, ht]
  obtain ⟨hcurr, hnext⟩ := readerWord_cached ht
  refine ⟨⟨_, exec_curr_eq_next.mpr ⟨?_, rfl⟩, ?_⟩, _, exec_next_eq_next.mpr ⟨?_, rfl⟩, ?_⟩
  · rw [inContract, hready, hrc, hb, Bool.and_true]
  · rw [hcurr, hrc]
    rfl
  · rw [inContract, hready, hrc, hb, Bool.and_true]
  · rw [hnext, hrc]
    rfl

/-- Settles O47: neither store writes the reader context. -/
theorem storesDoNotReachTheCachedWords : Obligations.StoresDoNotReachTheCachedWords := by
  intro s t hs hb hstore
  have hcommand : ∀ i, writesReader i = false → exec i s = .next t → t.params = s.params ∧ t.rc = s.rc :=
    fun i hi h => by
      obtain ⟨vs, rfl⟩ := exec_next_state h
      exact ⟨bodyAfter_params i s, bodyAfter_rc_of_not_writesReader s hi⟩
  obtain ⟨hparams, hrc⟩ : t.params = s.params ∧ t.rc = s.rc := by
    rcases hstore with ⟨n, off, h⟩ | ⟨n, h⟩ | ⟨j, v, h⟩
    · exact hcommand _ rfl h
    · exact hcommand _ rfl h
    · obtain ⟨-, rfl⟩ := hostStore_eq_next.mp h
      exact ⟨rfl, rfl⟩
  exact curr_next_of_cached hs hb hparams hrc

/-! ### The two strategies side by side (41_buffer_strategy.md R139) -/

/-- Without a cache there is nothing to be incoherent. -/
theorem cacheCoherent_of_direct {s : State} (h : s.params.strategy = .direct) : cacheCoherent s = true := by
  rw [cacheCoherent, h]

theorem StrategyTwins.wordAt_eq {d c : State} (h : StrategyTwins d c) (i : Nat) : wordAt c i = wordAt d i := by
  obtain ⟨-, hparams, hmem, -⟩ := h
  rw [wordAt, wordAt, hparams, hmem]
  rfl

/-- Both twins see the memory: a Direct reader always, a Cached one through coherent words. -/
theorem StrategyTwins.readerWord_eq {d c : State} (h : StrategyTwins d c) (i : Nat) :
    readerWord c i = readerWord d i := by
  have hw := h.wordAt_eq i
  obtain ⟨hdirect, -, -, -, -, -, -, hcoh⟩ := h
  rw [readerWord_of_cacheCoherent hcoh, readerWord_of_cacheCoherent (cacheCoherent_of_direct hdirect), hw]

theorem StrategyTwins.W_eq {d c : State} (h : StrategyTwins d c) : c.params.W = d.params.W := by
  obtain ⟨-, hparams, -⟩ := h
  rw [hparams]
  rfl

theorem StrategyTwins.readerPos_eq {d c : State} (h : StrategyTwins d c) : readerPos c = readerPos d := by
  have hW := h.W_eq
  obtain ⟨-, -, -, -, hidx, hofs, -⟩ := h
  rw [readerPos, readerPos, hidx, hofs, hW]

theorem StrategyTwins.readerResults_eq {d c : State} (h : StrategyTwins d c) (pos : Nat) (fs : List Field) :
    readerResults c pos fs = readerResults d pos fs := by
  induction fs generalizing pos with
  | nil => rfl
  | cons f fs ih =>
    rw [readerResults, readerResults, ih, readerResult, readerResult, readerField, readerField, h.W_eq,
      h.readerWord_eq, h.readerWord_eq]

theorem StrategyTwins.drivenValues_eq {d c : State} (h : StrategyTwins d c) (i : Instr) :
    drivenValues i c = drivenValues i d := by
  have hW := h.W_eq
  have hpos := h.readerPos_eq
  have hword := h.wordAt_eq
  have hview := h.readerWord_eq
  have hresults := h.readerResults_eq
  obtain ⟨-, -, -, -, hidx, -, hports, -⟩ := h
  cases i with
  | shw _ | xbr _ _ | sxt _ => simp only [drivenValues, hW, hports]
  | xbrm _ _ => simp only [drivenValues, memoryField, hW, hports, hword]
  | curr | next => simp only [drivenValues, hidx, hview]
  | ext1 _ | ext2 _ _ | ext3 _ _ _ | ext4 _ _ _ _ => simp only [drivenValues, hpos, hresults]
  | sbr _ _ | bindr _ | advw | skip | bindw _ | wr1 _ | wskip => rfl

/-- After extracts the place of the cursor is that of its bit address. -/
theorem afterExtracts_cursor {fs : List Field} {s : State} (ho : s.rc.ofs < s.params.W) :
    (afterExtracts fs s).rc.idx = (readerPos s + totalBits fs) / s.params.W ∧
      (afterExtracts fs s).rc.ofs = (readerPos s + totalBits fs) % s.params.W := by
  have hofs := afterExtracts_ofs_lt fs ho
  have hparams := (afterExtracts_frame fs s).1
  rw [← readerPos_div hofs, ← readerPos_mod hofs, readerPos_afterExtracts, hparams]
  exact ⟨rfl, rfl⟩

/-- Every command leaves the two cursors at the same place: the advance does not look at the strategy. -/
theorem StrategyTwins.cursor_bodyAfter {d c : State} (h : StrategyTwins d c) (ho : d.rc.ofs < d.params.W)
    (i : Instr) :
    (bodyAfter i c).rc.bound = (bodyAfter i d).rc.bound ∧ (bodyAfter i c).rc.idx = (bodyAfter i d).rc.idx ∧
      (bodyAfter i c).rc.ofs = (bodyAfter i d).rc.ofs := by
  have hW := h.W_eq
  have hpos := h.readerPos_eq
  obtain ⟨-, -, -, hbound, hidx, hofs, hports, -⟩ := h
  have ho' : c.rc.ofs < c.params.W := by rwa [hofs, hW]
  cases i with
  | bindr off => exact ⟨rfl, congrArg Ports.p hports, rfl⟩
  | advw => simp [bodyAfter, afterAdvance, hbound, hidx, hofs, hports]
  | skip => simp [bodyAfter, hbound, hidx, hofs, hports, hW]
  | ext1 _ | ext2 _ _ | ext3 _ _ _ | ext4 _ _ _ _ =>
    simp [bodyAfter, afterExtracts_frame, afterExtracts_cursor ho, afterExtracts_cursor ho', hbound, hpos, hW]
  | shw _ | xbr _ _ | xbrm _ _ | sbr _ _ | sxt _ | curr | next | bindw _ | wr1 _ | wskip =>
    rw [bodyAfter_rc_of_not_writesReader c rfl, bodyAfter_rc_of_not_writesReader d rfl]
    exact ⟨hbound, hidx, hofs⟩

/-- Settles O28: twins drive the same values because both see the memory, and stay twins because the cursors move alike and
the cached words stay coherent. -/
theorem strategiesAreObservablyEquivalent : Obligations.StrategiesAreObservablyEquivalent := by
  intro i d c d' c' h ho hstores hd hc
  have ho' : c.rc.ofs < c.params.W := by
    have hW := h.W_eq
    obtain ⟨-, -, -, -, -, hofs, -⟩ := h
    rwa [hofs, hW]
  obtain ⟨-, rfl⟩ := (exec_eq_next ho).mp hd
  have hkeeps := (cachedWordsStayCoherent i c c' ho' hc).2
  obtain ⟨-, rfl⟩ := (exec_eq_next ho').mp hc
  have hvalues := h.drivenValues_eq i
  obtain ⟨hbound, hidx, hofs⟩ := h.cursor_bodyAfter ho i
  obtain ⟨hdirect, hparams, hmem, -, -, -, hports, hcoh⟩ := h
  have hword : ∀ k, wordAt (respond (drivenValues i c) (bodyAfter i c)) k = wordAt c k :=
    wordAt_congr (bodyAfter_params i c) (bodyAfter_mem_of_not_stores c hstores)
  refine ⟨?_, ?_, ?_, ?_, hbound, hidx, hofs, ?_, hkeeps hcoh (hword _) (hword _)⟩
  · rw [driven_respond (drivenValues_length i d), driven_respond (drivenValues_length i c), hvalues]
  · rwa [respond_params, bodyAfter_params]
  · rwa [respond_params, respond_params, bodyAfter_params, bodyAfter_params]
  · rwa [respond_mem, respond_mem, bodyAfter_mem_of_not_stores c hstores, bodyAfter_mem_of_not_stores d hstores]
  · rwa [respond_ports, respond_ports, (bodyAfter_hostSide i c).1, (bodyAfter_hostSide i d).1]

/-! ### Extracted bits are stream bits (20_memory.md R42) -/

/-- What a coherent reader sees at a bit address is the field of the memory there. -/
theorem readerField_eq_memoryField {s : State} (hcoh : cacheCoherent s = true) (pos n : Nat) :
    readerField s pos n = memoryField s (pos / s.params.W) (pos % s.params.W) n := by
  rw [readerField, readerWord_of_cacheCoherent hcoh, readerWord_of_cacheCoherent hcoh, memoryField]

theorem isSome_wordAt_of_viewReady {s : State} {i : Nat} (hcoh : cacheCoherent s = true)
    (h : viewReady s i = true) (hi : i = s.rc.idx ∨ i = s.rc.idx + 1) : (wordAt s i).isSome = true := by
  obtain ⟨v, hv⟩ := readerWord_of_viewReady h hi
  rw [← readerWord_of_cacheCoherent hcoh, hv, Option.isSome_some]

/-- Settles O23: the field a coherent reader sees is made of stream bits, and the fixup changes no bit of it. -/
theorem extractedBitsAreStreamBits : Obligations.ExtractedBitsAreStreamBits := by
  intro f s t ho hcoh h
  obtain ⟨hc, rfl⟩ := (exec_ext1_eq_next ho).mp h
  obtain ⟨hfits, hready0, hready1, -⟩ := (extractInContract_one ho).mp (Bool.and_eq_true_iff.mp hc).2
  have hn := fieldFits_le hfits
  have hlt : readerField s (readerPos s) f.bits < 2 ^ f.bits := Nat.mod_lt _ (Nat.two_pow_pos _)
  have hfield : readerField s (readerPos s) f.bits = memoryField s s.rc.idx s.rc.ofs f.bits := by
    rw [readerField_eq_memoryField hcoh, readerPos_div ho, readerPos_mod ho]
  rw [respond_r0, readerResults, portAfter_zero, readerResult]
  refine ⟨fun j hj => ?_, fun hsign => ?_, fun hzero => ?_, fun hsign hpos j hj hjw => ?_⟩
  · rw [fixup_testBit _ hlt hn, if_neg (by omega), hfield]
    exact streamBit_eq_memoryField_testBit ho hn (isSome_wordAt_of_viewReady hcoh hready0 (.inl rfl))
      (fun _ => isSome_wordAt_of_viewReady hcoh hready1 (.inr rfl)) hj
  · rw [hsign]
    exact hlt
  · rw [hzero, pow_zero, Nat.lt_one_iff] at hlt
    rw [hzero, hlt]
    cases f.sign <;> rfl
  · rw [fixup_testBit _ hlt hn, fixup_testBit _ hlt hn, if_pos ⟨hsign, hpos, hj, hjw⟩, if_neg (by omega)]

/-! ### The tag of a destination (42_cursor_extractor.md R162) -/

theorem extractField_eq_ok_iff {f : Field} {s t : State} {v : Word} :
    extractField f s = .ok (v, t) ↔
      ∃ x, cursorExtract f.bits s = .ok (x, t) ∧ v = fixup s.params.W x f.bits f.sign := by
  simp only [extractField, bind_eq_ok, Prod.exists, Except.ok.injEq, Prod.mk.injEq]
  constructor
  · rintro ⟨x, s1, hx, rfl, rfl⟩
    exact ⟨x, hx, rfl⟩
  · rintro ⟨x, hx, rfl⟩
    exact ⟨x, t, hx, rfl, rfl⟩

/-- Settles O27: the tag is looked at only after the cursor has moved, by the fixup, which keeps the low bits. -/
theorem signTagChangesOnlyUpperBits : Obligations.SignTagChangesOnlyUpperBits := by
  intro n a b s t h
  obtain ⟨hb, v, s1, hv, rfl⟩ := exec_ext1_eq_next_of_extractField.mp h
  obtain ⟨x, hx, rfl⟩ := extractField_eq_ok_iff.mp hv
  have hother : extractField ⟨n, b⟩ s = .ok (fixup s.params.W x n b, s1) :=
    extractField_eq_ok_iff.mpr ⟨x, hx, rfl⟩
  refine ⟨_, exec_ext1_eq_next_of_extractField.mpr ⟨hb, _, s1, hother, rfl⟩, ⟨rfl, rfl, rfl, rfl, rfl⟩,
    fun j hj => ?_⟩
  obtain ⟨hfits, -, -, -, -, hxval, -⟩ := cursorExtract_eq_ok.mp hx
  have hlt : x < 2 ^ n := hxval ▸ Nat.mod_lt _ (Nat.two_pow_pos n)
  have hn : n ≤ s.params.W := fieldFits_le hfits
  rw [respond_r0, respond_r0, portAfter_zero, portAfter_zero, fixup_testBit _ hlt hn, fixup_testBit _ hlt hn,
    if_neg (by omega), if_neg (by omega)]

/-! ### SKIP of whole words (41_buffer_strategy.md R141) -/

/-- An advance by `k * W` bits is an advance by `k` words. -/
theorem afterCursorAdvance_of_words {s : State} (k : Nat) (ho : s.rc.ofs < s.params.W) :
    (s.rc.ofs + k * s.params.W) / s.params.W = k ∧ afterCursorAdvance (k * s.params.W) s = afterAdvance k s := by
  have hdelta : (s.rc.ofs + k * s.params.W) / s.params.W = k := by
    rw [Nat.add_mul_div_right _ _ s.params.W_pos, Nat.div_eq_of_lt ho, Nat.zero_add]
  have hofs : (s.rc.ofs + k * s.params.W) % s.params.W = (advancedReader s k).ofs := by
    rw [Nat.add_mul_mod_self_right, Nat.mod_eq_of_lt ho, advancedReader_ofs]
  refine ⟨hdelta, ?_⟩
  rw [afterCursorAdvance, hdelta, hofs, afterAdvance]

/-- Settles O29: both are the advance by `k` words, whose index check bounds `k`. -/
theorem skipOfWholeWordsEqualsAdvw : Obligations.SkipOfWholeWordsEqualsAdvw := by
  intro k s ho
  obtain ⟨hdelta, hstate⟩ := afterCursorAdvance_of_words k ho
  have hskip : inContract .skip (withP (k * s.params.W) s) = (s.rc.bound && advanceInContract s k) :=
    congrArg (fun j => s.rc.bound && advanceInContract s j) hdelta
  have hadvw : inContract .advw (withP k s) =
      (s.rc.bound && decide (k < s.params.indexCount) && advanceInContract s k) := rfl
  have hiff : inContract .skip (withP (k * s.params.W) s) = true ↔ inContract .advw (withP k s) = true := by
    rw [hskip, hadvw, Bool.and_eq_true, Bool.and_eq_true, Bool.and_eq_true, and_right_comm]
    refine (and_iff_left_of_imp fun ⟨_, hadvance⟩ => ?_).symm
    have hidx : s.rc.idx + k < s.params.indexCount := of_decide_eq_true (Bool.and_eq_true_iff.mp hadvance).1
    exact decide_eq_true (by omega)
  have hsame : SameReader (respond [] (afterCursorAdvance (k * s.params.W) (withP (k * s.params.W) s)))
      (respond [] (afterAdvance k (withP k s))) := by
    have hmove : afterCursorAdvance (k * s.params.W) (withP (k * s.params.W) s) =
        withP (k * s.params.W) (afterAdvance k s) := congrArg (withP (k * s.params.W)) hstate
    rw [hmove]
    exact ⟨rfl, rfl, rfl, rfl, rfl⟩
  refine ⟨fun t ht => ?_, fun u hu => ?_⟩
  · obtain ⟨hc, rfl⟩ := exec_skip_eq_next.mp ht
    exact ⟨_, exec_advw_eq_next.mpr ⟨hiff.mp hc, rfl⟩, hsame⟩
  · obtain ⟨hc, rfl⟩ := exec_advw_eq_next.mp hu
    exact ⟨_, exec_skip_eq_next.mpr ⟨hiff.mpr hc, rfl⟩, hsame⟩

/-! ### Runs of extracts follow the stream (42_cursor_extractor.md R159) -/

theorem readerResults_length (s : State) (pos : Nat) (fs : List Field) :
    (readerResults s pos fs).length = fs.length := by
  induction fs generalizing pos with
  | nil => rfl
  | cons f fs ih => rw [readerResults, List.length_cons, List.length_cons, ih]

/-- Field `j` of a run is in the contract, and is read, at the bit address that the fields before it have reached. -/
theorem readerResults_getElem {s : State} {pos j : Nat} {fs : List Field} {f : Field}
    (hc : extractInContract s pos fs = true) (hf : fs[j]? = some f) :
    extractInContract s (pos + totalBits (fs.take j)) [f] = true ∧
      (readerResults s pos fs)[j]? = some (readerResult s (pos + totalBits (fs.take j)) f) := by
  induction fs generalizing pos j with
  | nil => cases hf
  | cons g fs ih =>
    obtain ⟨hfirst, hrest⟩ := extractInContract_cons.mp hc
    cases j with
    | zero =>
      cases hf
      exact ⟨hfirst, rfl⟩
    | succ j =>
      rw [List.take_succ_cons, totalBits_cons, ← Nat.add_assoc]
      exact ih hrest hf

/-- Settles O26: a run of extracts returns the reader's fields, which with coherent words are those of the memory. -/
theorem sequentialReadsFollowTheStream : Obligations.SequentialReadsFollowTheStream := by
  intro fs s t vs ho hcoh h
  obtain ⟨hc, rfl, hpos, hofs, hparams, -⟩ := runExt1_completion ho h
  have hofs' : t.rc.ofs < t.params.W := by rwa [hparams]
  refine ⟨readerResults_length s _ fs, ?_, ?_, fun j f v hf hv => ?_⟩
  · rw [← hpos, ← hparams, readerPos_div hofs']
  · rw [← hpos, ← hparams, readerPos_mod hofs']
  · obtain ⟨hcontract, hvalue⟩ := readerResults_getElem hc hf
    rw [hvalue] at hv
    have hfits := fieldFits_of_extractInContract hcontract
    refine ⟨_, extractBitRange_eq_ok.mpr ⟨.inr ⟨Nat.mod_lt _ s.params.W_pos, hfits⟩, rfl⟩, ?_⟩
    rw [← Option.some.inj hv, readerResult, readerField_eq_memoryField hcoh, memoryField]

/-! ### The expansion of EXTL (30_encoding.md R83) -/

/-- The expansion of a list of destinations consists of extract commands whose destinations are that list. -/
theorem extractedFields_expandExtl (fs : List Field) :
    (∀ i ∈ expandExtl fs, extractedFields i ≠ []) ∧ (expandExtl fs).flatMap extractedFields = fs := by
  induction fs using expandExtl.induct with
  | case1 => exact ⟨nofun, rfl⟩
  | case2 | case3 | case4 => exact ⟨List.forall_mem_singleton.mpr (List.cons_ne_nil _ _), rfl⟩
  | case5 d0 d1 d2 d3 rest ih =>
    obtain ⟨hne, hfields⟩ := ih
    refine ⟨List.forall_mem_cons.mpr ⟨List.cons_ne_nil _ _, hne⟩, ?_⟩
    rw [expandExtl, List.flatMap_cons, hfields]
    rfl

/-- The first of several extract commands, then the others from the state it leaves. -/
theorem runExtracts_cons_eq_some {i : Instr} {is : List Instr} {s u : State} {ws : List Word} :
    runExtracts (i :: is) s = some (ws, u) ↔
      ∃ t vs, exec i s = .next t ∧ runExtracts is t = some (vs, u) ∧ ws = t.results.driven i ++ vs := by
  rw [runExtracts]
  cases exec i s with
  | next t =>
    cases hrun : runExtracts is t with
    | none => simp [hrun]
    | some p => simp [hrun, Prod.ext_iff, eq_comm, and_comm]
  | fault _ => simp
  | refused _ => simp

theorem runExt1_append {fs gs : List Field} {s u : State} {ws : List Word} :
    runExt1 (fs ++ gs) s = some (ws, u) ↔
      ∃ t vs vs', runExt1 fs s = some (vs, t) ∧ runExt1 gs t = some (vs', u) ∧ ws = vs ++ vs' := by
  induction fs generalizing s ws with
  | nil =>
    constructor
    · exact fun h => ⟨s, [], ws, rfl, h, rfl⟩
    · rintro ⟨t, vs, vs', hnil, hgs, rfl⟩
      cases hnil
      exact hgs
  | cons f fs ih =>
    simp only [List.cons_append, runExt1_cons_eq_some, ih]
    constructor
    · rintro ⟨hb, v, s1, _, hv, ⟨t, vs, vs', hfs, hgs, rfl⟩, rfl⟩
      exact ⟨t, _, vs', ⟨hb, v, s1, vs, hv, hfs, rfl⟩, hgs, rfl⟩
    · rintro ⟨t, _, vs', ⟨hb, v, s1, vs, hv, hfs, rfl⟩, hgs, rfl⟩
      exact ⟨hb, v, s1, _, hv, ⟨t, vs, vs', hfs, hgs, rfl⟩, rfl⟩

/-- A completed sequence of extract commands is the run of all their destinations. -/
theorem runExt1_of_runExtracts {is : List Instr} {s u t : State} {vs : List Word}
    (his : ∀ i ∈ is, extractedFields i ≠ []) (hview : SameView s u) (h : runExtracts is s = some (vs, t)) :
    ∃ t', runExt1 (is.flatMap extractedFields) u = some (vs, t') ∧ SameView t t' := by
  induction is generalizing s u vs with
  | nil =>
    cases h
    exact ⟨u, rfl, hview⟩
  | cons i is ih =>
    obtain ⟨hi, his⟩ := List.forall_mem_cons.mp his
    obtain ⟨s1, ws, hexec, hrun, rfl⟩ := runExtracts_cons_eq_some.mp h
    obtain ⟨u1, hrun1, hview1⟩ := runExt1_of_exec_extract hi hview hexec
    obtain ⟨t', hrun', hview'⟩ := ih his hview1 hrun
    exact ⟨t', runExt1_append.mpr ⟨u1, _, ws, hrun1, hrun', rfl⟩, hview'⟩

/-- A completed run of destinations is any sequence of extract commands with these destinations. -/
theorem runExtracts_of_runExt1 {is : List Instr} {s u t' : State} {vs : List Word}
    (his : ∀ i ∈ is, extractedFields i ≠ []) (hview : SameView s u)
    (h : runExt1 (is.flatMap extractedFields) u = some (vs, t')) :
    ∃ t, runExtracts is s = some (vs, t) ∧ SameView t t' := by
  induction is generalizing s u vs with
  | nil =>
    cases h
    exact ⟨s, rfl, hview⟩
  | cons i is ih =>
    obtain ⟨hi, his⟩ := List.forall_mem_cons.mp his
    obtain ⟨u1, ws, ws', hrun1, hrun', rfl⟩ := runExt1_append.mp h
    obtain ⟨s1, hexec, rfl, hview1⟩ := exec_extract_of_runExt1 hi hview hrun1
    obtain ⟨t, hrun, hview'⟩ := ih his hview1 hrun'
    exact ⟨t, runExtracts_cons_eq_some.mpr ⟨s1, ws', hexec, hrun, rfl⟩, hview'⟩

/-- Settles O25: the expansion is a sequence of extract commands with the same destinations. -/
theorem extlExpansionEqualsSingleReads : Obligations.ExtlExpansionEqualsSingleReads := by
  intro fs s u vs
  obtain ⟨hne, hfields⟩ := extractedFields_expandExtl fs
  refine ⟨fun h => ?_, fun h => ?_⟩
  · obtain ⟨t, hrun, hsame, -⟩ := runExtracts_of_runExt1 hne (.refl s) (hfields.symm ▸ h)
    exact ⟨t, hrun, hsame⟩
  · obtain ⟨t, hrun, hview⟩ := runExt1_of_runExtracts hne (.refl s) h
    exact ⟨t, hfields ▸ hrun, hview.symm.1⟩

end Sys2Proof.Machine
end

section
/-! SUPPORT. The memory channel over a whole command (20_memory.md R41, R49, R51, R54, R58): which bytes a command leaves
alone, which words it asks for, and that the stores of its requests are all that changes memory; and WR1 as SBR and WSKIP
(43_writer.md R173). -/

namespace Sys2Proof.Machine

open Sys2Proof

/-! ### Bytes outside the stored words (20_memory.md R41, R49) -/

/-- A store of word `p` leaves the bytes below it and from the next word on alone. -/
theorem byteAt_storeWord_outside {p : Params} {m : Memory} {i a : Nat} (v : Nat)
    (h : a < byteAddress p i ∨ byteAddress p (i + 1) ≤ a) : (m.storeWord p i v).byteAt a = m.byteAt a := by
  have hnext : byteAddress p (i + 1) = byteAddress p i + p.width.bytes := Nat.succ_mul _ _
  exact Memory.byteAt_storeWord_other v (by omega)

/-- A set leaves the bytes below its first word and behind its last alone. -/
theorem byteAt_afterSet_outside {s : State} {p val off n a : Nat}
    (h : a < byteAddress s.params p ∨ byteAddress s.params (p + storedWords (.sbr n off) s) ≤ a) :
    (afterSet p val off n s).mem.byteAt a = s.mem.byteAt a := by
  simp only [storedWords] at h
  unfold afterSet
  split_ifs at h ⊢
  · rfl
  · exact byteAt_storeWord_outside _ h
  · have hmono : ∀ i, byteAddress s.params i ≤ byteAddress s.params (i + 1) := fun i =>
      Nat.mul_le_mul_right _ (Nat.le_succ i)
    have hfirst : a < byteAddress s.params p ∨ byteAddress s.params (p + 1) ≤ a :=
      h.imp_right (hmono (p + 1)).trans
    have hsecond : a < byteAddress s.params (p + 1) ∨ byteAddress s.params (p + 1 + 1) ≤ a :=
      h.imp_left fun hlt => hlt.trans_le (hmono p)
    exact (byteAt_storeWord_outside _ hsecond).trans (byteAt_storeWord_outside _ hfirst)

/-- Settles O40: only SBR and WR1 store, and what they store is a set at `storeIndex`. -/
theorem storesTouchOnlyTheirWords : Obligations.StoresTouchOnlyTheirWords := by
  intro i s t h
  obtain ⟨vs, rfl⟩ := exec_next_state h
  cases i with
  | sbr n _ | wr1 n =>
    by_cases hn : n = 0
    · subst hn
      exact ⟨fun _ _ => rfl, nofun⟩
    · simp only [storeIndex, if_neg hn]
      refine ⟨nofun, fun p hp a ha => ?_⟩
      cases hp
      refine byteAt_afterSet_outside ?_
      exact ha
  | shw _ | xbr _ _ | xbrm _ _ | sxt _ | bindr _ | curr | next | advw | skip | ext1 _ | ext2 _ _ | ext3 _ _ _
  | ext4 _ _ _ _ | bindw _ | wskip =>
    refine ⟨fun _ a => ?_, nofun⟩
    rw [respond_mem, bodyAfter_mem_of_not_stores s rfl]

/-! ### Memory and requests (20_memory.md R54, R55) -/

/-- The requests of `t` are those of `s` and some more, whose stores make the memory of `t` out of that of `s`. -/
def MemoryFollows (s t : State) : Prop :=
  ∃ rs, t.trace = s.trace ++ rs ∧ t.mem = applyRequests s.params s.mem rs

theorem applyRequests_append (p : Params) (m : Memory) (rs rs' : List MemReq) :
    applyRequests p m (rs ++ rs') = applyRequests p (applyRequests p m rs) rs' := by
  induction rs generalizing m with
  | nil => rfl
  | cons r rs ih =>
    cases r with
    | load i => exact ih m
    | store i v => exact ih _

theorem applyRequests_loads (p : Params) (m : Memory) (is : List Nat) :
    applyRequests p m (is.map .load) = m := by
  induction is with
  | nil => rfl
  | cons i is ih => exact ih

theorem MemoryFollows.trans {s t u : State} (h : MemoryFollows s t) (h' : MemoryFollows t u)
    (hp : t.params = s.params) : MemoryFollows s u := by
  obtain ⟨rs, htrace, hmem⟩ := h
  obtain ⟨rs', htrace', hmem'⟩ := h'
  exact ⟨rs ++ rs', by rw [htrace', htrace, List.append_assoc], by rw [hmem', hmem, hp, applyRequests_append]⟩

theorem memoryFollows_of_loads {s t : State} {is : List Nat} (h : t.trace = s.trace ++ is.map .load)
    (hm : t.mem = s.mem) : MemoryFollows s t :=
  ⟨_, h, by rw [hm, applyRequests_loads]⟩

theorem memoryFollows_of_eq {s t : State} (h : t.trace = s.trace) (hm : t.mem = s.mem) : MemoryFollows s t :=
  memoryFollows_of_loads (is := []) (h.trans (List.append_nil _).symm) hm

/-- A word that is changed is loaded and then stored (20_memory.md R47). -/
theorem memoryFollows_afterStore (i : Nat) (v : Word) (s : State) :
    MemoryFollows s (afterStore i v (afterLoads [i] s)) :=
  ⟨[.load i, .store i v], List.append_assoc _ _ _, rfl⟩

theorem memoryFollows_afterSet (p : Nat) (val : Word) (off n : Nat) (s : State) :
    MemoryFollows s (afterSet p val off n s) := by
  unfold afterSet
  split_ifs
  · exact memoryFollows_of_eq rfl rfl
  · exact memoryFollows_afterStore _ _ s
  · exact (memoryFollows_afterStore _ _ s).trans (memoryFollows_afterStore _ _ _) rfl

/-- The loads of a run of extracts, in order (42_cursor_extractor.md R152). -/
def extractsLoads : List Field → State → List Nat
  | [], _ => []
  | f :: fs, s =>
    extractViewLoads s ++ advanceLoads s ((s.rc.ofs + f.bits) / s.params.W) ++ extractsLoads fs (afterExtract f.bits s)

theorem afterExtracts_trace (fs : List Field) (s : State) :
    (afterExtracts fs s).trace = s.trace ++ (extractsLoads fs s).map .load := by
  induction fs generalizing s with
  | nil => exact (List.append_nil _).symm
  | cons f fs ih =>
    have hone : (afterExtract f.bits s).trace = s.trace ++ (extractViewLoads s).map .load ++
        (advanceLoads s ((s.rc.ofs + f.bits) / s.params.W)).map .load := rfl
    rw [afterExtracts, ih, hone, extractsLoads, List.map_append, List.map_append, List.append_assoc,
      List.append_assoc, List.append_assoc]

theorem memoryFollows_bodyAfter (i : Instr) (s : State) : MemoryFollows s (bodyAfter i s) := by
  cases i with
  | sbr n off => exact memoryFollows_afterSet _ _ off n s
  | wr1 n => exact memoryFollows_afterSet _ _ s.wc.ofs n s
  | xbrm _ _ | bindr _ | curr | next | advw | skip => exact memoryFollows_of_loads rfl rfl
  | ext1 _ | ext2 _ _ | ext3 _ _ _ | ext4 _ _ _ _ =>
    exact memoryFollows_of_loads (afterExtracts_trace _ s) (bodyAfter_mem_of_not_stores s rfl)
  | shw _ | xbr _ _ | sxt _ | bindw _ | wskip => exact memoryFollows_of_eq rfl rfl

/-- Settles O44: the state after a command is explicit, and so are its requests. -/
theorem memoryIsWhatTheRequestsMadeIt : Obligations.MemoryIsWhatTheRequestsMadeIt := by
  intro i s t h
  obtain ⟨vs, rfl⟩ := exec_next_state h
  exact memoryFollows_bodyAfter i s

/-! ### Requests for admissible words (20_memory.md R51, R58) -/

/-- What the host allows of a request. -/
def Admissible (s : State) (r : MemReq) : Prop :=
  r.index < s.params.indexCount ∧ (wordAt s r.index).isSome = true ∧
    (r.isLoad = true → rivalStores s r.index = false) ∧ (r.isLoad = false → rivalTouches s r.index = false)

theorem admissible_load {s : State} {i : Nat} (h : readable s i = true) : Admissible s (.load i) := by
  simp only [readable, Bool.and_eq_true, decide_eq_true_eq, Bool.not_eq_true'] at h
  obtain ⟨⟨hidx, hword⟩, hrival⟩ := h
  exact ⟨hidx, hword, fun _ => hrival, nofun⟩

theorem admissible_store {s : State} {i : Nat} {v : Word} (h : writable s i = true) : Admissible s (.store i v) := by
  simp only [writable, Bool.and_eq_true, decide_eq_true_eq, Bool.not_eq_true'] at h
  obtain ⟨⟨hidx, hword⟩, hrival⟩ := h
  exact ⟨hidx, hword, nofun, fun _ => hrival⟩

/-- The requests of `t` are those of `s` and some more, which the host of `s` allows. -/
def AdmissibleRequests (s t : State) : Prop := ∃ rs, t.trace = s.trace ++ rs ∧ ∀ r ∈ rs, Admissible s r

theorem admissibleRequests_of_loads {s t : State} {is : List Nat} (h : t.trace = s.trace ++ is.map .load)
    (his : ∀ i ∈ is, readable s i = true) : AdmissibleRequests s t :=
  ⟨_, h, List.forall_mem_map.mpr fun i hi => admissible_load (his i hi)⟩

theorem admissibleRequests_afterSet {s : State} {p val off n : Nat} (h : writeInContract s p val off n = true) :
    AdmissibleRequests s (afterSet p val off n s) := by
  obtain ⟨hzero, hone, htwo⟩ := writeRequests_of_writeInContract h
  rcases Nat.eq_zero_or_pos n with hn | hn
  · exact ⟨[], by rw [hzero hn, List.append_nil], nofun⟩
  obtain ⟨-, -, -, hp, hp1⟩ := (writeInContract_iff hn).mp h
  have hload := admissible_load (readable_of_writable hp)
  rcases Nat.lt_or_ge s.params.W (off + n) with hlt | hle
  · obtain ⟨v0, v1, htrace⟩ := htwo hn hlt
    have hload1 := admissible_load (readable_of_writable (hp1 hlt))
    exact ⟨_, htrace, by simp [hload, hload1, admissible_store hp, admissible_store (hp1 hlt)]⟩
  · obtain ⟨v, htrace⟩ := hone hn hle
    exact ⟨_, htrace, by simp [hload, admissible_store hp]⟩

theorem readable_of_mem_viewLoads {s : State} {i j : Nat} (h : viewReady s i = true) (hj : j ∈ viewLoads s i) :
    readable s j = true := by
  unfold viewReady at h
  unfold viewLoads at hj
  cases hs : s.params.strategy with
  | direct =>
    simp only [hs, List.mem_singleton] at h hj
    rwa [hj]
  | cached => simp [hs] at hj

theorem readable_of_mem_advanceLoads {s : State} {k j : Nat} (h : advanceInContract s k = true)
    (hj : j ∈ advanceLoads s k) : readable s j = true := by
  unfold advanceInContract at h
  unfold advanceLoads at hj
  cases hs : s.params.strategy with
  | direct => simp [hs] at hj
  | cached =>
    simp only [hs, Bool.and_eq_true] at h hj
    obtain ⟨-, h⟩ := h
    split_ifs at h hj
    · cases hj
    · rwa [List.mem_singleton.mp hj]
    · simp only [Bool.and_eq_true] at h
      simp only [List.mem_cons, List.not_mem_nil, or_false] at hj
      rcases hj with rfl | rfl
      · exact h.1
      · exact h.2

theorem readable_of_mem_bindLoads {s : State} {p j : Nat} (h : bindReady s p = true) (hj : j ∈ bindLoads s p) :
    readable s j = true := by
  unfold bindReady at h
  unfold bindLoads at hj
  cases hs : s.params.strategy with
  | direct => simp [hs] at hj
  | cached =>
    simp only [hs, Bool.and_eq_true, List.mem_cons, List.not_mem_nil, or_false] at h hj
    rcases hj with rfl | rfl
    · exact h.1
    · exact h.2

theorem readable_of_mem_xbrmLoads {s : State} {off n j : Nat} (h : xbrmWordsReady s off n = true)
    (hj : j ∈ xbrmLoads s off n) : readable s j = true := by
  unfold xbrmLoads at hj
  cases hpol : s.params.word1Policy with
  | unconditional =>
    simp only [xbrmWordsReady, hpol, Bool.and_eq_true, List.mem_cons, List.not_mem_nil, or_false] at h hj
    rcases hj with rfl | rfl
    · exact h.1
    · exact h.2
  | conditional =>
    simp only [hpol] at hj
    split_ifs at hj with hn hlt
    · cases hj
    · obtain ⟨h0, h1⟩ := readable_of_xbrmWordsReady (Nat.pos_of_ne_zero hn) h
      simp only [List.mem_cons, List.not_mem_nil, or_false] at hj
      rcases hj with rfl | rfl
      · exact h0
      · exact h1 hlt
    · rw [List.mem_singleton.mp hj]
      exact (readable_of_xbrmWordsReady (Nat.pos_of_ne_zero hn) h).1

theorem readable_of_mem_extractsLoads {fs : List Field} {s : State} {j : Nat} (ho : s.rc.ofs < s.params.W)
    (hc : extractInContract s (readerPos s) fs = true) (hj : j ∈ extractsLoads fs s) : readable s j = true := by
  induction fs generalizing s with
  | nil => cases hj
  | cons f fs ih =>
    obtain ⟨hfirst, hrest⟩ := extractInContract_cons_afterExtract.mp hc
    obtain ⟨-, hready0, hready1, hadvance⟩ := (extractInContract_one ho).mp hfirst
    simp only [extractsLoads, extractViewLoads, List.mem_append] at hj
    rcases hj with ((hj | hj) | hj) | hj
    · exact readable_of_mem_viewLoads hready0 hj
    · exact readable_of_mem_viewLoads hready1 hj
    · exact readable_of_mem_advanceLoads hadvance hj
    · exact ih (s := afterExtract f.bits s) (afterExtract_ofs_lt f.bits s) hrest hj

theorem admissibleRequests_bodyAfter {i : Instr} {s : State} (ho : s.rc.ofs < s.params.W)
    (hc : inContract i s = true) : AdmissibleRequests s (bodyAfter i s) := by
  cases i with
  | sbr n off => exact admissibleRequests_afterSet hc
  | wr1 n =>
    obtain ⟨-, hwrite, -⟩ := inContract_wr1_iff.mp hc
    exact admissibleRequests_afterSet hwrite
  | xbrm n off =>
    obtain ⟨-, -, hready⟩ := inContract_xbrm_iff.mp hc
    exact admissibleRequests_of_loads rfl fun _ => readable_of_mem_xbrmLoads hready
  | bindr off =>
    obtain ⟨-, -, hready⟩ := inContract_bindr_iff.mp hc
    exact admissibleRequests_of_loads rfl fun _ => readable_of_mem_bindLoads hready
  | curr | next =>
    exact admissibleRequests_of_loads rfl fun _ => readable_of_mem_viewLoads (Bool.and_eq_true_iff.mp hc).2
  | advw | skip =>
    exact admissibleRequests_of_loads rfl fun _ => readable_of_mem_advanceLoads (Bool.and_eq_true_iff.mp hc).2
  | ext1 _ | ext2 _ _ | ext3 _ _ _ | ext4 _ _ _ _ =>
    exact admissibleRequests_of_loads (afterExtracts_trace _ s) fun _ =>
      readable_of_mem_extractsLoads ho (Bool.and_eq_true_iff.mp hc).2
  | shw _ | xbr _ _ | sxt _ | bindw _ | wskip => exact ⟨[], (List.append_nil _).symm, nofun⟩

/-- Settles O42: inside its contract a command loads readable words and stores writable ones. -/
theorem requestsTouchOnlyAdmissibleWords : Obligations.RequestsTouchOnlyAdmissibleWords := by
  intro i s t ho h
  obtain ⟨hc, rfl⟩ := (exec_eq_next ho).mp h
  exact admissibleRequests_bodyAfter ho hc

/-! ### WR1 as SBR and WSKIP (43_writer.md R173) -/

/-- A set does not look at the operand `P`. -/
theorem afterSet_withP (q p : Nat) (val : Word) (off n : Nat) (s : State) :
    afterSet p val off n (withP q s) = withP q (afterSet p val off n s) := by
  by_cases hn : n = 0
  · rw [afterSet, afterSet, if_pos hn, if_pos hn]
  · by_cases hf : off + n ≤ s.params.W
    · rw [afterSet, afterSet, if_neg hn, if_neg hn, if_pos hf, withP_params, if_pos hf]
      rfl
    · rw [afterSet, afterSet, if_neg hn, if_neg hn, if_neg hf, withP_params, if_neg hf]
      rfl

/-- The contract of WR1 is that of SBR at the cursor, then that of WSKIP in the state SBR leaves. -/
theorem inContract_wr1_iff_sbr_wskip {n : Nat} {s u : State}
    (hu : u = respond [] (afterSet s.wc.idx s.ports.a s.wc.ofs n (withP s.wc.idx s))) :
    inContract (.wr1 n) s = true ↔
      inContract (.sbr n s.wc.ofs) (withP s.wc.idx s) = true ∧ inContract .wskip (withP n u) = true := by
  have hsbr : inContract (.sbr n s.wc.ofs) (withP s.wc.idx s) =
      writeInContract s s.wc.idx s.ports.a s.wc.ofs n := rfl
  have hwskip : inContract .wskip (withP n u) = true ↔
      s.wc.bound = true ∧ s.wc.idx + (s.wc.ofs + n) / s.params.W < s.params.indexCount := by
    simp [inContract, writerAdvanceInContract, hu]
  rw [inContract_wr1_iff, hsbr, hwskip]
  exact and_left_comm

/-- WR1 leaves what SBR and WSKIP leave, but for the operand `P` and the completion events. -/
theorem sameReader_wr1_sbr_wskip (n : Nat) (s : State) :
    SameReader (respond [] (afterWriterAdvance n (afterSet s.wc.idx s.ports.a s.wc.ofs n s)))
      (respond [] (afterWriterAdvance n
        (withP n (respond [] (afterSet s.wc.idx s.ports.a s.wc.ofs n (withP s.wc.idx s)))))) := by
  rw [afterSet_withP]
  exact ⟨rfl, rfl, rfl, rfl, rfl⟩

/-- Settles O32: the contracts agree, and so do the states but for the operand `P` and the completion events. -/
theorem wr1IsSbrAtTheCursorThenWskip : Obligations.Wr1IsSbrAtTheCursorThenWskip := by
  intro n s
  refine ⟨fun t ht => ?_, fun u v hu hv => ?_⟩
  · obtain ⟨hc, rfl⟩ := exec_wr1_eq_next.mp ht
    obtain ⟨hsbr, hwskip⟩ := (inContract_wr1_iff_sbr_wskip rfl).mp hc
    exact ⟨_, _, exec_sbr_eq_next.mpr ⟨hsbr, rfl⟩, exec_wskip_eq_next.mpr ⟨hwskip, rfl⟩,
      sameReader_wr1_sbr_wskip n s⟩
  · obtain ⟨hsbr, hu⟩ := exec_sbr_eq_next.mp hu
    obtain ⟨hwskip, rfl⟩ := exec_wskip_eq_next.mp hv
    subst hu
    exact ⟨_, exec_wr1_eq_next.mpr ⟨(inContract_wr1_iff_sbr_wskip rfl).mpr ⟨hsbr, hwskip⟩, rfl⟩,
      sameReader_wr1_sbr_wskip n s⟩

end Sys2Proof.Machine
end

section
/-! SUPPORT. What a command looks at. Two states that agree on it are run in step through every procedure, check by check, so
that a command ends alike in both (20_memory.md R44, 40_primitives.md R102, 60_exceptions.md R203, R214). -/

namespace Sys2Proof.Machine

open Sys2Proof

/-! ### Two outcomes in agreement -/

/-- Two procedures end alike: in related answers, or in the same violation, which is the race V8 only if another agent is at
work. -/
inductive Agree {α β : Type} (rs : List Rival) (R : α → β → Prop) : Except Violation α → Except Violation β → Prop
  | ok {a : α} {b : β} (h : R a b) : Agree rs R (.ok a) (.ok b)
  | error {v : Violation} (h : v = .race → rs ≠ []) : Agree rs R (.error v) (.error v)

theorem Agree.bind {α β γ δ : Type} {rs : List Rival} {R : α → β → Prop} {Q : γ → δ → Prop}
    {x : Except Violation α} {y : Except Violation β} {f : α → Except Violation γ} {g : β → Except Violation δ}
    (h : Agree rs R x y) (hfg : ∀ a b, R a b → Agree rs Q (f a) (g b)) : Agree rs Q (x >>= f) (y >>= g) := by
  cases h with
  | ok hab => exact hfg _ _ hab
  | error hv => exact .error hv

/-- One check of the same condition on both sides. -/
theorem agree_require {γ δ : Type} {rs : List Rival} {Q : γ → δ → Prop} {c : Bool} {v : Violation}
    {f : Unit → Except Violation γ} {g : Unit → Except Violation δ} (hv : v = .race → c = false → rs ≠ [])
    (hfg : Agree rs Q (f ()) (g ())) : Agree rs Q (require c v >>= f) (require c v >>= g) := by
  cases c with
  | true => exact hfg
  | false => exact .error fun h => hv h rfl

theorem agree_requireFieldWidth {γ δ : Type} {rs : List Rival} {Q : γ → δ → Prop} {w off n : Nat}
    {f : Unit → Except Violation γ} {g : Unit → Except Violation δ} (hfg : Agree rs Q (f ()) (g ())) :
    Agree rs Q (requireFieldWidth w off n >>= f) (requireFieldWidth w off n >>= g) := by
  refine Agree.bind (R := fun _ _ => True) ?_ fun _ _ _ => hfg
  rw [requireFieldWidth]
  refine agree_require nofun ?_
  cases decide (n = w → off = 0) with
  | true => exact .ok trivial
  | false => exact .error nofun

theorem agree_extractBitRange (rs : List Rival) (w w0 w1 off n : Nat) :
    Agree rs Eq (extractBitRange w w0 w1 off n) (extractBitRange w w0 w1 off n) := by
  unfold extractBitRange
  split_ifs
  · exact .ok rfl
  · exact agree_require nofun (agree_requireFieldWidth (.ok rfl))
  · exact agree_require nofun (agree_requireFieldWidth (.ok rfl))

/-! ### States that a command cannot tell apart -/

/-- What the commands look at is the same in both states: the parameters but for `BYTE_ORDER` and `SHIFT_IMPL`, the ports, the
other agents `rs`, the words of the memory, and of the two contexts the reader if `rd` and the writer if `wr`; and the record
of requests and the queue are the same. -/
structure Alike (rd wr : Bool) (rs : List Rival) (s s' : State) : Prop where
  width : s'.params.width = s.params.width
  aw : s'.params.aw = s.params.aw
  strategy : s'.params.strategy = s.params.strategy
  policy : s'.params.word1Policy = s.params.word1Policy
  ports : s'.ports = s.ports
  inputs : s'.inputs = s.inputs
  rivals_left : s.rivals = rs
  rivals_right : s'.rivals = rs
  trace : s'.trace = s.trace
  word : ∀ i, wordAt s' i = wordAt s i
  reader : rd = true → s'.rc = s.rc
  writer : wr = true → s'.wc = s.wc

/-- Two answers with the same value and states that a command cannot tell apart. -/
def SameAnswer {α : Type} (rd wr : Bool) (rs : List Rival) (x y : α × State) : Prop :=
  x.1 = y.1 ∧ Alike rd wr rs x.2 y.2

section
variable {rd wr : Bool} {rs : List Rival} {s s' : State}

theorem Alike.W_eq (h : Alike rd wr rs s s') : s'.params.W = s.params.W := by
  rw [Params.W, Params.W, h.width]

theorem Alike.indexCount_eq (h : Alike rd wr rs s s') : s'.params.indexCount = s.params.indexCount := by
  rw [Params.indexCount, Params.indexCount, h.aw]

theorem Alike.rivalStores_eq (h : Alike rd wr rs s s') (i : Nat) : rivalStores s' i = rivalStores s i := by
  rw [rivalStores, rivalStores, h.rivals_left, h.rivals_right]

theorem Alike.rivalTouches_eq (h : Alike rd wr rs s s') (i : Nat) : rivalTouches s' i = rivalTouches s i := by
  rw [rivalTouches, rivalTouches, h.rivals_left, h.rivals_right]

theorem Alike.afterLoads (h : Alike rd wr rs s s') (is : List Nat) :
    Alike rd wr rs (afterLoads is s) (afterLoads is s') :=
  { h with trace := by rw [afterLoads_trace, afterLoads_trace, h.trace] }

theorem Alike.afterStore (h : Alike rd wr rs s s') (i : Nat) (v : Word) :
    Alike rd wr rs (afterStore i v s) (afterStore i v s') :=
  { h with
    trace := by rw [afterStore_trace, afterStore_trace, h.trace]
    word := fun j => by rw [wordAt_afterStore, wordAt_afterStore, h.W_eq, h.word] }

theorem Alike.withReader (h : Alike rd wr rs s s') (c : ReaderCtx) :
    Alike rd wr rs { s with rc := c } { s' with rc := c } :=
  { h with reader := fun _ => rfl }

theorem Alike.withWriter (h : Alike rd wr rs s s') (c : WriterCtx) :
    Alike rd wr rs { s with wc := c } { s' with wc := c } :=
  { h with writer := fun _ => rfl }

theorem Alike.respond (h : Alike rd wr rs s s') (vs : List Word) :
    Alike rd wr rs (respond vs s) (respond vs s') := { h with }

theorem ne_nil_of_any {rs : List Rival} {f : Rival → Bool} (h : rs.any f = true) : rs ≠ [] := by
  rintro rfl
  cases h

/-! ### The procedures, run in step -/

theorem Alike.memRead (h : Alike rd wr rs s s') (i : Nat) :
    Agree rs (SameAnswer rd wr rs) (memRead i s) (memRead i s') := by
  unfold Machine.memRead
  rw [h.indexCount_eq, h.word, h.rivalStores_eq]
  refine agree_require nofun ?_
  cases wordAt s i with
  | none => exact .error nofun
  | some v =>
    refine agree_require (fun _ hc => ?_) (.ok ⟨rfl, h.afterLoads [i]⟩)
    rw [Bool.not_eq_false', rivalStores, h.rivals_left] at hc
    exact ne_nil_of_any hc

theorem Alike.memWrite (h : Alike rd wr rs s s') (i : Nat) (v : Word) :
    Agree rs (Alike rd wr rs) (memWrite i v s) (memWrite i v s') := by
  unfold Machine.memWrite
  rw [h.indexCount_eq, h.word, h.rivalTouches_eq]
  refine agree_require nofun (agree_require nofun (agree_require (fun _ hc => ?_) (.ok (h.afterStore i v))))
  rw [Bool.not_eq_false', rivalTouches, h.rivals_left] at hc
  exact ne_nil_of_any hc

/-- What follows a load is run in step too, with the same word in both. -/
theorem Agree.bindAnswer {α γ δ : Type} {Q : γ → δ → Prop} {x y : Except Violation (α × State)}
    {f : α × State → Except Violation γ} {g : α × State → Except Violation δ}
    (h : Agree rs (SameAnswer rd wr rs) x y)
    (hfg : ∀ v s1 s1', Alike rd wr rs s1 s1' → Agree rs Q (f (v, s1)) (g (v, s1'))) :
    Agree rs Q (x >>= f) (y >>= g) :=
  h.bind fun ⟨_, s1⟩ ⟨_, s1'⟩ ⟨hv, h1⟩ => by
    cases hv
    exact hfg _ s1 s1' h1

theorem Alike.setBitRange (h : Alike rd wr rs s s') (p val off n : Nat) :
    Agree rs (Alike rd wr rs) (setBitRange p val off n s) (setBitRange p val off n s') := by
  unfold Machine.setBitRange
  rw [h.W_eq]
  split_ifs
  · exact .ok h
  · refine agree_require nofun (agree_requireFieldWidth (agree_require nofun ?_))
    exact (h.memRead p).bindAnswer fun old s1 s1' h1 => h1.memWrite p _
  · refine agree_require nofun (agree_requireFieldWidth (agree_require nofun ?_))
    exact (h.memRead p).bindAnswer fun old s1 s1' h1 => (h1.memWrite p _).bind fun s2 s2' h2 =>
      (h2.memRead (p + 1)).bindAnswer fun old' s3 s3' h3 => h3.memWrite (p + 1) _

theorem Alike.bufBind (h : Alike true wr rs s s') (p : Nat) :
    Agree rs (Alike true wr rs) (bufBind p s) (bufBind p s') := by
  unfold Machine.bufBind
  rw [h.strategy, h.reader rfl]
  cases s.params.strategy with
  | direct => exact .ok (h.withReader _)
  | cached =>
    exact ((h.withReader _).memRead p).bindAnswer fun w0 s1 s1' h1 =>
      (h1.memRead (p + 1)).bindAnswer fun w1 s2 s2' h2 => by
        dsimp only
        rw [h2.reader rfl]
        exact .ok (h2.withReader _)

theorem Alike.bufCurr (h : Alike true wr rs s s') :
    Agree rs (SameAnswer true wr rs) (bufCurr s) (bufCurr s') := by
  unfold Machine.bufCurr
  rw [h.strategy, h.reader rfl]
  cases s.params.strategy with
  | direct => exact h.memRead _
  | cached => exact .ok ⟨rfl, h⟩

theorem Alike.bufNext (h : Alike true wr rs s s') :
    Agree rs (SameAnswer true wr rs) (bufNext s) (bufNext s') := by
  unfold Machine.bufNext
  rw [h.strategy, h.reader rfl]
  cases s.params.strategy with
  | direct => exact h.memRead _
  | cached => exact .ok ⟨rfl, h⟩

theorem Alike.bufAdvance (h : Alike true wr rs s s') (k : Nat) :
    Agree rs (Alike true wr rs) (bufAdvance k s) (bufAdvance k s') := by
  unfold Machine.bufAdvance
  rw [h.strategy, h.reader rfl, h.indexCount_eq]
  refine agree_require nofun ?_
  cases s.params.strategy with
  | direct => exact .ok (h.withReader _)
  | cached =>
    dsimp only
    split_ifs
    · exact .ok h
    · exact (h.memRead _).bindAnswer fun w1 s1 s1' h1 => by
        rw [h1.reader rfl]
        exact .ok (h1.withReader _)
    · exact (h.memRead _).bindAnswer fun w0 s1 s1' h1 => (h1.memRead _).bindAnswer fun w1 s2 s2' h2 => by
        rw [h2.reader rfl]
        exact .ok (h2.withReader _)

theorem Alike.cursorAdvance (h : Alike true wr rs s s') (n : Nat) :
    Agree rs (Alike true wr rs) (cursorAdvance n s) (cursorAdvance n s') := by
  unfold Machine.cursorAdvance
  rw [h.reader rfl, h.W_eq]
  exact (h.bufAdvance _).bind fun s1 s1' h1 => by
    rw [h1.reader rfl]
    exact .ok (h1.withReader _)

theorem Alike.cursorExtract (h : Alike true wr rs s s') (n : Nat) :
    Agree rs (SameAnswer true wr rs) (cursorExtract n s) (cursorExtract n s') := by
  unfold Machine.cursorExtract
  rw [h.reader rfl, h.W_eq]
  refine agree_requireFieldWidth (h.bufCurr.bindAnswer fun w0 s1 s1' h1 => h1.bufNext.bindAnswer fun w1 s2 s2' h2 => ?_)
  dsimp only
  rw [h2.reader rfl]
  refine (agree_extractBitRange rs s.params.W w0 w1 s2.rc.ofs n).bind fun v v' hv => ?_
  cases hv
  exact (h2.cursorAdvance n).bind fun s3 s3' h3 => .ok ⟨rfl, h3⟩

theorem Alike.extractField (h : Alike true wr rs s s') (f : Field) :
    Agree rs (SameAnswer true wr rs) (extractField f s) (extractField f s') := by
  unfold Machine.extractField
  rw [h.W_eq]
  exact (h.cursorExtract f.bits).bindAnswer fun v s1 s1' h1 => .ok ⟨rfl, h1⟩

theorem Alike.extractFields (h : Alike true wr rs s s') (fs : List Field) :
    Agree rs (fun x y => SameAnswer true wr rs x y ∧ x.1.length = fs.length) (extractFields fs s)
      (extractFields fs s') := by
  induction fs generalizing s s' with
  | nil => exact .ok ⟨⟨rfl, h⟩, rfl⟩
  | cons f fs ih =>
    exact (h.extractField f).bindAnswer fun v s1 s1' h1 => (ih h1).bind fun _ _ ⟨⟨hvs, h2⟩, hlength⟩ =>
      .ok ⟨⟨congrArg (v :: ·) hvs, h2⟩, congrArg (· + 1) hlength⟩

theorem Alike.wcursorAdvance (h : Alike rd true rs s s') (n : Nat) :
    Agree rs (Alike rd true rs) (wcursorAdvance n s) (wcursorAdvance n s') := by
  unfold Machine.wcursorAdvance
  rw [h.writer rfl, h.W_eq, h.indexCount_eq]
  exact agree_require nofun (.ok (h.withWriter _))

/-! ### Every command (60_exceptions.md R203, 20_memory.md R44) -/

/-- A completion that carries the values of the driven ports. -/
theorem agree_respond {i : Instr} {vs : List Word} (h : Alike rd wr rs s s') (hvs : vs.length = drivenCount i) :
    Agree rs (fun t t' => Alike rd wr rs t t' ∧ t'.results.driven i = t.results.driven i)
      (.ok (respond vs s)) (.ok (respond vs s')) :=
  .ok ⟨h.respond vs, by rw [driven_respond hvs, driven_respond hvs]⟩

/-- The command `i` ends alike in both states: in alike states with the same driven results, or in the same violation. -/
def EndsAlike (rd wr : Bool) (rs : List Rival) (i : Instr) (s s' : State) : Prop :=
  ∃ x y, exec i s = conclude i x ∧ exec i s' = conclude i y ∧
    Agree rs (fun t t' => Alike rd wr rs t t' ∧ t'.results.driven i = t.results.driven i) x y

theorem Alike.exec_shw (h : Alike rd wr rs s s') (n : Nat) : EndsAlike rd wr rs (.shw n) s s' := by
  refine ⟨_, _, rfl, rfl, ?_⟩
  rw [h.W_eq, h.ports]
  exact agree_require nofun (agree_respond h rfl)

theorem Alike.exec_xbr (h : Alike rd wr rs s s') (n off : Nat) : EndsAlike rd wr rs (.xbr n off) s s' := by
  refine ⟨_, _, rfl, rfl, ?_⟩
  rw [h.W_eq, h.ports]
  exact (agree_extractBitRange rs _ _ _ off n).bind fun v v' hv => by
    cases hv
    exact agree_respond h rfl

theorem Alike.exec_sxt (h : Alike rd wr rs s s') (f : Field) : EndsAlike rd wr rs (.sxt f) s s' := by
  refine ⟨_, _, rfl, rfl, ?_⟩
  rw [h.W_eq, h.ports]
  exact agree_require nofun (agree_require nofun (agree_respond h rfl))

theorem Alike.exec_xbrm (h : Alike rd wr rs s s') (n off : Nat) : EndsAlike rd wr rs (.xbrm n off) s s' := by
  have hlast : ∀ (w0 w1 : Word) (t t' : State), Alike rd wr rs t t' →
      Agree rs (fun t t' => Alike rd wr rs t t' ∧ t'.results.driven (.xbrm n off) = t.results.driven (.xbrm n off))
        (extractBitRange s.params.W w0 w1 off n >>= fun v => .ok (Machine.respond [v] t))
        (extractBitRange s.params.W w0 w1 off n >>= fun v => .ok (Machine.respond [v] t')) :=
    fun w0 w1 t t' ht => (agree_extractBitRange rs _ _ _ off n).bind fun v v' hv => by
      cases hv
      exact agree_respond ht rfl
  refine ⟨_, _, rfl, rfl, ?_⟩
  rw [h.W_eq, h.ports, h.indexCount_eq, h.policy]
  refine agree_require nofun ?_
  cases s.params.word1Policy with
  | unconditional =>
    exact (h.memRead _).bindAnswer fun w0 s1 s1' h1 => (h1.memRead _).bindAnswer fun w1 s2 s2' h2 =>
      hlast w0 w1 s2 s2' h2
  | conditional =>
    dsimp only
    split_ifs
    · exact agree_respond h rfl
    · exact (h.memRead _).bindAnswer fun w0 s1 s1' h1 => (h1.memRead _).bindAnswer fun w1 s2 s2' h2 =>
        hlast w0 w1 s2 s2' h2
    · exact (h.memRead _).bindAnswer fun w0 s1 s1' h1 => hlast w0 0 s1 s1' h1

theorem Alike.exec_sbr (h : Alike rd wr rs s s') (n off : Nat) : EndsAlike rd wr rs (.sbr n off) s s' := by
  refine ⟨_, _, rfl, rfl, ?_⟩
  rw [h.ports, h.indexCount_eq]
  exact agree_require nofun ((h.setBitRange _ _ off n).bind fun s1 s1' h1 => agree_respond h1 rfl)

theorem agree_requireReader {γ δ : Type} {Q : γ → δ → Prop} {f : Unit → Except Violation γ}
    {g : Unit → Except Violation δ} (h : Alike true wr rs s s') (hfg : Agree rs Q (f ()) (g ())) :
    Agree rs Q (requireReader s >>= f) (requireReader s' >>= g) := by
  rw [requireReader, requireReader, h.reader rfl]
  exact agree_require nofun hfg

theorem agree_requireWriter {γ δ : Type} {Q : γ → δ → Prop} {f : Unit → Except Violation γ}
    {g : Unit → Except Violation δ} (h : Alike rd true rs s s') (hfg : Agree rs Q (f ()) (g ())) :
    Agree rs Q (requireWriter s >>= f) (requireWriter s' >>= g) := by
  rw [requireWriter, requireWriter, h.writer rfl]
  exact agree_require nofun hfg

theorem Alike.exec_bindr (h : Alike true wr rs s s') (off : Nat) : EndsAlike true wr rs (.bindr off) s s' := by
  refine ⟨_, _, rfl, rfl, ?_⟩
  rw [h.ports, h.indexCount_eq, h.W_eq, h.strategy]
  refine agree_require nofun (agree_require nofun (agree_require nofun ?_))
  exact (h.bufBind _).bind fun s1 s1' h1 => by
    rw [h1.reader rfl]
    exact agree_respond (h1.withReader _) rfl

theorem Alike.exec_curr (h : Alike true wr rs s s') : EndsAlike true wr rs .curr s s' :=
  ⟨_, _, rfl, rfl, agree_requireReader h (h.bufCurr.bindAnswer fun _ _ _ h1 => agree_respond h1 rfl)⟩

theorem Alike.exec_next (h : Alike true wr rs s s') : EndsAlike true wr rs .next s s' := by
  refine ⟨_, _, rfl, rfl, agree_requireReader h ?_⟩
  rw [h.strategy, h.reader rfl, h.indexCount_eq]
  exact agree_require nofun (h.bufNext.bindAnswer fun _ _ _ h1 => agree_respond h1 rfl)

theorem Alike.exec_advw (h : Alike true wr rs s s') : EndsAlike true wr rs .advw s s' := by
  refine ⟨_, _, rfl, rfl, agree_requireReader h ?_⟩
  rw [h.ports, h.indexCount_eq]
  exact agree_require nofun ((h.bufAdvance _).bind fun _ _ h1 => agree_respond h1 rfl)

theorem Alike.exec_skip (h : Alike true wr rs s s') : EndsAlike true wr rs .skip s s' := by
  refine ⟨_, _, rfl, rfl, agree_requireReader h ?_⟩
  rw [h.ports]
  exact (h.cursorAdvance _).bind fun _ _ h1 => agree_respond h1 rfl

/-- The extract commands have one meaning (42_cursor_extractor.md R154 to R157). -/
theorem exec_extract {i : Instr} (hi : extractedFields i ≠ []) (s : State) :
    exec i s = conclude i (requireReader s >>= fun _ =>
      extractFields (extractedFields i) s >>= fun r => .ok (respond r.1 r.2)) := by
  cases i with
  | ext1 f0 => exact exec_ext1_fused f0 s
  | ext2 _ _ | ext3 _ _ _ | ext4 _ _ _ _ => rfl
  | shw _ | xbr _ _ | xbrm _ _ | sbr _ _ | sxt _ | bindr _ | curr | next | advw | skip | bindw _ | wr1 _ | wskip =>
    exact absurd rfl hi

theorem Alike.exec_extract (h : Alike true wr rs s s') {i : Instr} (hi : extractedFields i ≠ []) :
    EndsAlike true wr rs i s s' := by
  refine ⟨_, _, Machine.exec_extract hi s, Machine.exec_extract hi s', agree_requireReader h ?_⟩
  refine (h.extractFields _).bind fun ⟨vs, s1⟩ ⟨_, s1'⟩ ⟨⟨hvs, h1⟩, hlength⟩ => ?_
  cases hvs
  exact agree_respond h1 (hlength.trans (extractedFields_length hi))

theorem Alike.exec_bindw (h : Alike rd true rs s s') (off : Nat) : EndsAlike rd true rs (.bindw off) s s' := by
  refine ⟨_, _, rfl, rfl, ?_⟩
  rw [h.ports, h.indexCount_eq, h.W_eq]
  exact agree_require nofun (agree_require nofun (agree_respond { h with ports := rfl, writer := fun _ => rfl } rfl))

theorem Alike.exec_wr1 (h : Alike rd true rs s s') (n : Nat) : EndsAlike rd true rs (.wr1 n) s s' := by
  refine ⟨_, _, rfl, rfl, agree_requireWriter h ?_⟩
  rw [h.writer rfl, h.ports]
  exact (h.setBitRange _ _ _ n).bind fun s1 s1' h1 => (h1.wcursorAdvance n).bind fun s2 s2' h2 =>
    agree_respond h2 rfl

theorem Alike.exec_wskip (h : Alike rd true rs s s') : EndsAlike rd true rs .wskip s s' := by
  refine ⟨_, _, rfl, rfl, agree_requireWriter h ?_⟩
  rw [h.ports]
  exact (h.wcursorAdvance _).bind fun s1 s1' h1 => agree_respond h1 rfl

/-- Every command ends alike in two states that agree on what it looks at: the reader counts for the commands of the reader,
the writer for those of the writer. -/
theorem Alike.exec {i : Instr} (h : Alike rd wr rs s s') (hr : usesReader i = true → rd = true)
    (hw : usesWriter i = true → wr = true) : EndsAlike rd wr rs i s s' := by
  cases i with
  | shw n => exact h.exec_shw n
  | xbr n off => exact h.exec_xbr n off
  | sxt f => exact h.exec_sxt f
  | xbrm n off => exact h.exec_xbrm n off
  | sbr n off => exact h.exec_sbr n off
  | bindr off => obtain rfl := hr rfl; exact h.exec_bindr off
  | curr => obtain rfl := hr rfl; exact h.exec_curr
  | next => obtain rfl := hr rfl; exact h.exec_next
  | advw => obtain rfl := hr rfl; exact h.exec_advw
  | skip => obtain rfl := hr rfl; exact h.exec_skip
  | ext1 _ | ext2 _ _ | ext3 _ _ _ | ext4 _ _ _ _ =>
    obtain rfl := hr rfl
    exact h.exec_extract (List.cons_ne_nil _ _)
  | bindw off => obtain rfl := hw rfl; exact h.exec_bindw off
  | wr1 n => obtain rfl := hw rfl; exact h.exec_wr1 n
  | wskip => obtain rfl := hw rfl; exact h.exec_wskip

/-! ### The statements -/

/-- The ways in which a command can end alike. -/
theorem EndsAlike.cases {i : Instr} (h : EndsAlike rd wr rs i s s') :
    (∃ t t', Machine.exec i s = .next t ∧ Machine.exec i s' = .next t' ∧ Alike rd wr rs t t' ∧
        t'.results.driven i = t.results.driven i) ∨
      (∃ f, Machine.exec i s = .fault f ∧ Machine.exec i s' = .fault f ∧ f.command = some i) ∨
      rs ≠ [] ∧ Machine.exec i s = .refused (.race i) ∧ Machine.exec i s' = .refused (.race i) := by
  obtain ⟨x, y, hx, hy, hagree⟩ := h
  rw [hx, hy]
  cases hagree with
  | ok h => exact .inl ⟨_, _, rfl, rfl, h⟩
  | @error v hrace =>
    cases v with
    | race => exact .inr (.inr ⟨hrace rfl, rfl, rfl⟩)
    | shiftCount | fieldWidth | bitOffset | untrimmedValue | unprovidedWord | indexRange | unboundCursor =>
      exact .inr (.inl ⟨_, rfl, rfl, rfl⟩)

end

theorem alike_of_indistinguishable {s s' : State} (h : Indistinguishable s s') :
    Alike true true s.rivals s s' := by
  obtain ⟨hwidth, haw, hstrategy, hpolicy, hrc, hwc, hports, hinputs, hrivals, htrace, hword⟩ := h
  exact ⟨hwidth, haw, hstrategy, hpolicy, hports, hinputs, rfl, hrivals, htrace, hword, fun _ => hrc, fun _ => hwc⟩

theorem Alike.indistinguishable {rs : List Rival} {s s' : State} (h : Alike true true rs s s') :
    Indistinguishable s s' :=
  ⟨h.width, h.aw, h.strategy, h.policy, h.reader rfl, h.writer rfl, h.ports, h.inputs,
    h.rivals_right.trans h.rivals_left.symm, h.trace, h.word⟩

/-- Settles O49: the two states agree on everything that a command looks at. -/
theorem unobservableDifferencesStayUnobservable : Obligations.UnobservableDifferencesStayUnobservable := by
  intro i s s' h
  have hends := ((alike_of_indistinguishable h).exec (i := i) (fun _ => rfl) (fun _ => rfl)).cases
  rcases hends with ⟨t, t', ht, ht', halike, hdriven⟩ | ⟨f, hf, hf', -⟩ | ⟨-, hr, hr'⟩
  · rw [ht, ht']
    refine ⟨fun u hu => ?_, nofun, nofun⟩
    cases hu
    exact ⟨t', rfl, halike.indistinguishable, hdriven⟩
  · rw [hf, hf']
    exact ⟨nofun, fun _ h => h, nofun⟩
  · rw [hr, hr']
    exact ⟨nofun, nofun, fun _ h => h⟩

/-- Settles O37: a state agrees with itself, so the command ends in one of the ways in which two states end alike. -/
theorem stopsNameTheCommand : Obligations.StopsNameTheCommand := by
  intro i s
  have hself : Indistinguishable s s := ⟨rfl, rfl, rfl, rfl, rfl, rfl, rfl, rfl, rfl, rfl, fun _ => rfl⟩
  have hends := ((alike_of_indistinguishable hself).exec (i := i) (fun _ => rfl) (fun _ => rfl)).cases
  rcases hends with ⟨t, -, ht, -⟩ | ⟨f, hf, -, hname⟩ | ⟨hrivals, hr, -⟩
  · exact .inl ⟨t, ht⟩
  · exact .inr (.inl ⟨f, hf, hname⟩)
  · exact .inr (.inr ⟨hrivals, hr⟩)

/-- A command of the reader or of neither leaves a state in which the writer alone may differ (60_exceptions.md R214). -/
theorem bodyAfter_withWriter {i : Instr} (s : State) (c : WriterCtx) (h : usesWriter i = false) :
    bodyAfter i { s with wc := c } = { bodyAfter i s with wc := c } := by
  have hextracts : ∀ fs s, afterExtracts fs { s with wc := c } = { afterExtracts fs s with wc := c } := by
    intro fs
    induction fs with
    | nil => exact fun _ => rfl
    | cons f fs ih => exact fun s => ih (afterExtract f.bits s)
  cases i with
  | sbr n off =>
    simp only [bodyAfter, afterSet]
    split_ifs <;> rfl
  | ext1 _ | ext2 _ _ | ext3 _ _ _ | ext4 _ _ _ _ => exact hextracts _ s
  | bindw _ | wr1 _ | wskip => cases h
  | shw _ | xbr _ _ | xbrm _ _ | sxt _ | bindr _ | curr | next | advw | skip => rfl

/-- A command of the writer or of neither leaves a state in which the reader alone may differ (60_exceptions.md R214). -/
theorem bodyAfter_withReader {i : Instr} (s : State) (c : ReaderCtx) (h : usesReader i = false) :
    bodyAfter i { s with rc := c } = { bodyAfter i s with rc := c } := by
  cases i with
  | sbr _ _ | wr1 _ =>
    simp only [bodyAfter, afterSet]
    split_ifs <;> rfl
  | bindr _ | curr | next | advw | skip | ext1 _ | ext2 _ _ | ext3 _ _ _ | ext4 _ _ _ _ => cases h
  | shw _ | xbr _ _ | xbrm _ _ | sxt _ | bindw _ | wskip => rfl

/-- A command that completes in one of two states it cannot tell apart completes in the other, with the explicit state. -/
theorem Alike.exec_next_state {rd wr : Bool} {rs : List Rival} {i : Instr} {s s' t : State}
    (h : Alike rd wr rs s s') (hr : usesReader i = true → rd = true) (hw : usesWriter i = true → wr = true)
    (ht : Machine.exec i s = .next t) :
    ∃ vs vs', t = Machine.respond vs (bodyAfter i s) ∧
      Machine.exec i s' = .next (Machine.respond vs' (bodyAfter i s')) ∧
      (Machine.respond vs' (bodyAfter i s')).results.driven i = t.results.driven i := by
  obtain ⟨vs, hvs⟩ := Machine.exec_next_state ht
  rcases (h.exec hr hw).cases with ⟨u, u', hu, hu', -, hdriven⟩ | ⟨f, hf, -⟩ | ⟨-, hf, -⟩
  · obtain ⟨vs', rfl⟩ := Machine.exec_next_state hu'
    cases hu.symm.trans ht
    exact ⟨vs, vs', hvs, hu', hdriven⟩
  · cases hf.symm.trans ht
  · cases hf.symm.trans ht

/-- Settles O48: a command does not look at a context it does not use, and the state it leaves is explicit. -/
theorem readerAndWriterAreIndependent : Obligations.ReaderAndWriterAreIndependent := by
  intro i s t h
  refine ⟨fun hw c => ?_, fun hr c => ?_⟩
  · have halike : Alike true false s.rivals s { s with wc := c } :=
      ⟨rfl, rfl, rfl, rfl, rfl, rfl, rfl, rfl, rfl, fun _ => rfl, fun _ => rfl, nofun⟩
    obtain ⟨vs, vs', rfl, hexec, hdriven⟩ := halike.exec_next_state (fun _ => rfl) (by rw [hw]; nofun) h
    rw [bodyAfter_withWriter s c hw] at hexec hdriven
    exact ⟨_, hdriven, hexec⟩
  · have halike : Alike false true s.rivals s { s with rc := c } :=
      ⟨rfl, rfl, rfl, rfl, rfl, rfl, rfl, rfl, rfl, fun _ => rfl, nofun, fun _ => rfl⟩
    obtain ⟨vs, vs', rfl, hexec, hdriven⟩ := halike.exec_next_state (by rw [hr]; nofun) (fun _ => rfl) h
    rw [bodyAfter_withReader s c hr] at hexec hdriven
    exact ⟨_, hdriven, hexec⟩

end Sys2Proof.Machine
end
